-- ==== Sys2Proof/Word.lean ====
section
/-! DEFINITION. The word types of the IJVM core (spec/00_scope.md R9). -/

namespace Sys2Proof

/-- A Word: 32 bits, read as two's complement unless a rule says otherwise (R9). -/
abbrev Word := BitVec 32

/-- A byte of the text, of the image or of a channel. -/
abbrev Byte := BitVec 8

/-- A 16-bit operand or method-header field (R52). -/
abbrev Half := BitVec 16

end Sys2Proof
end

