-- ==== Sys2Proof/Config.lean ====
section
/-! DEFINITION. The implementation parameters of spec/00_scope.md R7 and the free values. -/

namespace Sys2Proof

/-- The 28 mnemonics that `OPCODE_MAP` maps to bytes, in the order of spec/30_encoding.md R94. -/
inductive Opcode where
  | nop | err | halt | bipush | dup | pop | swap | iadd | isub | iand | ior
  | inp | out | goto | ifeq | iflt | ifIcmpeq | ldcW | iload | istore | iinc
  | wide | newarray | iaload | iastore | invokevirtual | ireturn | tailcall
deriving DecidableEq, Repr

/-- Every mnemonic once, in the table's order (R94). -/
def Opcode.all : List Opcode :=
  [.nop, .err, .halt, .bipush, .dup, .pop, .swap, .iadd, .isub, .iand, .ior,
   .inp, .out, .goto, .ifeq, .iflt, .ifIcmpeq, .ldcW, .iload, .istore, .iinc,
   .wide, .newarray, .iaload, .iastore, .invokevirtual, .ireturn, .tailcall]

/-- `OPCODE_MAP`: the byte of each mnemonic, a parameter (R7, R94). -/
structure OpcodeMap where
  nop : Byte
  err : Byte
  halt : Byte
  bipush : Byte
  dup : Byte
  pop : Byte
  swap : Byte
  iadd : Byte
  isub : Byte
  iand : Byte
  ior : Byte
  inp : Byte
  out : Byte
  goto : Byte
  ifeq : Byte
  iflt : Byte
  ifIcmpeq : Byte
  ldcW : Byte
  iload : Byte
  istore : Byte
  iinc : Byte
  wide : Byte
  newarray : Byte
  iaload : Byte
  iastore : Byte
  invokevirtual : Byte
  ireturn : Byte
  tailcall : Byte
deriving DecidableEq, Repr

/-- The byte a map gives to a mnemonic. -/
def OpcodeMap.byte (m : OpcodeMap) : Opcode → Byte
  | .nop => m.nop
  | .err => m.err
  | .halt => m.halt
  | .bipush => m.bipush
  | .dup => m.dup
  | .pop => m.pop
  | .swap => m.swap
  | .iadd => m.iadd
  | .isub => m.isub
  | .iand => m.iand
  | .ior => m.ior
  | .inp => m.inp
  | .out => m.out
  | .goto => m.goto
  | .ifeq => m.ifeq
  | .iflt => m.iflt
  | .ifIcmpeq => m.ifIcmpeq
  | .ldcW => m.ldcW
  | .iload => m.iload
  | .istore => m.istore
  | .iinc => m.iinc
  | .wide => m.wide
  | .newarray => m.newarray
  | .iaload => m.iaload
  | .iastore => m.iastore
  | .invokevirtual => m.invokevirtual
  | .ireturn => m.ireturn
  | .tailcall => m.tailcall

/-- The one property the rules assume of `OPCODE_MAP`: 28 distinct bytes (R94). -/
abbrev OpcodeMap.Distinct (m : OpcodeMap) : Prop := (Opcode.all.map m.byte).Nodup

/-- The default map of R94. PRESUMED (general knowledge, spec/93 G1), unsafe: log 4. -/
def OpcodeMap.default : OpcodeMap where
  nop := 0x00
  err := 0xFE
  halt := 0xFF
  bipush := 0x10
  dup := 0x59
  pop := 0x57
  swap := 0x5F
  iadd := 0x60
  isub := 0x64
  iand := 0x7E
  ior := 0xB0
  inp := 0xFC
  out := 0xFD
  goto := 0xA7
  ifeq := 0x99
  iflt := 0x9B
  ifIcmpeq := 0x9F
  ldcW := 0x13
  iload := 0x15
  istore := 0x36
  iinc := 0x84
  wide := 0xC4
  newarray := 0xD1
  iaload := 0xD2
  iastore := 0xD3
  invokevirtual := 0xB6
  ireturn := 0xAC
  tailcall := 0xCB

/-- The switch `RESET_SP`: the logical stack size after LOAD is 0, or the sentinels are the bottom entries
of the stack, 256 of them by default (R7, R38, spec/92 D6). -/
inductive ResetSp where
  | zero
  | sentinels
deriving DecidableEq, Repr

/-- The parameters of R7, but for the width of a Word (log 3). Those with a stated value are parameters as
spec/93 U4, U6, U7 and U12 rule; the OPEN ones are arguments of the model, and no statement names a
value of theirs. -/
structure Params where
  /-- `SENTINEL_COUNT` (source: 256). -/
  sentinelCount : Nat
  /-- `SENTINEL_VALUE` (source: 1). -/
  sentinelValue : Word
  /-- `LOCAL_INIT`, the value of each fresh local (source: 1; spec/46_frames.md R255). -/
  localInit : Word
  /-- `STACK_CAP_INIT` (source: 512). -/
  stackCapInit : Nat
  /-- `HEAP_TABLE_CAP_INIT` (source: 10). -/
  heapTableCapInit : Nat
  /-- `STACK_CAP_MAX` as its exponent: it is the initial capacity doubled so many times (OPEN). -/
  stackDoublings : Nat
  /-- `HEAP_TABLE_MAX` (OPEN). -/
  heapTableMax : Nat
  /-- `HEAP_WORDS_MAX` (OPEN). -/
  heapWordsMax : Nat
  /-- `TEXT_MAX` (OPEN). -/
  textMax : Nat
  /-- `CP_MAX` (OPEN). -/
  cpMax : Nat
  /-- `OPCODE_MAP` (decided). -/
  opcodeMap : OpcodeMap
  /-- `MAGIC` (decided). -/
  magic : Word
  /-- `RESET_SP` (decided). -/
  resetSp : ResetSp
deriving DecidableEq, Repr

namespace Config

/-- What a core holds, beside `status` and `cause`, after a fatal or an undefined error: "every other
piece of state is unspecified" (spec/60_exceptions.md R302, R303). -/
structure Unspecified where
  pc : Word
  lv : Word
  sp : Nat
  depth : BitVec 32
  cap : Nat
  hcap : Nat
  cells : List (Nat × Word)
  cp : List Word
  text : List Byte
  heap : List (List Word)
  outlog : List Byte
deriving DecidableEq, Repr, Inhabited

/-- The free value of R302 and R303: nothing constrains it. The argument is the counter
`State.draws`, so that each error draws afresh (log 1). -/
opaque unspecified : Nat → Unspecified

end Config

/-- `STACK_CAP_MAX`, "a power-of-two multiple of 512" (R7): of the initial capacity, where that is
another (log 3). -/
def Params.stackCapMax (p : Params) : Nat := p.stackCapInit * 2 ^ p.stackDoublings

/-- The parameters of `State.reset`: the source's values and the decided defaults of R7. `MAGIC` is
PRESUMED (spec/93 G2, log 5); the five OPEN limits are a DESIGN CHOICE, unsafe, on which no statement
rests (log 3). -/
def Params.default : Params where
  sentinelCount := 256
  sentinelValue := 1
  localInit := 1
  stackCapInit := 512
  heapTableCapInit := 10
  opcodeMap := OpcodeMap.default
  magic := 0x1DEADFAD
  resetSp := .zero
  stackDoublings := 15
  heapTableMax := 10 * 2 ^ 15
  heapWordsMax := 2 ^ 24
  textMax := 2 ^ 31 - 1
  cpMax := 2 ^ 30

end Sys2Proof
end

