-- ==== Sys2Proof/Syntax.lean ====
section
/-! DEFINITION. The instructions: one constructor per row of spec/opcode_table.json. -/

namespace Sys2Proof

/-- An instruction with its operand fields as spec/30_encoding.md R92 lays them out, undecoded as
numbers: R96 (Machine/Operands.lean) says how each is read. -/
inductive Instr where
  /-- NOP (R120). -/
  | nop
  /-- ERR (R121). -/
  | err
  /-- HALT (R122). -/
  | halt
  /-- BIPUSH b (R140). -/
  | bipush (b : Byte)
  /-- DUP (R141). -/
  | dup
  /-- POP (R142). -/
  | pop
  /-- SWAP (R143). -/
  | swap
  /-- IADD (R145). -/
  | iadd
  /-- ISUB (R146). -/
  | isub
  /-- IAND (R147). -/
  | iand
  /-- IOR (R148). -/
  | ior
  /-- IN (R170). -/
  | inp
  /-- OUT (R171). -/
  | out
  /-- GOTO off16 (R181). -/
  | goto (off : Half)
  /-- IFEQ off16 (R182). -/
  | ifeq (off : Half)
  /-- IFLT off16 (R183). -/
  | iflt (off : Half)
  /-- IF_ICMPEQ off16 (R184). -/
  | ifIcmpeq (off : Half)
  /-- LDC_W idx16 (R200). -/
  | ldcW (i : Half)
  /-- ILOAD idx8 (R201). -/
  | iload (i : Byte)
  /-- ISTORE idx8 (R202). -/
  | istore (i : Byte)
  /-- IINC idx8, delta8 (R203). -/
  | iinc (i : Byte) (d : Byte)
  /-- WIDE followed by a byte that is not ILOAD, ISTORE or IINC (R207). -/
  | wide (b : Byte)
  /-- WIDE ILOAD idx16 (R204). -/
  | wideIload (i : Half)
  /-- WIDE ISTORE idx16 (R205). -/
  | wideIstore (i : Half)
  /-- WIDE IINC idx16, delta8 (R206). -/
  | wideIinc (i : Half) (d : Byte)
  /-- NEWARRAY (R230). -/
  | newarray
  /-- IALOAD (R231). -/
  | iaload
  /-- IASTORE (R232). -/
  | iastore
  /-- INVOKEVIRTUAL idx16 (R251). -/
  | invokevirtual (i : Half)
  /-- IRETURN (R256). -/
  | ireturn
  /-- TAILCALL idx16 (R262). -/
  | tailcall (i : Half)
deriving DecidableEq, Repr

end Sys2Proof
end

