-- ==== Sys2Proof/WellFormed.lean ====
section
/-! DEFINITION. Which instructions and which parameters are well formed. -/

namespace Sys2Proof

/-- The byte after WIDE of the row WIDE is none of the three that select a form of their own
(spec/44_constants_locals.md R207). The operand fields of every other instruction have exactly the
width of their encoding, so there every value is well formed. -/
def Instr.wf (m : OpcodeMap) : Instr → Bool
  | .wide b => b != m.iload && b != m.istore && b != m.iinc
  | .nop => true
  | .err => true
  | .halt => true
  | .bipush _ => true
  | .dup => true
  | .pop => true
  | .swap => true
  | .iadd => true
  | .isub => true
  | .iand => true
  | .ior => true
  | .inp => true
  | .out => true
  | .goto _ => true
  | .ifeq _ => true
  | .iflt _ => true
  | .ifIcmpeq _ => true
  | .ldcW _ => true
  | .iload _ => true
  | .istore _ => true
  | .iinc _ _ => true
  | .wideIload _ => true
  | .wideIstore _ => true
  | .wideIinc _ _ => true
  | .newarray => true
  | .iaload => true
  | .iastore => true
  | .invokevirtual _ => true
  | .ireturn => true
  | .tailcall _ => true

/-- The initial capacities are not 0, so that doubling makes them larger, and the sentinels lie in the
initial stack (spec/10_state.md R38; log 3). -/
abbrev Params.SizesFit (p : Params) : Prop :=
  0 < p.stackCapInit ∧ 0 < p.heapTableCapInit ∧ p.sentinelCount ≤ p.stackCapInit

/-- The bounds that spec/00_scope.md R7 sets on the parameters: distinct opcode bytes, `TEXT_MAX` at
most 2^31 - 1, `CP_MAX` at most 2^30. The sizes fit, and `HEAP_TABLE_MAX` is at least the initial
capacity, which the platform provides (log 3). -/
def Params.wf (p : Params) : Bool :=
  decide p.opcodeMap.Distinct && decide (p.textMax ≤ 2 ^ 31 - 1) && decide (p.cpMax ≤ 2 ^ 30)
    && decide (p.heapTableCapInit ≤ p.heapTableMax) && decide p.SizesFit

end Sys2Proof
end

