-- ==== Sys2Proof/Decode.lean ====
section
/-! DEFINITION. The decoder (spec/30_encoding.md R92 to R101), total on any bytes, and after it the
encoder, both for any `OPCODE_MAP`. -/

namespace Sys2Proof

/-- A 16-bit field, first byte in bits 15:8 (spec/20_memory.md R52). -/
def be16 (h l : Byte) : Half := h ++ l

/-- What the bytes from an opcode on say. -/
inductive Decoded where
  /-- An instruction, and the bytes after it. -/
  | instr (i : Instr) (rest : List Byte)
  /-- The first byte is not in `OPCODE_MAP` (R101). -/
  | unknownOpcode (op : Byte)
  /-- An operand byte, or the byte after WIDE, lies past the end (R96, R99). -/
  | truncated
  /-- There is no opcode byte. -/
  | endOfText
deriving DecidableEq, Repr

/-- The mnemonic a byte stands for, if any (R94, R101). -/
def OpcodeMap.lookup (m : OpcodeMap) (b : Byte) : Option Opcode :=
  Opcode.all.find? fun k => m.byte k == b

/-- Format B: one operand byte. -/
def decodeB (k : Byte → Instr) : List Byte → Decoded
  | b :: rest => .instr (k b) rest
  | [] => .truncated

/-- Format BB: two operand bytes. -/
def decodeBB (k : Byte → Byte → Instr) : List Byte → Decoded
  | a :: b :: rest => .instr (k a b) rest
  | _ => .truncated

/-- Formats H and, after WIDE, WH: a 16-bit operand. -/
def decodeH (k : Half → Instr) : List Byte → Decoded
  | h :: l :: rest => .instr (k (be16 h l)) rest
  | _ => .truncated

/-- Format WHB after WIDE: a 16-bit operand and a byte. -/
def decodeHB (k : Half → Byte → Instr) : List Byte → Decoded
  | h :: l :: d :: rest => .instr (k (be16 h l) d) rest
  | _ => .truncated

/-- The byte after WIDE selects the form (R99); any other byte is the row WIDE (R207). -/
def decodeWide (m : OpcodeMap) : List Byte → Decoded
  | [] => .truncated
  | b :: rest =>
    if b = m.iload then decodeH .wideIload rest
    else if b = m.istore then decodeH .wideIstore rest
    else if b = m.iinc then decodeHB .wideIinc rest
    else .instr (.wide b) rest

/-- The bytes after the opcode byte, by the opcode's format (R92). -/
def decodeOperands (m : OpcodeMap) (rest : List Byte) : Opcode → Decoded
  | .nop => .instr .nop rest
  | .err => .instr .err rest
  | .halt => .instr .halt rest
  | .bipush => decodeB .bipush rest
  | .dup => .instr .dup rest
  | .pop => .instr .pop rest
  | .swap => .instr .swap rest
  | .iadd => .instr .iadd rest
  | .isub => .instr .isub rest
  | .iand => .instr .iand rest
  | .ior => .instr .ior rest
  | .inp => .instr .inp rest
  | .out => .instr .out rest
  | .goto => decodeH .goto rest
  | .ifeq => decodeH .ifeq rest
  | .iflt => decodeH .iflt rest
  | .ifIcmpeq => decodeH .ifIcmpeq rest
  | .ldcW => decodeH .ldcW rest
  | .iload => decodeB .iload rest
  | .istore => decodeB .istore rest
  | .iinc => decodeBB .iinc rest
  | .wide => decodeWide m rest
  | .newarray => .instr .newarray rest
  | .iaload => .instr .iaload rest
  | .iastore => .instr .iastore rest
  | .invokevirtual => decodeH .invokevirtual rest
  | .ireturn => .instr .ireturn rest
  | .tailcall => decodeH .tailcall rest

/-- The decoder: the opcode byte decides before any operand byte is read (R91, R123). -/
def decode (m : OpcodeMap) : List Byte → Decoded
  | [] => .endOfText
  | op :: rest =>
    match m.lookup op with
    | none => .unknownOpcode op
    | some k => decodeOperands m rest k

/-- The high byte of a 16-bit field. -/
def hiByte (h : Half) : Byte := h.extractLsb' 8 8

/-- The low byte of a 16-bit field. -/
def loByte (h : Half) : Byte := h.extractLsb' 0 8

/-- The encoder: the bytes of an instruction, first byte first (R92). -/
def encode (m : OpcodeMap) : Instr → List Byte
  | .nop => [m.nop]
  | .err => [m.err]
  | .halt => [m.halt]
  | .bipush b => [m.bipush, b]
  | .dup => [m.dup]
  | .pop => [m.pop]
  | .swap => [m.swap]
  | .iadd => [m.iadd]
  | .isub => [m.isub]
  | .iand => [m.iand]
  | .ior => [m.ior]
  | .inp => [m.inp]
  | .out => [m.out]
  | .goto off => [m.goto, hiByte off, loByte off]
  | .ifeq off => [m.ifeq, hiByte off, loByte off]
  | .iflt off => [m.iflt, hiByte off, loByte off]
  | .ifIcmpeq off => [m.ifIcmpeq, hiByte off, loByte off]
  | .ldcW i => [m.ldcW, hiByte i, loByte i]
  | .iload i => [m.iload, i]
  | .istore i => [m.istore, i]
  | .iinc i d => [m.iinc, i, d]
  | .wide b => [m.wide, b]
  | .wideIload i => [m.wide, m.iload, hiByte i, loByte i]
  | .wideIstore i => [m.wide, m.istore, hiByte i, loByte i]
  | .wideIinc i d => [m.wide, m.iinc, hiByte i, loByte i, d]
  | .newarray => [m.newarray]
  | .iaload => [m.iaload]
  | .iastore => [m.iastore]
  | .invokevirtual i => [m.invokevirtual, hiByte i, loByte i]
  | .ireturn => [m.ireturn]
  | .tailcall i => [m.tailcall, hiByte i, loByte i]

/-- Instruction lengths in bytes (R93). For WIDE with another second byte: the two bytes read before
the error (the note of the table's row WIDE). -/
def Instr.length : Instr → Nat
  | .nop => 1
  | .err => 1
  | .halt => 1
  | .bipush _ => 2
  | .dup => 1
  | .pop => 1
  | .swap => 1
  | .iadd => 1
  | .isub => 1
  | .iand => 1
  | .ior => 1
  | .inp => 1
  | .out => 1
  | .goto _ => 3
  | .ifeq _ => 3
  | .iflt _ => 3
  | .ifIcmpeq _ => 3
  | .ldcW _ => 3
  | .iload _ => 2
  | .istore _ => 2
  | .iinc _ _ => 3
  | .wide _ => 2
  | .wideIload _ => 4
  | .wideIstore _ => 4
  | .wideIinc _ _ => 5
  | .newarray => 1
  | .iaload => 1
  | .iastore => 1
  | .invokevirtual _ => 3
  | .ireturn => 1
  | .tailcall _ => 3

/-- The longest instruction, in bytes (R92). -/
def maxInstrBytes : Nat := 5

/-- Byte `k` of a number whose byte 0 is its least significant. -/
def byteAt (w k : Nat) : Byte := BitVec.ofNat 8 (w >>> (8 * k))

/-- The numbers that spec/opcode_table.json itself gives as `fixed` for the three WIDE forms: it reads
their match, the first TWO bytes, as one number with the first byte in bits 15:8. -/
def tableWideNumbers : List Nat := [0xC415, 0xC436, 0xC484]

/-- The bytes of an instruction of the opcode table whose bits are `w`: byte 0 of `w` first, every bit
at `nbits` and above zero. The one exception are the table's own numbers of the WIDE forms, whose
first two bytes stand the other way round (DEDUCED, unsafe for the host's check alone: log 8). -/
def tableBytes (nbits w : Nat) : List Byte :=
  let w := w % 2 ^ nbits
  let bytes := (List.range maxInstrBytes).map (byteAt w)
  if 16 ≤ nbits ∧ w ∈ tableWideNumbers then byteAt w 1 :: byteAt w 0 :: bytes.drop 2 else bytes

/-- What the decoder, with the default `OPCODE_MAP`, reads from an instruction of the opcode table. -/
def decodeTableWord (nbits w : Nat) : Option Instr :=
  match decode OpcodeMap.default (tableBytes nbits w) with
  | .instr i _ => some i
  | .unknownOpcode _ => none
  | .truncated => none
  | .endOfText => none

end Sys2Proof
end

