-- ==== Sys2Proof/Machine/State.lean ====
section
/-! DEFINITION. The state of the IJVM core (spec/10_state.md R20 to R38), the errors that end a run
(spec/60_exceptions.md R300 to R304), and the state after reset. -/

namespace Sys2Proof.Machine

/-- Causes of a recoverable error (R304). -/
inductive RecoverableCause where
  | errInstr
  | unknownOpcode
  | badArraySize
  | arrayIndex
deriving DecidableEq, Repr

/-- Causes of a fatal error (R304). -/
inductive FatalCause where
  | stackUnderflow
  | stackAlloc
  | heapAlloc
  | stackIndex
deriving DecidableEq, Repr

/-- Causes of an undefined error (R304). -/
inductive UndefCause where
  | pcRange
  | truncated
  | cpRange
  | badRef
  | unwrittenRead
  | frameUnderflow
  | headerRange
  | badWide
  | unwindBelowBase
deriving DecidableEq, Repr

/-- A run-time error with its class (R300). -/
inductive RunError where
  | recoverable (c : RecoverableCause)
  | fatal (c : FatalCause)
  | undef (c : UndefCause)
deriving DecidableEq, Repr

/-- The register `cause` (R29): `NONE` or the error that ended the run. -/
inductive Cause where
  | none
  | error (e : RunError)
deriving DecidableEq, Repr

/-- The 8-bit value of `cause` (R304). -/
def Cause.code : Cause → BitVec 8
  | .none => 0x00
  | .error (.recoverable .errInstr) => 0x01
  | .error (.recoverable .unknownOpcode) => 0x02
  | .error (.recoverable .badArraySize) => 0x03
  | .error (.recoverable .arrayIndex) => 0x04
  | .error (.fatal .stackUnderflow) => 0x10
  | .error (.fatal .stackAlloc) => 0x11
  | .error (.fatal .heapAlloc) => 0x12
  | .error (.fatal .stackIndex) => 0x13
  | .error (.undef .pcRange) => 0x20
  | .error (.undef .truncated) => 0x21
  | .error (.undef .cpRange) => 0x22
  | .error (.undef .badRef) => 0x23
  | .error (.undef .unwrittenRead) => 0x24
  | .error (.undef .frameUnderflow) => 0x25
  | .error (.undef .headerRange) => 0x26
  | .error (.undef .badWide) => 0x27
  | .error (.undef .unwindBelowBase) => 0x28

/-- The register `status` (R28). -/
inductive Status where
  | run
  | done
  | fatal
  | undef
deriving DecidableEq, Repr

/-- The 2-bit value of `status` (R28). -/
def Status.code : Status → BitVec 2
  | .run => 0
  | .done => 1
  | .fatal => 2
  | .undef => 3

/-- The host's answer to one IN: a byte or the end of input (spec/20_memory.md R75). -/
inductive HostAnswer where
  | byte (b : Byte)
  | eof
deriving DecidableEq, Repr

/-- The stack RAM: the written cells as (index, Word) pairs, indices strictly rising, no cell listed
that holds what an unlisted one reads as (Machine/Memory.lean). The smallest unit is a Word (spec/20_memory.md R54). -/
abbrev Memory := List (Nat × Word)

/-- The architectural state (R20), and after it the model's own fields. -/
structure State where
  /-- `pc` (R22, R23). -/
  pc : Word
  /-- `lv` (R25). -/
  lv : Word
  /-- `sp`, the logical size of the Value Stack (R24; log 11). -/
  sp : Nat
  /-- `depth` (R27). -/
  depth : BitVec 32
  /-- `status` (R28). -/
  status : Status
  /-- `cause` (R29). -/
  cause : Cause
  /-- `cap`, the number of stack cells (R32). -/
  cap : Nat
  /-- `hcap`, the heap table's capacity (R33). -/
  hcap : Nat
  /-- The stack RAM `S` (R32). -/
  stack : Memory
  /-- The constant pool `CP`; `CP_LEN` is its length (R30). -/
  cp : List Word
  /-- The text `T`; `TEXT_LEN` is its length (R31). -/
  text : List Byte
  /-- The heap table `H`; `H.size` is its length (R33). -/
  heap : List (List Word)
  /-- `OUTLOG`, oldest byte first (R34). -/
  outlog : List Byte
  /-- The parameters of spec/00_scope.md R7. No step writes it (log 3). -/
  cfg : Params
  /-- The model's own: the host's answers to the next INs, next one first; empty while the host
  withholds its answer (spec/70_reset_and_hazards.md R365; log 2). -/
  answers : List HostAnswer
  /-- The model's own: the host has answered EOF in this run (R365; log 2). -/
  eof : Bool
  /-- The model's own: how many free values have been drawn (log 1). -/
  draws : Nat
deriving DecidableEq, Repr

/-- The reasons a step could stop with. There is none: spec/60_exceptions.md R301 to R303 say what the
machine does at every error, so every error is a next state (log 1). Nothing raises a `Fault`. -/
inductive Fault
deriving DecidableEq, Repr

/-- The reasons a step could be refused with. -/
inductive Refusal where
  /-- Raised by an arm of `exec` alone, for an instruction without a meaning; no arm is left that
  does. Safe: the machine stops where the hardware would go on. -/
  | notModelled (mnemonic : String)
deriving DecidableEq, Repr

/-- The state after reset (R38, spec/70_reset_and_hazards.md R340): a LOAD of the empty image under the
default parameters. With `TEXT_LEN = 0` the status is `DONE` (R28). A program comes in through LOAD
(log 7). -/
def State.reset : State where
  pc := 0
  lv := 0
  sp := 0
  depth := 0
  status := .done
  cause := .none
  cap := Params.default.stackCapInit
  hcap := Params.default.heapTableCapInit
  stack := []
  cp := []
  text := []
  heap := []
  outlog := []
  cfg := Params.default
  answers := []
  eof := false
  draws := 0

end Sys2Proof.Machine
end

