-- ==== Sys2Proof/Machine/Flags.lean ====
section
/-! DEFINITION. The core has no flags (spec/10_state.md R26): a conditional branch tests the Words it
pops in its own step. These are its tests (spec/43_branches.md R182 to R184). -/

namespace Sys2Proof.Machine

/-- The test of IFEQ (R182). -/
def isZero (v : Word) : Bool := v == 0

/-- The test of IFLT, on the signed reading (R183). -/
def isNegative (v : Word) : Bool := decide (v.toInt < 0)

/-- The test of IF_ICMPEQ, on all 32 bits (R184). -/
def isEqual (a b : Word) : Bool := a == b

end Sys2Proof.Machine
end

