-- ==== Sys2Proof/Machine/Memory.lean ====
section
/-! DEFINITION. Reading and writing one cell of the stack RAM (spec/20_memory.md R54 to R59,
spec/10_state.md R32, R38). -/

namespace Sys2Proof.Machine

/-- What an unlisted cell holds: the sentinel below `SENTINEL_COUNT`, nothing (the mark *unwritten*) from
there on (R38; log 13). -/
def Memory.unlisted (p : Params) (i : Nat) : Option Word :=
  if i < p.sentinelCount then some p.sentinelValue else none

/-- The Word in cell `i`, or `none` where the cell is unwritten. -/
def Memory.read (p : Params) : Memory → Nat → Option Word
  | [], i => Memory.unlisted p i
  | (j, w) :: m, i => if i = j then some w else Memory.read p m i

/-- List the pair at its place. -/
def Memory.insert (i : Nat) (v : Word) : Memory → Memory
  | [] => [(i, v)]
  | (j, w) :: m =>
    if i < j then (i, v) :: (j, w) :: m
    else if i = j then (i, v) :: m
    else (j, w) :: Memory.insert i v m

/-- Take every pair of the cell off the list. -/
def Memory.erase (i : Nat) (m : Memory) : Memory := m.filter fun c => c.1 != i

/-- Write one cell, in canonical form. -/
def Memory.write (p : Params) (m : Memory) (i : Nat) (v : Word) : Memory :=
  if Memory.unlisted p i = some v then Memory.erase i m else Memory.insert i v m

/-- The cells below `n` alone: those from `n` on become unlisted, which past the sentinels is unwritten
(growth, R56). -/
def Memory.below (m : Memory) (n : Nat) : Memory := m.filter fun c => decide (c.1 < n)

/-- Any list of pairs, put in canonical form. -/
def Memory.ofCells (p : Params) (cells : List (Nat × Word)) : Memory :=
  cells.foldr (fun c m => Memory.write p m c.1 c.2) []

/-- The canonical form: indices strictly rising, and no pair that an unlisted cell would read as. -/
abbrev Memory.wf (p : Params) (m : Memory) : Prop :=
  m.Pairwise (fun a b => a.1 < b.1) ∧ ∀ c ∈ m, Memory.unlisted p c.1 ≠ some c.2

end Sys2Proof.Machine
end

