-- ==== Sys2Proof/Machine/Operands.lean ====
section
/-! DEFINITION. How operand fields are read (spec/30_encoding.md R96, R97), where locals lie, and the
16-bit header fields in the text (R98). -/

namespace Sys2Proof.Machine

/-- `b` of BIPUSH: sign-extended (R96). -/
def imm8 (b : Byte) : Word := b.signExtend 32

/-- `delta8` of IINC and WIDE IINC: sign-extended (R96). -/
def delta8 (d : Byte) : Word := d.signExtend 32

/-- `idx8` of ILOAD, ISTORE and IINC: unsigned (R96). -/
def idx8 (i : Byte) : Nat := i.toNat

/-- `idx16` of LDC_W, the calls and the WIDE forms: unsigned (R96). -/
def idx16 (i : Half) : Nat := i.toNat

/-- `off16` of the branches: signed (R96). -/
def off16 (off : Half) : Word := off.signExtend 32

/-- A branch's target: the displacement added to the opcode's own address (R97, spec/43_branches.md R180). -/
def branchTarget (opc : Word) (off : Half) : Word := opc + off16 off

/-- `TEXT_LEN` as a Word. -/
def State.textEnd (s : State) : Word := BitVec.ofNat 32 s.text.length

/-- The stack index of local `i`: the exact sum `lv + i` (spec/44_constants_locals.md; spec/41_stack_arith.md R149). -/
def State.localIndex (s : State) (i : Nat) : Int := s.lv.toInt + i

/-- `T[a]`, or `none` outside the text (spec/20_memory.md R51). -/
def State.textByte (s : State) (a : Int) : Option Byte :=
  if 0 ≤ a then s.text[a.toNat]? else none

/-- `u16(a)`, or `none` where a byte lies outside the text (R52). -/
def State.u16 (s : State) (a : Int) : Option Half :=
  match s.textByte a, s.textByte (a + 1) with
  | some h, some l => some (be16 h l)
  | _, _ => none

end Sys2Proof.Machine
end

