-- ==== Sys2Proof/Machine/Ops.lean ====
section
/-! DEFINITION. The shared operations: raising an error (spec/60_exceptions.md R301 to R303), the Value
Stack (spec/20_memory.md R56 to R62), the heap table (R65 to R67) and the byte channels (R75, R76). -/

namespace Sys2Proof.Machine

/-! ### Named updates of the state -/

/-- `pc <- v`. -/
def State.setPc (s : State) (v : Word) : State := { s with pc := v }

/-- `lv <- v`. -/
def State.setLv (s : State) (v : Word) : State := { s with lv := v }

/-- Set the logical size of the Value Stack. -/
def State.setSp (s : State) (n : Nat) : State := { s with sp := n }

/-- `depth <- d`. -/
def State.setDepth (s : State) (d : BitVec 32) : State := { s with depth := d }

/-- Write stack cell `i`, unchecked. -/
def State.setCell (s : State) (i : Nat) (v : Word) : State := { s with stack := s.stack.write s.cfg i v }

/-- Replace the heap table and its capacity. -/
def State.setHeap (s : State) (h : List (List Word)) (n : Nat) : State := { s with heap := h, hcap := n }

/-- Append a byte to `OUTLOG`. -/
def State.appendOut (s : State) (b : Byte) : State := { s with outlog := s.outlog ++ [b] }

/-- Set `status` and `cause`. -/
def State.setStatus (s : State) (st : Status) (c : Cause) : State := { s with status := st, cause := c }

/-- What the host has yet to answer, and whether it has answered EOF. -/
def State.setHost (s : State) (as : List HostAnswer) (e : Bool) : State := { s with answers := as, eof := e }

/-! ### Errors -/

/-- The state after a fatal or an undefined error: `status` and `cause` as given, every other piece of
state unspecified (R302, R303), which is a free value here (log 1). The parameters and the host's
input stream are not the core's state (spec/10_state.md R20) and stay. -/
def wreck (st : Status) (e : RunError) (s : State) : State :=
  let u := Config.unspecified s.draws
  { pc := u.pc, lv := u.lv, sp := u.sp, depth := u.depth, status := st, cause := .error e, cap := u.cap
    hcap := u.hcap, stack := Memory.ofCells s.cfg u.cells, cp := u.cp, text := u.text, heap := u.heap
    outlog := u.outlog, cfg := s.cfg, answers := s.answers, eof := s.eof, draws := s.draws + 1 }

/-- Raise an error: the one way any instruction, or the fetch, ends in one (R301 to R303). -/
def raise (e : RunError) (s : State) : State :=
  match e with
  | .recoverable _ => (s.setPc s.textEnd).setStatus .done (.error e)
  | .fatal _ => wreck .fatal e s
  | .undef _ => wreck .undef e s

/-- The result of an operation: a value and the state it leaves, or the first error raised, with the
state at that point (R306). -/
inductive Res (α : Type) where
  | ok (a : α) (s : State)
  | raised (e : RunError) (s : State)

/-- Go on with the value and the state; an error ends the sequence (spec/00_scope.md R10). -/
def Res.andThen {α β : Type} (r : Res α) (f : α → State → Res β) : Res β :=
  match r with
  | .ok a s => f a s
  | .raised e s => .raised e s

/-- The end of an instruction: its state, or the error it raised, taken. -/
def finish (r : Res Unit) : Host.Outcome State Fault Refusal :=
  match r with
  | .ok _ s => .next s
  | .raised e s => .next (raise e s)

/-- Straight-line instructions end with `pc <- opc + length` (spec/10_state.md R22). No operation
writes `pc`, so it still is `opc`. -/
def advance (n : Nat) (s : State) : Res Unit := .ok () (s.setPc (s.pc + BitVec.ofNat 32 n))

/-- `pc <- target`. -/
def jump (target : Word) (s : State) : Res Unit := .ok () (s.setPc target)

/-! ### The Value Stack -/

/-- A push would have to grow the stack beyond what the platform provides (R56). -/
def State.full (s : State) : Bool := s.sp == s.cap && decide (s.cfg.stackCapMax < 2 * s.cap)

/-- Growth when, and only when, the stack is at its capacity: the capacity doubles, existing cells keep
their contents and the new ones are unwritten (R56, R60). -/
def growIfFull (s : State) : State :=
  { s with
    cap := if s.sp = s.cap then 2 * s.cap else s.cap
    stack := if s.sp = s.cap then s.stack.below s.cap else s.stack }

/-- `push(v)` (R60). -/
def push (v : Word) (s : State) : Res Unit :=
  if s.full then .raised (.fatal .stackAlloc) s
  else .ok () (((growIfFull s).setCell s.sp v).setSp (s.sp + 1))

/-- `repeat n times: push(v)` (spec/46_frames.md R251). -/
def pushN (n : Nat) (v : Word) (s : State) : Res Unit :=
  match n with
  | 0 => .ok () s
  | n + 1 => (push v s).andThen fun _ s => pushN n v s

/-- The Word in cell `i` below the logical top. R61 derives that the cell is written; where it is not
(log 10) its read is that of R58. -/
def readTop (i : Nat) (s : State) : Res Word :=
  match s.stack.read s.cfg i with
  | some v => .ok v s
  | none => .raised (.undef .unwrittenRead) s

/-- `pop()` (R61): the cell keeps its content. -/
def pop (s : State) : Res Word :=
  match s.sp with
  | 0 => .raised (.fatal .stackUnderflow) s
  | n + 1 => (readTop n s).andThen fun v s => .ok v (s.setSp n)

/-- `top()` (R62). -/
def top (s : State) : Res Word :=
  match s.sp with
  | 0 => .raised (.fatal .stackUnderflow) s
  | n + 1 => readTop n s

/-- The index check `0 <= i < cap` (R57). -/
def State.inStack (s : State) (i : Int) : Bool := decide (0 ≤ i) && decide (i < s.cap)

/-- The Word in stack cell `i`, or `none` where there is no such cell or it is unwritten. -/
def State.cell (s : State) (i : Int) : Option Word := if s.inStack i then s.stack.read s.cfg i.toNat else none

/-- `StackRead(i)` (R58). -/
def stackRead (i : Int) (s : State) : Res Word :=
  if s.inStack i then readTop i.toNat s else .raised (.fatal .stackIndex) s

/-- `StackWrite(i, v)` (R59): `sp` and `cap` stay. -/
def stackWrite (i : Int) (v : Word) (s : State) : Res Unit :=
  if s.inStack i then .ok () (s.setCell i.toNat v) else .raised (.fatal .stackIndex) s

/-- `n` indexed reads from index `i` up, lowest first. -/
def stackReads (i : Int) (n : Nat) (s : State) : Res (List Word) :=
  match n with
  | 0 => .ok [] s
  | n + 1 => (stackRead i s).andThen fun v s => (stackReads (i + 1) n s).andThen fun vs s => .ok (v :: vs) s

/-- Indexed writes from index `i` up, lowest first. -/
def stackWrites (i : Int) (vs : List Word) (s : State) : Res Unit :=
  match vs with
  | [] => .ok () s
  | v :: vs => (stackWrite i v s).andThen fun _ s => stackWrites (i + 1) vs s

/-! ### The heap table -/

/-- The array Words in use: the sum of `H[r].len` over all `r` (R65). -/
def State.heapWords (s : State) : Nat := (s.heap.map List.length).sum

/-- The table's capacity after one more entry: doubled when the table is full (R65). -/
def State.nextHcap (s : State) : Nat := if s.heap.length = s.hcap then 2 * s.hcap else s.hcap

/-- One more entry would need a capacity beyond what the platform provides (R65). -/
def State.tableFull (s : State) : Bool :=
  s.heap.length == s.hcap && decide (s.cfg.heapTableMax < 2 * s.hcap)

/-- `allocate(count)`, the count a signed Word; the answer is the new reference (R65). -/
def allocate (count : Word) (s : State) : Res Word :=
  if count.toInt ≤ 0 then .raised (.recoverable .badArraySize) s
  else if s.tableFull then .raised (.fatal .heapAlloc) s
  else if s.cfg.heapWordsMax < s.heapWords + count.toNat then .raised (.fatal .heapAlloc) s
  else .ok (BitVec.ofNat 32 s.heap.length) (s.setHeap (s.heap ++ [List.replicate count.toNat 0]) s.nextHcap)

/-- The array a reference names (R64, R68). -/
def State.array (s : State) (ref : Word) : Option (List Word) :=
  if 0 ≤ ref.toInt then s.heap[ref.toNat]? else none

/-- The index check of an array of length `len` (R66, R67). -/
def inArray (index : Word) (len : Nat) : Bool := decide (0 ≤ index.toInt) && decide (index.toInt < len)

/-- `ArrayLoad(ref, index)`: the reference is checked before the index (R66, R68). -/
def arrayLoad (ref index : Word) (s : State) : Res Word :=
  match s.array ref with
  | none => .raised (.undef .badRef) s
  | some a =>
    if inArray index a.length then .ok (a.getD index.toNat 0) s
    else .raised (.recoverable .arrayIndex) s

/-- `ArrayStore(ref, index, value)` (R67). -/
def arrayStore (ref index value : Word) (s : State) : Res Unit :=
  match s.array ref with
  | none => .raised (.undef .badRef) s
  | some a =>
    if inArray index a.length then
      .ok () (s.setHeap (s.heap.set ref.toNat (a.set index.toNat value)) s.hcap)
    else .raised (.recoverable .arrayIndex) s

/-! ### The byte channels -/

/-- What one IN transaction brings (R75). -/
inductive InReply where
  /-- The host withholds its answer: the core holds. -/
  | hold
  /-- The value returned, EOF as 0, and the state after the transaction. -/
  | value (v : Word) (s : State)

/-- `InByte()` (R75): the host's next answer. Once EOF has been answered, every later one is EOF at
once (spec/70_reset_and_hazards.md R365). -/
def inByte (s : State) : InReply :=
  if s.eof then .value 0 s
  else
    match s.answers with
    | [] => .hold
    | .byte b :: as => .value (b.setWidth 32) (s.setHost as s.eof)
    | .eof :: as => .value 0 (s.setHost as true)

/-- `OutByte(b)` (R76): never holds. -/
def outByte (b : Byte) (s : State) : Res Unit := .ok () (s.appendOut b)

end Sys2Proof.Machine
end

