-- ==== Sys2Proof/Machine/Arith.lean ====
section
/-! DEFINITION. Stack and integer arithmetic (spec/41_stack_arith.md R140 to R149). -/

namespace Sys2Proof.Machine

/-- BIPUSH (R140). -/
def execBipush (b : Byte) (s : State) : Host.Outcome State Fault Refusal :=
  finish ((push (imm8 b) s).andThen fun _ s => advance 2 s)

/-- DUP (R141). -/
def execDup (s : State) : Host.Outcome State Fault Refusal :=
  finish ((top s).andThen fun v s => (push v s).andThen fun _ s => advance 1 s)

/-- POP (R142). -/
def execPop (s : State) : Host.Outcome State Fault Refusal :=
  finish ((pop s).andThen fun _ s => advance 1 s)

/-- SWAP (R143). -/
def execSwap (s : State) : Host.Outcome State Fault Refusal :=
  finish ((pop s).andThen fun b s => (pop s).andThen fun a s =>
    (push b s).andThen fun _ s => (push a s).andThen fun _ s => advance 1 s)

/-- The common part of the binary operations (R144): `b` is the top, `a` the Word below it. -/
def binary (op : Word → Word → Word) (s : State) : Host.Outcome State Fault Refusal :=
  finish ((pop s).andThen fun b s => (pop s).andThen fun a s =>
    (push (op a b) s).andThen fun _ s => advance 1 s)

/-- IADD (R145): modulo 2^32, no trap (R149). -/
def execIadd (s : State) : Host.Outcome State Fault Refusal := binary (fun a b => a + b) s

/-- ISUB (R146): the lower Word minus the top. -/
def execIsub (s : State) : Host.Outcome State Fault Refusal := binary (fun a b => a - b) s

/-- IAND (R147). -/
def execIand (s : State) : Host.Outcome State Fault Refusal := binary (fun a b => a &&& b) s

/-- IOR (R148). -/
def execIor (s : State) : Host.Outcome State Fault Refusal := binary (fun a b => a ||| b) s

end Sys2Proof.Machine
end

