-- ==== Sys2Proof/Machine/Arrays.lean ====
section
/-! DEFINITION. Arrays (spec/45_arrays.md R230 to R232). -/

namespace Sys2Proof.Machine

/-- NEWARRAY (R230). -/
def execNewarray (s : State) : Host.Outcome State Fault Refusal :=
  finish ((pop s).andThen fun count s => (allocate count s).andThen fun r s =>
    (push r s).andThen fun _ s => advance 1 s)

/-- IALOAD (R231): the reference is on top, the index below it. -/
def execIaload (s : State) : Host.Outcome State Fault Refusal :=
  finish ((pop s).andThen fun ref s => (pop s).andThen fun index s =>
    (arrayLoad ref index s).andThen fun v s => (push v s).andThen fun _ s => advance 1 s)

/-- IASTORE (R232): all three Words are popped before any check. -/
def execIastore (s : State) : Host.Outcome State Fault Refusal :=
  finish ((pop s).andThen fun ref s => (pop s).andThen fun index s => (pop s).andThen fun value s =>
    (arrayStore ref index value s).andThen fun _ s => advance 1 s)

end Sys2Proof.Machine
end

