-- ==== Sys2Proof/Machine/Branch.lean ====
section
/-! DEFINITION. Branches (spec/43_branches.md R180 to R184). -/

namespace Sys2Proof.Machine

/-- Taken: to the target. Not taken: to the next instruction, 3 bytes on (R180). -/
def branch (taken : Bool) (off : Half) (s : State) : Res Unit :=
  if taken then jump (branchTarget s.pc off) s else advance 3 s

/-- GOTO (R181). -/
def execGoto (off : Half) (s : State) : Host.Outcome State Fault Refusal := finish (branch true off s)

/-- IFEQ (R182). -/
def execIfeq (off : Half) (s : State) : Host.Outcome State Fault Refusal :=
  finish ((pop s).andThen fun v s => branch (isZero v) off s)

/-- IFLT (R183). -/
def execIflt (off : Half) (s : State) : Host.Outcome State Fault Refusal :=
  finish ((pop s).andThen fun v s => branch (isNegative v) off s)

/-- IF_ICMPEQ (R184). -/
def execIfIcmpeq (off : Half) (s : State) : Host.Outcome State Fault Refusal :=
  finish ((pop s).andThen fun b s => (pop s).andThen fun a s => branch (isEqual a b) off s)

end Sys2Proof.Machine
end

