-- ==== Sys2Proof/Machine/Control.lean ====
section
/-! DEFINITION. Machine control: NOP, ERR, HALT (spec/40_machine_control.md R120 to R122). -/

namespace Sys2Proof.Machine

/-- NOP (R120). -/
def execNop (s : State) : Host.Outcome State Fault Refusal := finish (advance 1 s)

/-- ERR (R121). -/
def execErr (s : State) : Host.Outcome State Fault Refusal :=
  finish (.raised (.recoverable .errInstr) s)

/-- HALT (R122): `status` becomes DONE at the end of the step (spec/30_encoding.md R91). -/
def execHalt (s : State) : Host.Outcome State Fault Refusal := finish (jump s.textEnd s)

end Sys2Proof.Machine
end

