-- ==== Sys2Proof/Machine/Locals.lean ====
section
/-! DEFINITION. Constants and local variables (spec/44_constants_locals.md R200 to R207). -/

namespace Sys2Proof.Machine

/-- `CP[i]`, or the error of an index past the pool (spec/20_memory.md R53). -/
def constant (i : Nat) (s : State) : Res Word :=
  match s.cp[i]? with
  | some w => .ok w s
  | none => .raised (.undef .cpRange) s

/-- `v <- S[lv + i]; push(v)` (R201, R204). -/
def loadLocal (i : Nat) (s : State) : Res Unit :=
  (stackRead (s.localIndex i) s).andThen fun v s => push v s

/-- `v <- pop(); S[lv + i] <- v`: the pop comes first (R202, R205). -/
def storeLocal (i : Nat) (s : State) : Res Unit :=
  (pop s).andThen fun v s => stackWrite (s.localIndex i) v s

/-- `S[lv + i] <- S[lv + i] +32 d` (R203, R206). -/
def incLocal (i : Nat) (d : Word) (s : State) : Res Unit :=
  (stackRead (s.localIndex i) s).andThen fun v s => stackWrite (s.localIndex i) (v + d) s

/-- LDC_W (R200). -/
def execLdcW (i : Half) (s : State) : Host.Outcome State Fault Refusal :=
  finish ((constant (idx16 i) s).andThen fun w s => (push w s).andThen fun _ s => advance 3 s)

/-- ILOAD (R201). -/
def execIload (i : Byte) (s : State) : Host.Outcome State Fault Refusal :=
  finish ((loadLocal (idx8 i) s).andThen fun _ s => advance 2 s)

/-- ISTORE (R202). -/
def execIstore (i : Byte) (s : State) : Host.Outcome State Fault Refusal :=
  finish ((storeLocal (idx8 i) s).andThen fun _ s => advance 2 s)

/-- IINC (R203). -/
def execIinc (i d : Byte) (s : State) : Host.Outcome State Fault Refusal :=
  finish ((incLocal (idx8 i) (delta8 d) s).andThen fun _ s => advance 3 s)

/-- WIDE ILOAD (R204). -/
def execWideIload (i : Half) (s : State) : Host.Outcome State Fault Refusal :=
  finish ((loadLocal (idx16 i) s).andThen fun _ s => advance 4 s)

/-- WIDE ISTORE (R205). -/
def execWideIstore (i : Half) (s : State) : Host.Outcome State Fault Refusal :=
  finish ((storeLocal (idx16 i) s).andThen fun _ s => advance 4 s)

/-- WIDE IINC (R206). -/
def execWideIinc (i : Half) (d : Byte) (s : State) : Host.Outcome State Fault Refusal :=
  finish ((incLocal (idx16 i) (delta8 d) s).andThen fun _ s => advance 5 s)

/-- WIDE followed by any other byte (R207). -/
def execWide (s : State) : Host.Outcome State Fault Refusal := finish (.raised (.undef .badWide) s)

end Sys2Proof.Machine
end

