-- ==== Sys2Proof/Machine/Frames.lean ====
section
/-! DEFINITION. The call-frame protocol (spec/46_frames.md R250 to R264). -/

namespace Sys2Proof.Machine

/-- A callee: its entry address and its header's argument and local counts (R250). -/
structure Method where
  entry : Word
  args : Nat
  locals : Nat
deriving DecidableEq, Repr

/-- The header at entry address `e` (R250): four bytes inside the text, bit 15 of neither field set. -/
def header (e : Word) (s : State) : Res Method :=
  match s.u16 e.toInt, s.u16 (e.toInt + 2) with
  | some a, some l =>
    if 0x8000 ≤ a.toNat ∨ 0x8000 ≤ l.toNat then .raised (.undef .headerRange) s
    else .ok ⟨e, a.toNat, l.toNat⟩ s
  | _, _ => .raised (.undef .truncated) s

/-- `resolve(opc)` (R250, R261). -/
def resolve (i : Half) (s : State) : Res Method :=
  (constant (idx16 i) s).andThen fun e s => header e s

/-- The callee's first instruction, after its header (R98). -/
def Method.first (m : Method) : Word := m.entry + 4

/-- A stack index as a Word, as links and saved frame bases are stored (log 11). -/
def indexWord (n : Nat) : Word := BitVec.ofNat 32 n

/-- Push the fresh locals, the saved pc and the saved lv, and write the link into slot 0 of the frame
at `base` (R251, R253, R262). -/
def buildFrame (base : Nat) (m : Method) (savedPc savedLv : Word) (s : State) : Res Unit :=
  (pushN m.locals s.cfg.localInit s).andThen fun _ s =>
  (push savedPc s).andThen fun _ s =>
  (push savedLv s).andThen fun _ s =>
  stackWrite base (indexWord (base + m.args + m.locals)) s

/-- INVOKEVIRTUAL (R251). -/
def execInvokevirtual (i : Half) (s : State) : Host.Outcome State Fault Refusal :=
  finish ((resolve i s).andThen fun m s =>
    if s.sp < m.args then .raised (.fatal .stackIndex) s
    else
      let nlv := s.sp - m.args
      (buildFrame nlv m (s.pc + 3) s.lv s).andThen fun _ s =>
      jump m.first ((s.setLv (indexWord nlv)).setDepth (s.depth + 1)))

/-- The saved pc and the saved lv of the current frame, read through its link (R256, R262). -/
def savedFrame (s : State) : Res (Int × Word × Word) :=
  (stackRead s.lv.toInt s).andThen fun link s =>
  (stackRead link.toInt s).andThen fun spc s =>
  (stackRead (link.toInt + 1) s).andThen fun slv s => .ok (s.lv.toInt, spc, slv) s

/-- IRETURN (R256). -/
def execIreturn (s : State) : Host.Outcome State Fault Refusal :=
  finish (
    if s.depth = 0 then .raised (.undef .frameUnderflow) s
    else
      (pop s).andThen fun r s =>
      (savedFrame s).andThen fun (base, npc, nlv) s =>
      if (s.sp : Int) < base then .raised (.undef .unwindBelowBase) s
      else
        (push r (s.setSp base.toNat)).andThen fun _ s =>
        jump npc ((s.setLv nlv).setDepth (s.depth - 1)))

/-- TAILCALL (R262): the top `A` Words are read in full, then written from the frame base on. -/
def execTailcall (i : Half) (s : State) : Host.Outcome State Fault Refusal :=
  finish ((resolve i s).andThen fun m s =>
    if s.depth = 0 then .raised (.undef .frameUnderflow) s
    else
      (savedFrame s).andThen fun (base, spc, slv) s =>
      if s.sp < m.args then .raised (.fatal .stackIndex) s
      else
        (stackReads (s.sp - m.args) m.args s).andThen fun args s =>
        (stackWrites base args s).andThen fun _ s =>
        (buildFrame base.toNat m spc slv (s.setSp (base.toNat + m.args))).andThen fun _ s =>
        jump m.first s)

end Sys2Proof.Machine
end

