-- ==== Sys2Proof/Machine/Io.lean ====
section
/-! DEFINITION. Byte input and output (spec/42_io.md R170, R171). -/

namespace Sys2Proof.Machine

/-- IN (R170). While the host withholds its answer the step does not complete and the state stays as
it is (spec/20_memory.md R75, V45). DESIGN CHOICE (log 24): a held IN stands at the instruction boundary
before it, where the host may LOAD and INSPECT; the spec does not say whether it may. -/
def execIn (s : State) : Host.Outcome State Fault Refusal :=
  match inByte s with
  | .hold => .next s
  | .value v s => finish ((push v s).andThen fun _ s => advance 1 s)

/-- OUT (R171): bits 7:0 of the popped Word. -/
def execOut (s : State) : Host.Outcome State Fault Refusal :=
  finish ((pop s).andThen fun v s => (outByte (v.extractLsb' 0 8) s).andThen fun _ s => advance 1 s)

end Sys2Proof.Machine
end

