-- ==== Sys2Proof/Machine/Dispatch.lean ====
section
/-! DEFINITION. The meaning of each instruction, one arm per constructor. -/

namespace Sys2Proof.Machine

def exec (i : Instr) (s : State) : Host.Outcome State Fault Refusal :=
  match i with
  | .nop => Sys2Proof.Machine.execNop s
  | .err => Sys2Proof.Machine.execErr s
  | .halt => Sys2Proof.Machine.execHalt s
  | .bipush b => Sys2Proof.Machine.execBipush b s
  | .dup => Sys2Proof.Machine.execDup s
  | .pop => Sys2Proof.Machine.execPop s
  | .swap => Sys2Proof.Machine.execSwap s
  | .iadd => Sys2Proof.Machine.execIadd s
  | .isub => Sys2Proof.Machine.execIsub s
  | .iand => Sys2Proof.Machine.execIand s
  | .ior => Sys2Proof.Machine.execIor s
  | .inp => Sys2Proof.Machine.execIn s
  | .out => Sys2Proof.Machine.execOut s
  | .goto off => Sys2Proof.Machine.execGoto off s
  | .ifeq off => Sys2Proof.Machine.execIfeq off s
  | .iflt off => Sys2Proof.Machine.execIflt off s
  | .ifIcmpeq off => Sys2Proof.Machine.execIfIcmpeq off s
  | .ldcW k => Sys2Proof.Machine.execLdcW k s
  | .iload k => Sys2Proof.Machine.execIload k s
  | .istore k => Sys2Proof.Machine.execIstore k s
  | .iinc k d => Sys2Proof.Machine.execIinc k d s
  | .wide _ => Sys2Proof.Machine.execWide s
  | .wideIload k => Sys2Proof.Machine.execWideIload k s
  | .wideIstore k => Sys2Proof.Machine.execWideIstore k s
  | .wideIinc k d => Sys2Proof.Machine.execWideIinc k d s
  | .newarray => Sys2Proof.Machine.execNewarray s
  | .iaload => Sys2Proof.Machine.execIaload s
  | .iastore => Sys2Proof.Machine.execIastore s
  | .invokevirtual k => Sys2Proof.Machine.execInvokevirtual k s
  | .ireturn => Sys2Proof.Machine.execIreturn s
  | .tailcall k => Sys2Proof.Machine.execTailcall k s

end Sys2Proof.Machine
end

