-- ==== Sys2Proof/Machine/Fetch.lean ====
section
/-! DEFINITION. Fetch and decode at `pc`, and what a step does after the handler
(spec/30_encoding.md R90, R91). -/

namespace Sys2Proof.Machine

/-- The core is finished: `pc >= TEXT_LEN`, a signed comparison (spec/10_state.md R23). -/
def State.pastEnd (s : State) : Bool := decide ((s.text.length : Int) ≤ s.pc.toInt)

/-- After the handler: a running core whose `pc` has reached the end of the text is DONE, its cause as
the handler left it (R91). -/
def settle (s : State) : State :=
  if s.status = .run ∧ s.pastEnd = true then s.setStatus .done s.cause else s

/-- What a STEP finds. -/
inductive Fetched where
  /-- No handler runs: the step ends in this state. -/
  | ends (s : State)
  /-- The handler of this instruction runs. -/
  | runs (i : Instr)

/-- The fetch of R91: nothing while not running; `PC_RANGE` below 0; then the opcode byte, which alone
decides whether it is unknown (spec/40_machine_control.md R123); then the operand bytes (R96). A
running core past its text (log 14) ends cleanly. -/
def fetch (s : State) : Fetched :=
  match s.status with
  | .run =>
    if s.pc.toInt < 0 then .ends (raise (.undef .pcRange) s)
    else
      match decode s.cfg.opcodeMap (s.text.drop s.pc.toNat) with
      | .instr i _ => .runs i
      | .unknownOpcode _ => .ends (raise (.recoverable .unknownOpcode) s)
      | .truncated => .ends (raise (.undef .truncated) s)
      | .endOfText => .ends (settle s)
  | .done => .ends s
  | .fatal => .ends s
  | .undef => .ends s

/-- The end of a step whose handler ran. -/
def afterHandler (o : Host.Outcome State Fault Refusal) : Host.Outcome State Fault Refusal :=
  match o with
  | .next s => .next (settle s)
  | .fault r => .fault r
  | .refused r => .refused r

/-- A text with these bytes at address `a`, lengthened by zeros where it is shorter. -/
def placeBytes (bytes text : List Byte) (a : Nat) : List Byte :=
  (text ++ List.replicate (a - text.length) 0).take a ++ bytes ++ text.drop (a + bytes.length)

/-- The state with these bytes loaded where the next step fetches, and running: at `pc`, or at 0 where
`pc` lies below the text (log 9). -/
def placeFetch (bytes : List Byte) (s : State) : State :=
  let pc := if s.pc.toInt < 0 then 0 else s.pc
  { s with pc := pc, text := placeBytes bytes s.text pc.toNat, status := .run, cause := .none }

end Sys2Proof.Machine
end

