-- ==== Sys2Proof/Machine/Step.lean ====
section
/-! DEFINITION. One STEP (spec/30_encoding.md R90, R91). -/

namespace Sys2Proof.Machine

/-- One STEP: fetch and decode at `pc`, run the handler, settle (Machine/Fetch.lean). -/
def step (s : State) : Host.Outcome State Fault Refusal :=
  match fetch s with
  | .ends t => .next t
  | .runs i => afterHandler (exec i s)

/-- The state with an instruction of the opcode table, its bits numbered as the table numbers them,
loaded where the next step fetches (Decode.lean's `tableBytes`; log 9). -/
def State.withFetchWord (s : State) (nbits w : Nat) : State := placeFetch (tableBytes nbits w) s

end Sys2Proof.Machine
end

