-- ==== Sys2Proof/Machine/Inspect.lean ====
section
/-! DEFINITION. The INSPECT queries (spec/20_memory.md R80). -/

namespace Sys2Proof.Machine

/-- A query. -/
inductive Query where
  | getPc
  | tos
  | finished
  | localVar (i : Int)
  | constant (i : Int)
  | text
  | textSize
  | callDepth
  | isFreed (ref : Word)
  | status
  | cause
deriving DecidableEq, Repr

/-- An answer; `absent` is the spec's `NONE`. -/
inductive Answer where
  | word (w : Word)
  | absent
  | bool (b : Bool)
  | bytes (bs : List Byte)
  | size (n : Nat)
  | depth (d : BitVec 32)
  | status (st : BitVec 2)
  | cause (c : BitVec 8)
deriving DecidableEq, Repr

/-- The queries a faulted instance still answers (R80, R302, R303). -/
def Query.always : Query → Bool
  | .status => true
  | .cause => true
  | .getPc => false
  | .tos => false
  | .finished => false
  | .localVar _ => false
  | .constant _ => false
  | .text => false
  | .textSize => false
  | .callDepth => false
  | .isFreed _ => false

/-- A fatal or an undefined error has ended the run (R302, R303). -/
def Status.faulted : Status → Bool
  | .run => false
  | .done => false
  | .fatal => true
  | .undef => true

/-- A cell's Word, or `NONE`. -/
def cellAnswer : Option Word → Answer
  | some w => .word w
  | none => .absent

/-- The answer to a query on a valid instance. -/
def answerOf (q : Query) (s : State) : Answer :=
  match q with
  | .getPc => .word s.pc
  | .tos => cellAnswer (if 0 < s.sp then s.stack.read s.cfg (s.sp - 1) else none)
  | .finished => .bool (s.status != .run)
  | .localVar i => cellAnswer (s.cell (s.lv.toInt + i))
  | .constant i => .word (if 0 ≤ i then s.cp.getD i.toNat 0 else 0)
  | .text => .bytes s.text
  | .textSize => .size s.text.length
  | .callDepth => .depth s.depth
  | .isFreed _ => .bool false
  | .status => .status s.status.code
  | .cause => .cause s.cause.code

/-- INSPECT: the answer, or `none` where the query is refused. -/
def inspect (q : Query) (s : State) : Option Answer :=
  if s.status.faulted && !q.always then none else some (answerOf q s)

end Sys2Proof.Machine
end

