-- ==== Sys2Proof/Machine/Load.lean ====
section
/-! DEFINITION. LOAD: the image format, its checks and the state after it (spec/20_memory.md R70 to R74,
spec/70_reset_and_hazards.md R340, spec/10_state.md R38). -/

namespace Sys2Proof.Machine

/-- Why a LOAD fails (R71, spec/60_exceptions.md R305). -/
inductive LoadError where
  | truncated
  | badMagic
  | badCpSize
  | tooLarge
  | alloc
deriving DecidableEq, Repr

/-- The answer to a LOAD: a machine, or the reason there is none (R72); with the bytes of the stream
that were not consumed. -/
inductive LoadResult where
  | ok (s : State) (rest : List Byte)
  | error (r : LoadError) (rest : List Byte)
deriving DecidableEq, Repr

/-- A 4-byte field, big-endian (R70). -/
def be32 (a b c d : Byte) : Word := a ++ b ++ c ++ d

/-- Read one 4-byte field off the stream. -/
def take32 : List Byte → Option (Word × List Byte)
  | a :: b :: c :: d :: rest => some (be32 a b c d, rest)
  | _ => none

/-- Read `n` Words off the stream. -/
def takeWords : Nat → List Byte → Option (List Word × List Byte)
  | 0, bs => some ([], bs)
  | n + 1, bs =>
    match take32 bs with
    | none => none
    | some (w, bs) =>
      match takeWords n bs with
      | none => none
      | some (ws, bs) => some (w :: ws, bs)

/-- Read `n` bytes off the stream. -/
def takeBytes (n : Nat) (bs : List Byte) : Option (List Byte × List Byte) :=
  if bs.length < n then none else some (bs.take n, bs.drop n)

/-- `RESET_SP` as a number: 0, or the sentinels are the bottom entries (spec/00_scope.md R7, spec/92 D6). -/
def resetSize (p : Params) : Nat :=
  match p.resetSp with
  | .zero => 0
  | .sentinels => p.sentinelCount

/-- The state after a successful LOAD (spec/10_state.md R38). -/
def loaded (p : Params) (cp : List Word) (text : List Byte) : State where
  pc := 0
  lv := 0
  sp := resetSize p
  depth := 0
  status := if text = [] then .done else .run
  cause := .none
  cap := p.stackCapInit
  hcap := p.heapTableCapInit
  stack := []
  cp := cp
  text := text
  heap := []
  outlog := []
  cfg := p
  answers := []
  eof := false
  draws := 0

/-- The part of the image after the constant pool: text origin (ignored, R74), size and data. -/
def loadText (p : Params) (storage : Bool) (cp : List Word) (bs : List Byte) : LoadResult :=
  match take32 bs with
  | none => .error .truncated []
  | some (_, bs) =>
    match take32 bs with
    | none => .error .truncated []
    | some (ts, bs) =>
      if p.textMax < ts.toNat then .error .tooLarge bs
      else
        match takeBytes ts.toNat bs with
        | none => .error .truncated []
        | some (text, rest) => if storage then .ok (loaded p cp text) rest else .error .alloc rest

/-- The part of the image after the magic number: constant-pool origin (ignored), size and data. -/
def loadPool (p : Params) (storage : Bool) (bs : List Byte) : LoadResult :=
  match take32 bs with
  | none => .error .truncated []
  | some (_, bs) =>
    match take32 bs with
    | none => .error .truncated []
    | some (cps, bs) =>
      if cps.toNat % 4 ≠ 0 then .error .badCpSize bs
      else if p.cpMax < cps.toNat / 4 then .error .tooLarge bs
      else
        match takeWords (cps.toNat / 4) bs with
        | none => .error .truncated []
        | some (cp, bs) => loadText p storage cp bs

/-- LOAD of an image (R70, R71): the checks in the order in which the stream brings their fields, the
size checks "as soon as the size field is read". `storage` is the platform's own answer to check (6),
whether it can provide storage for the image (log 15). -/
def load (p : Params) (storage : Bool) (image : List Byte) : LoadResult :=
  match take32 image with
  | none => .error .truncated []
  | some (magic, bs) => if magic = p.magic then loadPool p storage bs else .error .badMagic bs

end Sys2Proof.Machine
end

