-- ==== Sys2Proof/Machine/Block.lean ====
section
/-! DEFINITION. The block as its host sees it, with or without a machine (spec/00_scope.md R6,
spec/20_memory.md R72, spec/70_reset_and_hazards.md R343, R345). -/

namespace Sys2Proof.Machine

/-- The block: its parameters, and the machine a successful LOAD has made. -/
structure Block where
  cfg : Params
  machine : Option State
  /-- The model's own: where there is no machine, how many free values the machines before have drawn
  (log 22). -/
  draws : Nat
deriving DecidableEq, Repr

/-- What the host can do to the block (R345). -/
inductive HostAction where
  /-- LOAD of an image; `storage`: the platform can provide storage for it (R71). -/
  | load (image : List Byte) (storage : Bool)
  | step
  /-- The answer to an IN, given before or after the core asks for it. -/
  | answer (a : HostAnswer)
  | inspect (q : Query)
deriving DecidableEq, Repr

/-- What the core sends the host in a step (R345). -/
inductive Sent where
  /-- IN's byte request (spec/20_memory.md R75). -/
  | request
  /-- OUT's byte (spec/20_memory.md R76). -/
  | byte (b : Byte)
deriving DecidableEq, Repr

/-- What the host gets back. -/
inductive Reply where
  /-- A LOAD has succeeded, or an answer is taken. -/
  | ok
  | loadError (r : LoadError)
  /-- The block is in the next state; with what the core has sent on the way. -/
  | stepped (sent : Option Sent)
  /-- IN has sent its byte request and holds: the step does not complete until the host answers. -/
  | holds
  /-- The answer to an INSPECT. -/
  | answered (a : Answer)
  | refused
deriving DecidableEq, Repr

/-- How many free values the block's machines have drawn so far. -/
def Block.drawn (b : Block) : Nat := (b.machine.map State.draws).getD b.draws

/-- LOAD: a failed one leaves no machine, a successful one replaces any machine whatever its status
(R343, spec/20_memory.md R72). DESIGN CHOICE (log 22): the counter of free values outlives the machine,
also past a failed LOAD, so that an error of a later machine draws afresh. -/
def Block.load (b : Block) (image : List Byte) (storage : Bool) : Block × Reply :=
  match Machine.load b.cfg storage image with
  | .ok s _ => ({ b with machine := some { s with draws := b.drawn } }, .ok)
  | .error r _ => ({ b with machine := none, draws := b.drawn }, .loadError r)

/-- The host has yet to answer the next IN (spec/20_memory.md R75). -/
def State.withheld (s : State) : Bool :=
  match inByte s with
  | .hold => true
  | .value _ _ => false

/-- The byte OUT emits; none where there is no Word to pop (spec/42_io.md R171). -/
def outSends (s : State) : Option Sent :=
  match pop s with
  | .ok v _ => some (.byte (v.extractLsb' 0 8))
  | .raised _ _ => none

/-- What an instruction sends the host: IN a byte request, OUT its byte, any other nothing (R345). -/
def sends (i : Instr) (s : State) : Option Sent :=
  if i = .inp then some .request else if i = .out then outSends s else none

/-- The reply to a STEP from this state: what it sends, and whether IN holds (R345). -/
def stepReply (s : State) : Reply :=
  match fetch s with
  | .ends _ => .stepped none
  | .runs i => if i = .inp ∧ s.withheld = true then .holds else .stepped (sends i s)

/-- STEP (R91). A STEP whose IN holds leaves the machine as it is and replies that it holds; the host sees
the request, answers, and steps again. DESIGN CHOICE (log 24): while it holds the block is between steps,
so that LOAD, INSPECT and another STEP are taken; the spec does not say whether a held IN is mid-step. -/
def Block.step (b : Block) : Block × Reply :=
  match b.machine with
  | none => (b, .refused)
  | some s =>
    match Machine.step s with
    | .next t => ({ b with machine := some t }, stepReply s)
    | .fault _ => (b, .refused)
    | .refused _ => (b, .refused)

/-- The host's answer to an IN joins the answers not yet consumed (spec/20_memory.md R75). -/
def Block.answer (b : Block) (a : HostAnswer) : Block × Reply :=
  match b.machine with
  | none => (b, .refused)
  | some s => ({ b with machine := some (s.setHost (s.answers ++ [a]) s.eof) }, .ok)

/-- INSPECT: reads, and changes nothing (spec/20_memory.md R80). -/
def Block.inspect (b : Block) (q : Query) : Block × Reply :=
  match b.machine with
  | none => (b, .refused)
  | some s =>
    match Machine.inspect q s with
    | some a => (b, .answered a)
    | none => (b, .refused)

/-- One transaction of the host with the block. -/
def Block.transact (b : Block) : HostAction → Block × Reply
  | .load image storage => b.load image storage
  | .step => b.step
  | .answer a => b.answer a
  | .inspect q => b.inspect q

end Sys2Proof.Machine
end

