-- ==== Sys2Proof/Safety.lean ====
section
/-! DEFINITION. Runs, how they end (spec/70_reset_and_hazards.md R362), the invariant of the machine
(spec/10_state.md R36, R28, R29), and the terms the statements use. -/

namespace Sys2Proof.Machine

/-! ### Runs -/

/-- Any number of steps lead from one state to the other. -/
inductive Run : State → State → Prop where
  | refl (s : State) : Run s s
  | tail {s t u : State} : Run s t → step t = .next u → Run s u

/-- A fatal or an undefined error has ended the run: a fault, "final for no claim" (R302, R303). A
claim about a run that may fault has to rule this out. -/
def State.faulted (s : State) : Prop := s.status.faulted = true

/-- The run has ended (R362). -/
def State.ended (s : State) : Prop := s.status ≠ .run

/-- The core has reported an undefined error: `status` and `cause`, and nothing else is known (R303). -/
def State.reportsUndef (s : State) (c : UndefCause) : Prop :=
  s.status = .undef ∧ s.cause = .error (.undef c)

/-- The core has reported a fatal error (R302). -/
def State.reportsFatal (s : State) (c : FatalCause) : Prop :=
  s.status = .fatal ∧ s.cause = .error (.fatal c)

/-! ### The invariant -/

/-- What holds of a machine instance that is valid (R36), with the bounds of the parameters. -/
structure Sound (s : State) : Prop where
  sp_le_cap : s.sp ≤ s.cap
  cap_form : ∃ k, s.cap = s.cfg.stackCapInit * 2 ^ k
  cap_le_max : s.cap ≤ s.cfg.stackCapMax
  cells_exist : ∀ c ∈ s.stack, c.1 < s.cap
  heap_le_hcap : s.heap.length ≤ s.hcap
  hcap_form : ∃ k, s.hcap = s.cfg.heapTableCapInit * 2 ^ k
  hcap_le_max : s.hcap ≤ s.cfg.heapTableMax
  arrays_not_empty : ∀ a ∈ s.heap, 1 ≤ a.length
  words_le_max : s.heapWords ≤ s.cfg.heapWordsMax
  text_le_max : s.text.length ≤ s.cfg.textMax
  cp_le_max : s.cp.length ≤ s.cfg.cpMax
  sizes_fit : s.cfg.SizesFit

/-- `status` says where `pc` is, and `cause` what ended the run (R28, R29, R362). -/
def StatusAgrees (s : State) : Prop :=
  match s.status with
  | .run => s.pc.toInt < s.text.length ∧ s.cause = .none
  | .done => (s.text.length : Int) ≤ s.pc.toInt ∧ (s.cause = .none ∨ ∃ c, s.cause = .error (.recoverable c))
  | .fatal => ∃ c, s.cause = .error (.fatal c)
  | .undef => ∃ c, s.cause = .error (.undef c)

/-- The invariant of the machine. After a fatal or an undefined error only the parameters, the canonical
form of the stack RAM, `status` and `cause` are known (R302, R303). -/
structure Inv (s : State) : Prop where
  params : s.cfg.wf = true
  memory : s.stack.wf s.cfg
  status : StatusAgrees s
  sound : ¬ s.faulted → Sound s

/-! ### Terms of the statements -/

/-- A push finds room: it need not grow the stack, or the platform can provide the doubled capacity
(spec/20_memory.md R56, R60). -/
def State.hasRoom (s : State) : Prop := s.sp = s.cap → 2 * s.cap ≤ s.cfg.stackCapMax

/-- The capacity after a push (R56, R60). -/
def State.capAfterPush (s : State) : Nat := if s.sp = s.cap then 2 * s.cap else s.cap

/-- The logical stack ends, from the top down, in these Words: `endsIn [b, a]` is the picture
`..., a, b`. -/
def State.endsIn (s : State) (ws : List Word) : Prop :=
  ws.length ≤ s.sp ∧ ∀ (k : Nat) (w : Word), ws[k]? = some w → s.stack.read s.cfg (s.sp - 1 - k) = some w

/-- Every stack cell outside `P` holds what it held, and exists or is written exactly where it did. -/
def CellsKept (s t : State) (P : Int → Prop) : Prop := ∀ i : Int, ¬ P i → t.cell i = s.cell i

/-- A Word as the image writes it: four bytes, big-endian (spec/20_memory.md R70). -/
def wordBytes (w : Word) : List Byte :=
  [w.extractLsb' 24 8, w.extractLsb' 16 8, w.extractLsb' 8 8, w.extractLsb' 0 8]

/-- Push the Words in order, first one first (spec/20_memory.md R63). -/
def pushAll : List Word → State → Res Unit
  | [], s => .ok () s
  | v :: vs, s => (push v s).andThen fun _ s => pushAll vs s

/-- Pop so many Words; the answer lists them in the order popped (R63). -/
def popAll : Nat → State → Res (List Word)
  | 0, s => .ok [] s
  | n + 1, s => (pop s).andThen fun v s => (popAll n s).andThen fun vs s => .ok (v :: vs) s

/-- The callee that constant-pool entry `i` names, with its entry address and its header's counts, read
from the pool and the text as spec/46_frames.md R250 says. -/
def State.callee (s : State) (i : Half) (e : Word) (args locals : Nat) : Prop :=
  s.cp[i.toNat]? = some e ∧ 0 ≤ e.toInt ∧
    ∃ a1 a0 l1 l0 : Byte, (s.text.drop e.toNat).take 4 = [a1, a0, l1, l0] ∧
      args = 256 * a1.toNat + a0.toNat ∧ locals = 256 * l1.toNat + l0.toNat ∧
      args < 0x8000 ∧ locals < 0x8000

/-- The current frame's link, saved pc and saved lv, found through the link (R253, R256). -/
def State.frame (s : State) (link savedPc savedLv : Word) : Prop :=
  s.cell s.lv.toInt = some link ∧ s.cell link.toInt = some savedPc ∧
    s.cell (link.toInt + 1) = some savedLv

/-- The capacity `new` is `old` doubled as often as holding `size` Words asks for, and no more (R56). -/
def Grown (old new size : Nat) : Prop :=
  ∃ g, new = old * 2 ^ g ∧ size ≤ new ∧ (g = 0 ∨ new < 2 * size)

end Sys2Proof.Machine
end

