-- ==== Sys2Proof/Certificates/Slice0/Obligations.lean ====
section
/-! DEFINITION. The statements about the IJVM core, each a rule of spec/ or derived from some. -/

open Sys2Proof Sys2Proof.Machine

/-! ### Encoding (spec/30_encoding.md) -/

/-- R92, R94, R99: with any `OPCODE_MAP` of distinct bytes, decoding an encoded well-formed instruction,
whatever bytes follow it, gives it back and leaves those bytes. -/
def Obligations.DecodeOfEncodeReturnsInstruction : Prop :=
  ∀ (m : OpcodeMap) (i : Instr) (rest : List Byte), m.Distinct → i.wf m = true →
    decode m (encode m i ++ rest) = .instr i rest

/-- R92, R100: what is decoded is well formed, and encoding it gives the bytes read. -/
def Obligations.EncodeOfDecodeReturnsBytes : Prop :=
  ∀ (m : OpcodeMap) (bytes rest : List Byte) (i : Instr), decode m bytes = .instr i rest →
    i.wf m = true ∧ bytes = encode m i ++ rest

/-- R92, R94, R96: words written out from the table, one or more of each format, with the default map. -/
def Obligations.WrittenOutWordsDecode : Prop :=
  decode OpcodeMap.default [0b00000000] = .instr .nop [] ∧
  decode OpcodeMap.default [0b00010000, 0b10000000] = .instr (.bipush 0x80) [] ∧
  decode OpcodeMap.default [0b01100000] = .instr .iadd [] ∧
  decode OpcodeMap.default [0b11111100] = .instr .inp [] ∧
  decode OpcodeMap.default [0b10100111, 0b11111111, 0b11111010] = .instr (.goto 0xFFFA) [] ∧
  decode OpcodeMap.default [0b00010011, 0b00000001, 0b00000010] = .instr (.ldcW 0x0102) [] ∧
  decode OpcodeMap.default [0b10000100, 0b01100101, 0b00000001] = .instr (.iinc 0x65 0x01) [] ∧
  decode OpcodeMap.default [0b11000100, 0b00010101, 0b00000001, 0b00101100] = .instr (.wideIload 0x012C) [] ∧
  decode OpcodeMap.default [0b11000100, 0b10000100, 0b00000001, 0b00101100, 0b11111101] =
    .instr (.wideIinc 0x012C 0xFD) [] ∧
  decode OpcodeMap.default [0b11000100, 0b00010000, 0b00000101] = .instr (.wide 0x10) [0x05] ∧
  decode OpcodeMap.default [0b11010010] = .instr .iaload [] ∧
  decode OpcodeMap.default [0b10110110, 0b00000000, 0b00000011] = .instr (.invokevirtual 3) []

/-- R51, R96, R99: with an operand byte missing, a decoding is refused as truncated. -/
def Obligations.EveryProperPrefixIsTruncated : Prop :=
  ∀ (m : OpcodeMap) (i : Instr) (n : Nat), m.Distinct → i.wf m = true →
    0 < n → n < (encode m i).length → decode m ((encode m i).take n) = .truncated

/-- R101: the bytes outside `OPCODE_MAP` are the unknown opcodes, whatever follows; with the default map
they are 228 of the 256. -/
def Obligations.UnknownOpcodesAreTheBytesOutsideTheMap : Prop :=
  (∀ (m : OpcodeMap) (b : Byte) (rest : List Byte),
    decode m (b :: rest) = .unknownOpcode b ↔ ∀ k : Opcode, m.byte k ≠ b) ∧
  ((List.range 256).filter fun n =>
    decide (decode OpcodeMap.default [BitVec.ofNat 8 n] = .unknownOpcode (BitVec.ofNat 8 n))).length = 228

/-! ### The step (spec/30_encoding.md R90, R91) -/

/-- R91, R51, R96, R101: what a STEP does. It has no effect while not running. Below 0 it reports
`PC_RANGE`. An opcode not in the table ends the run. An operand byte outside the text is
`Undefined(TRUNCATED)`. Otherwise it runs the decoded instruction, and a core still running whose
`pc` is then at or past `TEXT_LEN` becomes DONE, its cause as the handler left it. -/
def Obligations.StepRunsTheDecodedInstruction : Prop :=
  ∀ s : State,
    (s.status ≠ .run → step s = .next s) ∧
    (s.status = .run → s.pc.toInt < 0 → ∃ t, step s = .next t ∧ t.reportsUndef .pcRange) ∧
    (s.status = .run → 0 ≤ s.pc.toInt → ∀ op rest, s.text.drop s.pc.toNat = op :: rest →
      (∀ k, s.cfg.opcodeMap.byte k ≠ op) →
      step s = .next { s with pc := BitVec.ofNat 32 s.text.length, status := .done,
                              cause := .error (.recoverable .unknownOpcode) }) ∧
    (s.status = .run → 0 ≤ s.pc.toInt →
      decode s.cfg.opcodeMap (s.text.drop s.pc.toNat) = .truncated →
      ∃ t, step s = .next t ∧ t.reportsUndef .truncated) ∧
    (s.status = .run → 0 ≤ s.pc.toInt → ∀ i rest,
      decode s.cfg.opcodeMap (s.text.drop s.pc.toNat) = .instr i rest →
      ∃ t, exec i s = .next t ∧
        step s = .next (if t.status = .run ∧ (t.text.length : Int) ≤ t.pc.toInt
          then { t with status := .done } else t))

/-- R90, R300: no instruction and no step, from any state, stops the model: each answers a next state.
That a fatal or an undefined error is a next state too, reported in `status` and `cause`, is the model's
choice (log 1). -/
def Obligations.EveryStepAnswersANextState : Prop :=
  (∀ (i : Instr) (s : State), ∃ t, exec i s = .next t) ∧ ∀ s : State, ∃ t, step s = .next t

/-- R28, R91: a run that has ended, FATAL and UNDEF included, stays as it is under any number of steps. -/
def Obligations.EndedRunsStayAsTheyAre : Prop :=
  ∀ s t : State, Run s t → s.ended → t = s

/-! ### Reset and LOAD (spec/10_state.md R38, spec/20_memory.md R70 to R73) -/

/-- R38, for the empty image: the reset values the spec states; and the source's values of the parameters
that it fixes (R7). -/
def Obligations.ResetHasTheSpecsValues : Prop :=
  State.reset.pc = 0 ∧ State.reset.lv = 0 ∧ State.reset.sp = 0 ∧ State.reset.depth = 0 ∧
  State.reset.cap = 512 ∧ State.reset.hcap = 10 ∧ State.reset.heap = [] ∧ State.reset.outlog = [] ∧
  State.reset.cause = .none ∧ State.reset.text = [] ∧ State.reset.cp = [] ∧ State.reset.status = .done ∧
  (∀ i : Nat, i < 256 → State.reset.cell i = some 1) ∧
  (∀ i : Nat, 256 ≤ i → State.reset.cell i = none) ∧
  State.reset.cfg.sentinelCount = 256 ∧ State.reset.cfg.sentinelValue = 1 ∧ State.reset.cfg.localInit = 1 ∧
  State.reset.cfg.stackCapInit = 512 ∧ State.reset.cfg.heapTableCapInit = 10

/-- R38, R70, R340: an image whose magic, sizes and data fit is loaded, whatever its two origin fields and
the bytes after it; the state has the reset values, `CP` and `T` from the image. The initial capacities and
the sentinels are parameters (R7, spec/93 U12): 512, 10, and 256 times 1 by default. -/
def Obligations.LoadOfAnImageGivesTheResetState : Prop :=
  ∀ (p : Params) (o1 o2 : List Byte) (cp : List Word) (text rest : List Byte),
    o1.length = 4 → o2.length = 4 → cp.length ≤ p.cpMax → text.length ≤ p.textMax →
    4 * cp.length < 2 ^ 32 → text.length < 2 ^ 32 →
    ∃ s, load p true (wordBytes p.magic ++ o1 ++ wordBytes (BitVec.ofNat 32 (4 * cp.length)) ++
        cp.flatMap wordBytes ++ o2 ++ wordBytes (BitVec.ofNat 32 text.length) ++ text ++ rest) = .ok s rest ∧
      s.pc = 0 ∧ s.lv = 0 ∧ s.depth = 0 ∧ s.cause = .none ∧
      s.sp = (if p.resetSp = .zero then 0 else p.sentinelCount) ∧
      s.status = (if 0 < text.length then .run else .done) ∧
      s.cap = p.stackCapInit ∧ s.hcap = p.heapTableCapInit ∧ s.heap = [] ∧ s.outlog = [] ∧
      s.cp = cp ∧ s.text = text ∧ s.cfg = p ∧
      ∀ i : Nat, s.cell i = if i < p.stackCapInit ∧ i < p.sentinelCount then some p.sentinelValue else none

/-- R71, R73: a stream that ends before the magic number is TRUNCATED; a wrong magic number is refused
whatever follows, and nothing after it is consumed. That nothing is left of the TRUNCATED stream is the
model's choice (log 15). -/
def Obligations.LoadChecksTheMagicNumberFirst : Prop :=
  ∀ (p : Params) (storage : Bool),
    (∀ image : List Byte, image.length < 4 → load p storage image = .error .truncated []) ∧
    ∀ (magic : Word) (rest : List Byte), magic ≠ p.magic →
      load p storage (wordBytes magic ++ rest) = .error .badMagic rest

/-- R71: the checks on the two size fields, before their data, and the platform's; whatever the two origin
fields and whatever constant pool fits. The bytes left on the stream are the model's choice (log 15). -/
def Obligations.LoadChecksTheSizes : Prop :=
  ∀ (p : Params) (storage : Bool) (o1 o2 : List Byte) (n : Word) (rest : List Byte),
    o1.length = 4 → o2.length = 4 →
    (n.toNat % 4 ≠ 0 →
      load p storage (wordBytes p.magic ++ o1 ++ wordBytes n ++ rest) = .error .badCpSize rest) ∧
    (n.toNat % 4 = 0 → p.cpMax < n.toNat / 4 →
      load p storage (wordBytes p.magic ++ o1 ++ wordBytes n ++ rest) = .error .tooLarge rest) ∧
    ∀ cp : List Word, cp.length ≤ p.cpMax → 4 * cp.length < 2 ^ 32 →
      (p.textMax < n.toNat →
        load p storage (wordBytes p.magic ++ o1 ++ wordBytes (BitVec.ofNat 32 (4 * cp.length)) ++
          cp.flatMap wordBytes ++ o2 ++ wordBytes n ++ rest) = .error .tooLarge rest) ∧
      (n.toNat ≤ p.textMax → n.toNat ≤ rest.length →
        load p false (wordBytes p.magic ++ o1 ++ wordBytes (BitVec.ofNat 32 (4 * cp.length)) ++
          cp.flatMap wordBytes ++ o2 ++ wordBytes n ++ rest) = .error .alloc (rest.drop n.toNat))

/-- R71: an image cut short anywhere before its last text byte is TRUNCATED. That nothing is left of the
stream is the model's choice (log 15). -/
def Obligations.LoadOfAShortenedImageIsTruncated : Prop :=
  ∀ (p : Params) (storage : Bool) (image : List Byte) (s : State) (n : Nat),
    load p storage image = .ok s [] → n < image.length →
    load p storage (image.take n) = .error .truncated []

/-- R343: after a failed LOAD there is no machine, and STEP and INSPECT are refused; a LOAD that succeeds
replaces any machine, whatever its status. -/
def Obligations.LoadReplacesTheMachineOrLeavesNone : Prop :=
  ∀ (b : Block) (image : List Byte) (storage : Bool) (rest : List Byte),
    (∀ r, load b.cfg storage image = .error r rest → ∀ q : Query,
      (b.load image storage).2 = .loadError r ∧
      (b.load image storage).1.machine = none ∧
      (b.load image storage).1.step = ((b.load image storage).1, .refused) ∧
      (b.load image storage).1.inspect q = ((b.load image storage).1, .refused)) ∧
    ∀ s, load b.cfg storage image = .ok s rest →
      ∃ t, b.load image storage = ({ b with machine := some t }, .ok) ∧ t = { s with draws := t.draws }

/-- R80: the answers to the queries, and their refusal, but for `status` and `cause`, after a fatal or an
undefined error; with the values of `status` (R28) and of `cause` (R29, R304). -/
def Obligations.InspectAnswersFromTheState : Prop :=
  ∀ s : State,
    (s.status = .run ∨ s.status = .done →
      inspect .getPc s = some (.word s.pc) ∧
      (s.sp = 0 → inspect .tos s = some .absent) ∧
      (∀ v, s.endsIn [v] → inspect .tos s = some (.word v)) ∧
      inspect .finished s = some (.bool (decide (s.status ≠ .run))) ∧
      (∀ i v, s.cell (s.lv.toInt + i) = some v → inspect (.localVar i) s = some (.word v)) ∧
      (∀ i, s.cell (s.lv.toInt + i) = none → inspect (.localVar i) s = some .absent) ∧
      (∀ (i : Nat) w, s.cp[i]? = some w → inspect (.constant i) s = some (.word w)) ∧
      (∀ i : Int, i < 0 ∨ (s.cp.length : Int) ≤ i → inspect (.constant i) s = some (.word 0)) ∧
      inspect .text s = some (.bytes s.text) ∧
      inspect .textSize s = some (.size s.text.length) ∧
      inspect .callDepth s = some (.depth s.depth) ∧
      ∀ ref, inspect (.isFreed ref) s = some (.bool false)) ∧
    (∀ q ∈ [(Status.run, (0 : BitVec 2)), (.done, 1), (.fatal, 2), (.undef, 3)],
      s.status = q.1 → inspect .status s = some (.status q.2)) ∧
    (∀ q ∈ [(Cause.none, (0x00 : BitVec 8)),
        (.error (.recoverable .errInstr), 0x01), (.error (.recoverable .unknownOpcode), 0x02),
        (.error (.recoverable .badArraySize), 0x03), (.error (.recoverable .arrayIndex), 0x04),
        (.error (.fatal .stackUnderflow), 0x10), (.error (.fatal .stackAlloc), 0x11),
        (.error (.fatal .heapAlloc), 0x12), (.error (.fatal .stackIndex), 0x13),
        (.error (.undef .pcRange), 0x20), (.error (.undef .truncated), 0x21), (.error (.undef .cpRange), 0x22),
        (.error (.undef .badRef), 0x23), (.error (.undef .unwrittenRead), 0x24),
        (.error (.undef .frameUnderflow), 0x25), (.error (.undef .headerRange), 0x26),
        (.error (.undef .badWide), 0x27), (.error (.undef .unwindBelowBase), 0x28)],
      s.cause = q.1 → inspect .cause s = some (.cause q.2)) ∧
    (s.status = .fatal ∨ s.status = .undef →
      ∀ q, q ≠ .status → q ≠ .cause → inspect q s = none)

/-! ### The invariant (spec/10_state.md R28, R29, R36) -/

/-- The state after reset meets the invariant. -/
def Obligations.ResetMeetsTheInvariant : Prop := Inv State.reset

/-- A successful LOAD under well-formed parameters gives a state that meets the invariant. -/
def Obligations.LoadedStatesMeetTheInvariant : Prop :=
  ∀ (p : Params) (storage : Bool) (image rest : List Byte) (s : State), p.wf = true →
    load p storage image = .ok s rest → Inv s

/-- R28, R29, R36: every step keeps the invariant. The capacities are `STACK_CAP_INIT` (512 by default) and
`HEAP_TABLE_CAP_INIT` (10 by default) times a power of two: that R36's 512 is the parameter is the model's
choice (log 3). -/
def Obligations.EveryStepKeepsTheInvariant : Prop :=
  ∀ s t : State, Inv s → step s = .next t → Inv t

/-! ### The Value Stack (spec/20_memory.md R56 to R63) -/

/-- R56, R60: a push. At `sp = cap` it first doubles `cap`, keeping every cell and leaving the new ones
unwritten, or is `Fatal(STACK_ALLOC)` where the platform cannot provide that. -/
def Obligations.PushGrowsByDoubling : Prop :=
  ∀ (s : State) (v : Word), Sound s →
    (s.hasRoom → ∃ t, push v s = .ok () t ∧
      t = { s with sp := s.sp + 1, cap := s.capAfterPush, stack := t.stack } ∧
      t.cell s.sp = some v ∧ CellsKept s t (· = (s.sp : Int))) ∧
    (¬ s.hasRoom → push v s = .raised (.fatal .stackAlloc) s)

/-- R63: pushes followed by as many pops return the Words in reverse order, also across growth, and leave
the logical size as it was. -/
def Obligations.PopsReturnPushesInReverse : Prop :=
  ∀ (s : State) (vs : List Word), Sound s → s.sp + vs.length ≤ s.cfg.stackCapMax →
    ∃ t u, pushAll vs s = .ok () t ∧ popAll vs.length t = .ok vs.reverse u ∧ u.sp = s.sp

/-! ### Machine control (spec/40_machine_control.md) -/

/-- R120: NOP advances `pc` and changes nothing else. -/
def Obligations.NopOnlyAdvances : Prop :=
  ∀ s : State, exec .nop s = .next { s with pc := s.pc + 1 }

/-- R121, R301: ERR ends the run with cause 0x01; the stack, heap, `lv`, `depth` and `OUTLOG` stay. -/
def Obligations.ErrEndsTheRunRecoverably : Prop :=
  ∀ s : State, ∃ t, exec .err s = .next t ∧ t.cause.code = 0x01 ∧
    t = { s with pc := BitVec.ofNat 32 s.text.length, status := .done, cause := t.cause }

/-- R122: HALT sets `pc` to `TEXT_LEN`; the step that runs it ends the run cleanly. -/
def Obligations.HaltEndsTheRunCleanly : Prop :=
  ∀ s : State,
    exec .halt s = .next { s with pc := BitVec.ofNat 32 s.text.length } ∧
    ∀ rest, s.status = .run → 0 ≤ s.pc.toInt → s.text.length < 2 ^ 31 →
      decode s.cfg.opcodeMap (s.text.drop s.pc.toNat) = .instr .halt rest →
      step s = .next { s with pc := BitVec.ofNat 32 s.text.length, status := .done }

/-- R207: WIDE followed by any other byte is `Undefined(BAD_WIDE)`. -/
def Obligations.WideWithAnotherByteIsUndefined : Prop :=
  ∀ (s : State) (b : Byte), ∃ t, exec (.wide b) s = .next t ∧ t.reportsUndef .badWide

/-! ### Stack and arithmetic (spec/41_stack_arith.md) -/

/-- R140: BIPUSH pushes the sign-extended byte. -/
def Obligations.BipushPushesTheSignExtendedByte : Prop :=
  ∀ (s : State) (b : Byte), Sound s → s.hasRoom →
    ∃ t v, exec (.bipush b) s = .next t ∧ v.toInt = b.toInt ∧
      t = { s with pc := s.pc + 2, sp := s.sp + 1, cap := s.capAfterPush, stack := t.stack } ∧
      t.cell s.sp = some v ∧ CellsKept s t (· = (s.sp : Int))

/-- R141: DUP pushes a copy of the top. -/
def Obligations.DupPushesTheTop : Prop :=
  ∀ (s : State) (v : Word), Sound s → s.hasRoom → s.endsIn [v] →
    ∃ t, exec .dup s = .next t ∧
      t = { s with pc := s.pc + 1, sp := s.sp + 1, cap := s.capAfterPush, stack := t.stack } ∧
      t.cell s.sp = some v ∧ CellsKept s t (· = (s.sp : Int))

/-- R142, R61: POP drops the top; the cell keeps its value. -/
def Obligations.PopDropsTheTop : Prop :=
  ∀ (s : State) (v : Word), s.endsIn [v] →
    exec .pop s = .next { s with pc := s.pc + 1, sp := s.sp - 1 }

/-- R143: SWAP exchanges the top two. -/
def Obligations.SwapExchangesTheTopTwo : Prop :=
  ∀ (s : State) (a b : Word), Sound s → s.endsIn [b, a] →
    ∃ t, exec .swap s = .next t ∧ t = { s with pc := s.pc + 1, stack := t.stack } ∧ t.endsIn [a, b] ∧
      CellsKept s t fun i => i = (s.sp : Int) - 1 ∨ i = (s.sp : Int) - 2

/-- R144 to R149: the four binary operations replace `a, b` (`b` on top) by their result: the sum and the
difference modulo 2^32, and the bitwise AND and OR. -/
def Obligations.BinaryOperationsReplaceTheTopTwo : Prop :=
  ∀ (s : State) (a b : Word), Sound s → s.endsIn [b, a] →
    ∀ i ∈ [Instr.iadd, .isub, .iand, .ior], ∃ t r, exec i s = .next t ∧
      t = { s with pc := s.pc + 1, sp := s.sp - 1, stack := t.stack } ∧ t.endsIn [r] ∧
      (CellsKept s t (· = (s.sp : Int) - 2)) ∧
      (i = .iadd → r.toInt = (a.toInt + b.toInt).bmod (2 ^ 32)) ∧
      (i = .isub → r.toInt = (a.toInt - b.toInt).bmod (2 ^ 32)) ∧
      (i = .iand → ∀ k, r.getLsbD k = (a.getLsbD k && b.getLsbD k)) ∧
      (i = .ior → ∀ k, r.getLsbD k = (a.getLsbD k || b.getLsbD k))

/-! ### Input and output (spec/42_io.md) -/

/-- R170, R75, R365: IN pushes the host's byte zero-extended, or 0 for EOF; after EOF every IN pushes 0
at once. While the host withholds its answer, IN does not complete and changes nothing. In both cases the
core sends the host a byte request (R345; that it does so after EOF too is the model's choice, log 24). -/
def Obligations.InPushesTheHostsAnswer : Prop :=
  (∀ (s : State) (v : Word) (as : List HostAnswer) (e : Bool), Sound s → s.hasRoom →
    (s.eof = true ∧ v = 0 ∧ as = s.answers ∧ e = true) ∨
    (s.eof = false ∧ (∃ b, s.answers = .byte b :: as ∧ v.toNat = b.toNat) ∧ e = false) ∨
    (s.eof = false ∧ s.answers = .eof :: as ∧ v = 0 ∧ e = true) →
    ∃ t, exec .inp s = .next t ∧
      t = { s with pc := s.pc + 1, sp := s.sp + 1, cap := s.capAfterPush, stack := t.stack,
                   answers := as, eof := e } ∧
      t.cell s.sp = some v ∧ CellsKept s t (· = (s.sp : Int))) ∧
  (∀ s : State, s.eof = false → s.answers = [] → exec .inp s = .next s) ∧
  ∀ (b : Block) (s : State) (rest : List Byte), b.machine = some s → s.status = .run → 0 ≤ s.pc.toInt →
    decode s.cfg.opcodeMap (s.text.drop s.pc.toNat) = .instr .inp rest →
    (s.eof = false → s.answers = [] → b.step = (b, .holds)) ∧
    (s.eof = true ∨ s.answers ≠ [] → b.step.2 = .stepped (some .request))

/-- R171, R76: OUT pops a Word and appends its low byte to `OUTLOG`. -/
def Obligations.OutEmitsTheLowByte : Prop :=
  ∀ (s : State) (v : Word), s.endsIn [v] →
    exec .out s = .next { s with pc := s.pc + 1, sp := s.sp - 1,
                                 outlog := s.outlog ++ [BitVec.ofNat 8 (v.toNat % 256)] }

/-! ### Branches (spec/43_branches.md) -/

/-- R181, R97: GOTO adds the signed displacement to the address of its own opcode, modulo 2^32. -/
def Obligations.GotoJumpsFromItsOwnAddress : Prop :=
  ∀ (s : State) (off : Half), ∃ t, exec (.goto off) s = .next t ∧ t = { s with pc := t.pc } ∧
    t.pc.toInt = (s.pc.toInt + off.toInt).bmod (2 ^ 32)

/-- R182, R183: IFEQ and IFLT pop a Word, whether or not they branch, and test it. -/
def Obligations.IfeqAndIfltTestThePoppedWord : Prop :=
  ∀ (s : State) (off : Half) (v : Word), s.endsIn [v] →
    exec (.ifeq off) s = .next { s with sp := s.sp - 1,
                                        pc := if v = 0 then s.pc + off.signExtend 32 else s.pc + 3 } ∧
    exec (.iflt off) s = .next { s with sp := s.sp - 1,
                                        pc := if v.toInt < 0 then s.pc + off.signExtend 32 else s.pc + 3 }

/-- R184: IF_ICMPEQ pops two Words, whether or not it branches, and compares all 32 bits. -/
def Obligations.IfIcmpeqComparesTheTopTwo : Prop :=
  ∀ (s : State) (off : Half) (a b : Word), s.endsIn [b, a] →
    exec (.ifIcmpeq off) s = .next { s with sp := s.sp - 2,
                                            pc := if a = b then s.pc + off.signExtend 32 else s.pc + 3 }

/-! ### Constants and locals (spec/44_constants_locals.md) -/

/-- R200: LDC_W pushes the constant-pool Word unchanged; an index past the pool is `Undefined(CP_RANGE)`. -/
def Obligations.LdcWPushesTheConstant : Prop :=
  ∀ (s : State) (i : Half),
    (∀ w, Sound s → s.hasRoom → s.cp[i.toNat]? = some w → ∃ t, exec (.ldcW i) s = .next t ∧
      t = { s with pc := s.pc + 3, sp := s.sp + 1, cap := s.capAfterPush, stack := t.stack } ∧
      t.cell s.sp = some w ∧ CellsKept s t (· = (s.sp : Int))) ∧
    (s.cp.length ≤ i.toNat → ∃ t, exec (.ldcW i) s = .next t ∧ t.reportsUndef .cpRange)

/-- R201, R204: ILOAD and WIDE ILOAD push the Word of cell `lv + i`. -/
def Obligations.LoadsPushTheLocal : Prop :=
  ∀ (s : State) (v : Word), Sound s → s.hasRoom →
    (∀ i : Byte, s.cell (s.lv.toInt + i.toNat) = some v → ∃ t, exec (.iload i) s = .next t ∧
      t = { s with pc := s.pc + 2, sp := s.sp + 1, cap := s.capAfterPush, stack := t.stack } ∧
      t.cell s.sp = some v ∧ CellsKept s t (· = (s.sp : Int))) ∧
    ∀ i : Half, s.cell (s.lv.toInt + i.toNat) = some v → ∃ t, exec (.wideIload i) s = .next t ∧
      t = { s with pc := s.pc + 4, sp := s.sp + 1, cap := s.capAfterPush, stack := t.stack } ∧
      t.cell s.sp = some v ∧ CellsKept s t (· = (s.sp : Int))

/-- R202, R205: ISTORE and WIDE ISTORE pop a Word into cell `lv + i`, also above the logical top. -/
def Obligations.StoresWriteTheLocal : Prop :=
  ∀ (s : State) (v : Word), s.endsIn [v] →
    (∀ i : Byte, 0 ≤ s.lv.toInt + i.toNat → s.lv.toInt + i.toNat < s.cap →
      ∃ t, exec (.istore i) s = .next t ∧
      t = { s with pc := s.pc + 2, sp := s.sp - 1, stack := t.stack } ∧
      t.cell (s.lv.toInt + i.toNat) = some v ∧ CellsKept s t (· = s.lv.toInt + i.toNat)) ∧
    ∀ i : Half, 0 ≤ s.lv.toInt + i.toNat → s.lv.toInt + i.toNat < s.cap →
      ∃ t, exec (.wideIstore i) s = .next t ∧
      t = { s with pc := s.pc + 4, sp := s.sp - 1, stack := t.stack } ∧
      t.cell (s.lv.toInt + i.toNat) = some v ∧ CellsKept s t (· = s.lv.toInt + i.toNat)

/-- R203, R206: IINC and WIDE IINC add the signed delta to cell `lv + i`, modulo 2^32; `sp` stays. -/
def Obligations.IncrementsAddTheSignedDelta : Prop :=
  ∀ (s : State) (v : Word) (d : Byte),
    (∀ i : Byte, s.cell (s.lv.toInt + i.toNat) = some v → ∃ t r, exec (.iinc i d) s = .next t ∧
      t = { s with pc := s.pc + 3, stack := t.stack } ∧
      r.toInt = (v.toInt + d.toInt).bmod (2 ^ 32) ∧
      t.cell (s.lv.toInt + i.toNat) = some r ∧ CellsKept s t (· = s.lv.toInt + i.toNat)) ∧
    ∀ i : Half, s.cell (s.lv.toInt + i.toNat) = some v → ∃ t r, exec (.wideIinc i d) s = .next t ∧
      t = { s with pc := s.pc + 5, stack := t.stack } ∧
      r.toInt = (v.toInt + d.toInt).bmod (2 ^ 32) ∧
      t.cell (s.lv.toInt + i.toNat) = some r ∧ CellsKept s t (· = s.lv.toInt + i.toNat)

/-- R57, R58: a local outside `0..cap-1` is `Fatal(STACK_INDEX)`, also for a store; one never written is
`Undefined(UNWRITTEN_READ)` for a load or an increment. -/
def Obligations.BadLocalIndicesEndTheRun : Prop :=
  ∀ (s : State) (k : Nat) (i : Instr) (stores : Bool),
    (stores = false ∧ ((∃ b : Byte, b.toNat = k ∧ (i = .iload b ∨ ∃ d, i = .iinc b d)) ∨
      ∃ h : Half, h.toNat = k ∧ (i = .wideIload h ∨ ∃ d, i = .wideIinc h d))) ∨
    (stores = true ∧ (∃ v, s.endsIn [v]) ∧
      ((∃ b : Byte, b.toNat = k ∧ i = .istore b) ∨ ∃ h : Half, h.toNat = k ∧ i = .wideIstore h)) →
    (s.lv.toInt + k < 0 ∨ (s.cap : Int) ≤ s.lv.toInt + k →
      ∃ t, exec i s = .next t ∧ t.reportsFatal .stackIndex) ∧
    (stores = false → 0 ≤ s.lv.toInt + k → s.lv.toInt + k < s.cap → s.cell (s.lv.toInt + k) = none →
      ∃ t, exec i s = .next t ∧ t.reportsUndef .unwrittenRead)

/-! ### Arrays (spec/45_arrays.md, spec/20_memory.md R64 to R69) -/

/-- R230, R65: NEWARRAY replaces the count by the reference of a new array of that many zeros, appended to
the table; the table's capacity doubles when it was full. (A reference is the index as a Word: log 11.) -/
def Obligations.NewarrayAppendsAZeroedArray : Prop :=
  ∀ (s : State) (count : Word), Sound s → s.endsIn [count] → 0 < count.toInt →
    (s.heap.length = s.hcap → 2 * s.hcap ≤ s.cfg.heapTableMax) →
    (s.heap.map List.length).sum + count.toNat ≤ s.cfg.heapWordsMax →
    ∃ t, exec .newarray s = .next t ∧
      t = { s with pc := s.pc + 1, stack := t.stack,
                   heap := s.heap ++ [List.replicate count.toNat 0],
                   hcap := if s.heap.length = s.hcap then 2 * s.hcap else s.hcap } ∧
      t.endsIn [BitVec.ofNat 32 s.heap.length] ∧ CellsKept s t (· = (s.sp : Int) - 1)

/-- R230, R65, R301: a count of 0 or below ends the run recoverably, the count popped and the heap table
as it was; a table or an array the platform cannot provide is `Fatal(HEAP_ALLOC)`. -/
def Obligations.NewarrayErrors : Prop :=
  ∀ (s : State) (count : Word), s.endsIn [count] →
    (count.toInt ≤ 0 → exec .newarray s = .next { s with
      pc := BitVec.ofNat 32 s.text.length, sp := s.sp - 1, status := .done,
      cause := .error (.recoverable .badArraySize) }) ∧
    (0 < count.toInt →
      (s.heap.length = s.hcap ∧ s.cfg.heapTableMax < 2 * s.hcap) ∨
        s.cfg.heapWordsMax < (s.heap.map List.length).sum + count.toNat →
      ∃ t, exec .newarray s = .next t ∧ t.reportsFatal .heapAlloc)

/-- R231, R66: IALOAD replaces index and reference (on top) by the array's Word. -/
def Obligations.IaloadReadsTheElement : Prop :=
  ∀ (s : State) (ref index v : Word) (a : List Word), Sound s → s.endsIn [ref, index] →
    0 ≤ ref.toInt → s.heap[ref.toNat]? = some a → 0 ≤ index.toInt → a[index.toNat]? = some v →
    ∃ t, exec .iaload s = .next t ∧ t = { s with pc := s.pc + 1, sp := s.sp - 1, stack := t.stack } ∧
      t.endsIn [v] ∧ CellsKept s t (· = (s.sp : Int) - 2)

/-- R232, R67: IASTORE pops reference, index and value, and changes that one element of that one array. -/
def Obligations.IastoreWritesTheElement : Prop :=
  ∀ (s : State) (ref index v : Word) (a : List Word), s.endsIn [ref, index, v] →
    0 ≤ ref.toInt → s.heap[ref.toNat]? = some a → 0 ≤ index.toInt → index.toInt < a.length →
    ∃ t, exec .iastore s = .next t ∧
      t = { s with pc := s.pc + 1, sp := s.sp - 3, heap := t.heap } ∧
      t.heap.map List.length = s.heap.map List.length ∧
      ∀ r k : Nat, t.heap[r]?.bind (·[k]?) =
        if r = ref.toNat ∧ k = index.toNat then some v else s.heap[r]?.bind (·[k]?)

/-- R66, R67, R68, R301: a reference outside the table is `Undefined(BAD_REF)`, checked before the index;
an index outside the array ends the run recoverably, the operands popped, no array changed. -/
def Obligations.BadArrayAccessesEndTheRun : Prop :=
  ∀ (s : State) (ref index : Word) (i : Instr) (pops : Nat),
    (i = .iaload ∧ pops = 2 ∧ s.endsIn [ref, index]) ∨
    (i = .iastore ∧ pops = 3 ∧ ∃ v, s.endsIn [ref, index, v]) →
    (ref.toInt < 0 ∨ (s.heap.length : Int) ≤ ref.toInt →
      ∃ t, exec i s = .next t ∧ t.reportsUndef .badRef) ∧
    ∀ a, 0 ≤ ref.toInt → s.heap[ref.toNat]? = some a → index.toInt < 0 ∨ (a.length : Int) ≤ index.toInt →
      exec i s = .next { s with pc := BitVec.ofNat 32 s.text.length, sp := s.sp - pops, status := .done,
                                cause := .error (.recoverable .arrayIndex) }

/-! ### Frames (spec/46_frames.md) -/

/-- R251, R253, R255: INVOKEVIRTUAL. The new frame starts at the first of the `A` words pushed, its first
cell the link, which for `A = 0` overwrites the cell of the rows after it; then the `L` fresh locals,
each `LOCAL_INIT` (1 by default), the return address and the caller's `lv`. Every other cell is kept. (Indices are stored as Words
and `depth` counts modulo 2^32: logs 11, 12.) -/
def Obligations.InvokevirtualBuildsTheFrame : Prop :=
  ∀ (s : State) (i : Half) (e : Word) (A L : Nat), Sound s → s.callee i e A L → A ≤ s.sp →
    s.sp + L + 2 ≤ s.cfg.stackCapMax →
    ∃ t, exec (.invokevirtual i) s = .next t ∧
      t = { s with pc := e + 4, lv := BitVec.ofNat 32 (s.sp - A), sp := s.sp + L + 2,
                   depth := s.depth + 1, cap := t.cap, stack := t.stack } ∧
      Grown s.cap t.cap (s.sp + L + 2) ∧
      ∀ j : Int, t.cell j =
        if j = (s.sp - A : Nat) then some (BitVec.ofNat 32 (s.sp + L))
        else if j < s.sp then s.cell j
        else if j < s.sp + L then some s.cfg.localInit
        else if j = s.sp + L then some (s.pc + 3)
        else if j = s.sp + L + 1 then some s.lv
        else s.cell j

/-- R256: IRETURN unwinds to the frame's base, leaves the result there, and takes `pc` and `lv` from the
two cells the link names. -/
def Obligations.IreturnUnwindsTheFrame : Prop :=
  ∀ (s : State) (r link npc nlv : Word), s.sp ≤ s.cap → s.depth ≠ 0 → s.endsIn [r] →
    s.frame link npc nlv → s.lv.toInt < s.sp →
    ∃ t, exec .ireturn s = .next t ∧
      t = { s with pc := npc, lv := nlv, sp := s.lv.toNat + 1, depth := s.depth - 1, stack := t.stack } ∧
      t.cell s.lv.toInt = some r ∧ CellsKept s t (· = s.lv.toInt)

/-- R262, R263, R253: TAILCALL builds the callee's frame at the current base from the top `A` words, all
read before any is written, with the current frame's saved pc and saved lv; `lv` and `depth` stay. (The
link is stored as a Word: log 11.) -/
def Obligations.TailcallReusesTheFrame : Prop :=
  ∀ (s : State) (i : Half) (e link spc slv : Word) (A L : Nat) (args : List Word), Sound s →
    s.callee i e A L → s.depth ≠ 0 → s.frame link spc slv → A ≤ s.sp → args.length = A →
    (∀ (k : Nat) (w : Word), args[k]? = some w → s.stack.read s.cfg (s.sp - A + k) = some w) →
    s.lv.toInt + A ≤ s.cap → s.lv.toNat + A + L + 2 ≤ s.cfg.stackCapMax →
    ∃ t, exec (.tailcall i) s = .next t ∧
      t = { s with pc := e + 4, sp := s.lv.toNat + A + L + 2, cap := t.cap, stack := t.stack } ∧
      Grown s.cap t.cap (s.lv.toNat + A + L + 2) ∧
      ∀ j : Int, t.cell j =
        if j < s.lv.toInt then s.cell j
        else if j = s.lv.toInt then some (BitVec.ofNat 32 (s.lv.toNat + A + L))
        else if j < s.lv.toInt + A then args[(j - s.lv.toInt).toNat]?
        else if j < s.lv.toInt + A + L then some s.cfg.localInit
        else if j = s.lv.toInt + A + L then some spc
        else if j = s.lv.toInt + A + L + 1 then some slv
        else s.cell j

/-- R257: from a call with `A >= 1` to a return from its frame, reached with the frame's own cells
intact, the caller sees its `lv` and `depth`, the address after the call, `sp` less `A` plus 1, and the
result where its first pushed word was. (The bound 2^31 is the model's, log 11: below it an index stored
as a Word reads back as itself.) -/
def Obligations.ReturnRestoresTheCaller : Prop :=
  ∀ (s t u : State) (i : Half) (e r : Word) (A L : Nat), Sound s → s.callee i e A L → 1 ≤ A → A ≤ s.sp →
    s.sp + L + 2 ≤ s.cfg.stackCapMax → s.sp + L + 2 < 2 ^ 31 →
    exec (.invokevirtual i) s = .next t →
    u.lv = t.lv → u.depth = t.depth → u.depth ≠ 0 → u.sp ≤ u.cap → t.sp < u.sp → u.endsIn [r] →
    (∀ j : Int, j = t.lv.toInt ∨ j = s.sp + L ∨ j = s.sp + L + 1 → u.cell j = t.cell j) →
    (∀ j : Int, j < (s.sp - A : Nat) → u.cell j = t.cell j) →
    ∃ v, exec .ireturn u = .next v ∧ v.pc = s.pc + 3 ∧ v.lv = s.lv ∧ v.sp = s.sp - A + 1 ∧
      v.depth = s.depth ∧ v.endsIn [r] ∧ ∀ j : Int, j < (s.sp - A : Nat) → v.cell j = s.cell j

/-- R250, R261: a callee that does not resolve. Both calls report an index past the constant pool, an entry
whose header is not inside the text, and a header field with bit 15 set. -/
def Obligations.CallsOfBadCalleesAreUndefined : Prop :=
  ∀ (s : State) (k : Half), ∀ i ∈ [Instr.invokevirtual k, .tailcall k],
    (s.cp.length ≤ k.toNat → ∃ t, exec i s = .next t ∧ t.reportsUndef .cpRange) ∧
    ∀ e, s.cp[k.toNat]? = some e →
      (e.toInt < 0 ∨ (s.text.length : Int) ≤ e.toInt + 3 →
        ∃ t, exec i s = .next t ∧ t.reportsUndef .truncated) ∧
      ∀ a1 a0 l1 l0 : Byte, 0 ≤ e.toInt → (s.text.drop e.toNat).take 4 = [a1, a0, l1, l0] →
        0x80 ≤ a1.toNat ∨ 0x80 ≤ l1.toNat →
        ∃ t, exec i s = .next t ∧ t.reportsUndef .headerRange

/-- R251, R256, R262: fewer words on the stack than the callee takes is `Fatal(STACK_INDEX)`; at depth 0
there is no frame to return from or to reuse; a return below the frame's base is undefined. -/
def Obligations.FrameErrorsEndTheRun : Prop :=
  ∀ (s : State),
    (∀ i e A L, s.callee i e A L → s.sp < A →
      ∃ t, exec (.invokevirtual i) s = .next t ∧ t.reportsFatal .stackIndex) ∧
    (∀ i e A L link spc slv, s.callee i e A L → s.sp < A → s.depth ≠ 0 → s.frame link spc slv →
      ∃ t, exec (.tailcall i) s = .next t ∧ t.reportsFatal .stackIndex) ∧
    (∀ i e A L link spc slv, s.callee i e A L → A ≤ s.sp → s.sp ≤ s.cap → s.depth ≠ 0 →
      s.frame link spc slv → (∀ k, s.sp - A ≤ k → k < s.sp → s.stack.read s.cfg k ≠ none) →
      (s.cap : Int) < s.lv.toInt + A →
      ∃ t, exec (.tailcall i) s = .next t ∧ t.reportsFatal .stackIndex) ∧
    (s.depth = 0 → ∃ t, exec .ireturn s = .next t ∧ t.reportsUndef .frameUnderflow) ∧
    (∀ i e A L, s.callee i e A L → s.depth = 0 →
      ∃ t, exec (.tailcall i) s = .next t ∧ t.reportsUndef .frameUnderflow) ∧
    ∀ r link npc nlv, s.depth ≠ 0 → s.endsIn [r] → s.frame link npc nlv → (s.sp : Int) ≤ s.lv.toInt →
      ∃ t, exec .ireturn s = .next t ∧ t.reportsUndef .unwindBelowBase

/-- R256, R262, R57, R58: IRETURN and TAILCALL read the link at `lv` and then the two cells it names; the
first of them that does not exist is `Fatal(STACK_INDEX)`, the first never written `Undefined(UNWRITTEN_READ)`. -/
def Obligations.FramesThatCannotBeReadEndTheRun : Prop :=
  ∀ (s : State) (i : Instr) (j : Int), s.depth ≠ 0 →
    (i = .ireturn ∧ ∃ r, s.endsIn [r]) ∨ (∃ k e A L, i = .tailcall k ∧ s.callee k e A L) →
    j = s.lv.toInt ∨ (∃ link, s.cell s.lv.toInt = some link ∧
      (j = link.toInt ∨ s.cell link.toInt ≠ none ∧ j = link.toInt + 1)) →
    (j < 0 ∨ (s.cap : Int) ≤ j → ∃ t, exec i s = .next t ∧ t.reportsFatal .stackIndex) ∧
    (0 ≤ j → j < s.cap → s.cell j = none → ∃ t, exec i s = .next t ∧ t.reportsUndef .unwrittenRead)

/-! ### Errors of the Value Stack (spec/60_exceptions.md R302, R304) -/

/-- R61, R62, R302: an instruction that pops or reads more Words than the stack holds is
`Fatal(STACK_UNDERFLOW)`. -/
def Obligations.StackUnderflowIsFatal : Prop :=
  ∀ (s : State) (i : Instr) (pops : Nat),
    (i ∈ [Instr.dup, .pop, .out, .newarray] ∧ pops = 1) ∨
    (((∃ off, i = .ifeq off ∨ i = .iflt off) ∨ (∃ k, i = .istore k) ∨ ∃ k, i = .wideIstore k) ∧ pops = 1) ∨
    (i = .ireturn ∧ s.depth ≠ 0 ∧ pops = 1) ∨
    ((i ∈ [Instr.swap, .iadd, .isub, .iand, .ior, .iaload] ∨ ∃ off, i = .ifIcmpeq off) ∧ pops = 2) ∨
    (i = .iastore ∧ pops = 3) →
    s.sp < pops → (∀ k, k < s.sp → s.stack.read s.cfg k ≠ none) →
    ∃ t, exec i s = .next t ∧ t.reportsFatal .stackUnderflow

/-- R56, R302: an instruction that pushes where the stack is at its capacity and cannot grow is
`Fatal(STACK_ALLOC)`, IN after EOF among them; IN has then still consumed the host's answer (R170), which
the model's list of answers shows (logs 1, 2). -/
def Obligations.PushesWithoutRoomAreFatal : Prop :=
  ∀ s : State, ¬ s.hasRoom →
    (∀ b, ∃ t, exec (.bipush b) s = .next t ∧ t.reportsFatal .stackAlloc) ∧
    (∀ v, s.endsIn [v] → ∃ t, exec .dup s = .next t ∧ t.reportsFatal .stackAlloc) ∧
    (∀ (k : Half), k.toNat < s.cp.length → ∃ t, exec (.ldcW k) s = .next t ∧ t.reportsFatal .stackAlloc) ∧
    (∀ (k : Byte) v, s.cell (s.lv.toInt + k.toNat) = some v →
      ∃ t, exec (.iload k) s = .next t ∧ t.reportsFatal .stackAlloc) ∧
    (∀ (k : Half) v, s.cell (s.lv.toInt + k.toNat) = some v →
      ∃ t, exec (.wideIload k) s = .next t ∧ t.reportsFatal .stackAlloc) ∧
    (∀ a as, s.eof = false → s.answers = a :: as →
      ∃ t, exec .inp s = .next t ∧ t.reportsFatal .stackAlloc ∧ t.answers = as) ∧
    (s.eof = true → ∃ t, exec .inp s = .next t ∧ t.reportsFatal .stackAlloc ∧ t.answers = s.answers)

/-- R251, R262, R302: a call whose frame is larger than the platform's stack is `Fatal(STACK_ALLOC)`. -/
def Obligations.CallsWithoutRoomAreFatal : Prop :=
  ∀ (s : State) (i : Half) (e : Word) (A L : Nat), Sound s → s.callee i e A L → A ≤ s.sp →
    (s.cfg.stackCapMax < s.sp + L + 2 →
      ∃ t, exec (.invokevirtual i) s = .next t ∧ t.reportsFatal .stackAlloc) ∧
    ∀ link spc slv, s.depth ≠ 0 → s.frame link spc slv →
      (∀ k, s.sp - A ≤ k → k < s.sp → s.stack.read s.cfg k ≠ none) → s.lv.toInt + A ≤ s.cap →
      s.cfg.stackCapMax < s.lv.toNat + A + L + 2 →
      ∃ t, exec (.tailcall i) s = .next t ∧ t.reportsFatal .stackAlloc

/-! ### Rules of the whole machine -/

/-- R31, R85, R30: no step writes the text or the constant pool of a valid instance. -/
def Obligations.TextAndConstantsAreNeverWritten : Prop :=
  ∀ s t : State, Run s t → ¬ t.faulted → t.text = s.text ∧ t.cp = s.cp

/-- R25, R27, R37: `depth` and `lv` change in INVOKEVIRTUAL and IRETURN alone, by one up and one down. -/
def Obligations.OnlyCallsAndReturnsChangeDepthAndLv : Prop :=
  ∀ (i : Instr) (s t : State), exec i s = .next t → ¬ t.faulted →
    ((∃ k, i = .invokevirtual k) → t.depth = s.depth + 1) ∧
    (i = .ireturn → t.depth = s.depth - 1) ∧
    ((∀ k, i ≠ .invokevirtual k) → i ≠ .ireturn → t.depth = s.depth ∧ t.lv = s.lv)

/-- R34, R37: OUT alone writes `OUTLOG`, one byte at its end; along a run the log only grows. -/
def Obligations.OnlyOutWritesTheOutputLog : Prop :=
  (∀ (i : Instr) (s t : State), exec i s = .next t → ¬ t.faulted →
    (i ≠ .out → t.outlog = s.outlog) ∧ (i = .out → ∃ b, t.outlog = s.outlog ++ [b])) ∧
  ∀ s t : State, Run s t → ¬ t.faulted → s.outlog <+: t.outlog

/-- R33, R64, R69: along a run no array is removed, moved or resized, and only IASTORE changes one. -/
def Obligations.ArraysAreNeverRemovedOrResized : Prop :=
  (∀ s t : State, Run s t → ¬ t.faulted → ∀ (r : Nat) (a : List Word), s.heap[r]? = some a →
    ∃ a', t.heap[r]? = some a' ∧ a'.length = a.length) ∧
  ∀ (i : Instr) (s t : State), exec i s = .next t → ¬ t.faulted → i ≠ .iastore → s.heap <+: t.heap

/-- R56, R65: neither capacity ever shrinks. -/
def Obligations.CapacitiesNeverShrink : Prop :=
  ∀ s t : State, Run s t → ¬ t.faulted → s.cap ≤ t.cap ∧ s.hcap ≤ t.hcap

/-- R75, R365, R345: only IN consumes the host's answers, in the order given, and once the host has
answered EOF no later IN of the run asks again. The list of answers is the model's (log 2), and no error
touches it (log 1). -/
def Obligations.OnlyInConsumesTheHostsAnswers : Prop :=
  (∀ (i : Instr) (s t : State), exec i s = .next t → i ≠ .inp → t.answers = s.answers ∧ t.eof = s.eof) ∧
  ∀ s t : State, Run s t → t.answers <:+ s.answers ∧ (s.eof = true → t.eof = true ∧ t.answers = s.answers)
end

