-- ==== Sys2Proof/Laws/Block.lean ====
section
/-! SUPPORT. What the host sees of a STEP: when IN holds, and the block after the step. -/

namespace Sys2Proof.Machine

/-- What a running core fetches where the bytes at `pc` decode (spec/30_encoding.md R91). -/
theorem fetch_instr {s : State} {i : Instr} {rest : List Byte} (hs : s.status = .run) (hpc : 0 ≤ s.pc.toInt)
    (hd : decode s.cfg.opcodeMap (s.text.drop s.pc.toNat) = .instr i rest) : fetch s = .runs i := by
  unfold fetch
  rw [hs]
  simp only
  rw [if_neg (by omega), hd]

/-- IN holds exactly where the host has answered neither a byte nor EOF (spec/20_memory.md R75, R365). -/
theorem withheld_iff {s : State} : s.withheld = true ↔ s.eof = false ∧ s.answers = [] := by
  unfold State.withheld inByte
  by_cases he : s.eof = true
  · simp [he]
  · rcases ha : s.answers with _ | ⟨_ | _, as⟩ <;> simp [he]

/-- A failed LOAD leaves no machine, and keeps the count of the free values drawn (log 22). -/
theorem block_load_error {b : Block} {image rest : List Byte} {storage : Bool} {r : LoadError}
    (h : load b.cfg storage image = .error r rest) :
    b.load image storage = ({ b with machine := none, draws := b.drawn }, .loadError r) := by
  simp [Block.load, h]

/-- A successful LOAD replaces any machine, and carries that count over. -/
theorem block_load_ok {b : Block} {image rest : List Byte} {storage : Bool} {s : State}
    (h : load b.cfg storage image = .ok s rest) :
    b.load image storage = ({ b with machine := some { s with draws := b.drawn } }, .ok) := by
  simp [Block.load, h]

/-- No LOAD, failed or not, makes that count smaller or starts it again. -/
theorem block_load_drawn (b : Block) (image : List Byte) (storage : Bool) :
    (b.load image storage).1.drawn = b.drawn := by
  cases h : load b.cfg storage image with
  | ok s rest => simp [block_load_ok h, Block.drawn]
  | error r rest => rw [block_load_error h]; rfl

/-- A STEP of a block with a machine leaves the machine that the step answers, and the reply of `stepReply`. -/
theorem block_step_of {b : Block} {s t : State} (hb : b.machine = some s) (ht : step s = .next t) :
    b.step = ({ b with machine := some t }, stepReply s) := by
  simp [Block.step, hb, ht]

/-- The reply to a STEP that runs an instruction. -/
theorem stepReply_of {s : State} {i : Instr} (h : fetch s = .runs i) :
    stepReply s = if i = .inp ∧ s.withheld = true then .holds else .stepped (sends i s) := by
  simp [stepReply, h]

end Sys2Proof.Machine
end

