-- ==== Sys2Proof/Laws/Encoding.lean ====
section
/-! SUPPORT. The parts of decoding: the opcode map inverted, and 16-bit fields taken apart and put
together. -/

namespace Sys2Proof

theorem opcode_mem_all (k : Opcode) : k ∈ Opcode.all := by cases k <;> decide

/-- Distinct bytes: equal bytes are the same mnemonic's. -/
theorem byte_injective {m : OpcodeMap} (h : m.Distinct) {j k : Opcode} (e : m.byte j = m.byte k) : j = k :=
  List.inj_on_of_nodup_map h (opcode_mem_all j) (opcode_mem_all k) e

/-- The byte of a mnemonic is looked up as that mnemonic. -/
theorem lookup_byte {m : OpcodeMap} (h : m.Distinct) (k : Opcode) : m.lookup (m.byte k) = some k := by
  unfold OpcodeMap.lookup
  cases hf : Opcode.all.find? (fun j => m.byte j == m.byte k) with
  | none => exact absurd (List.find?_eq_none.1 hf k (opcode_mem_all k)) (by simp)
  | some j => exact congrArg some (byte_injective h (by simpa using List.find?_some hf))

/-- A byte looked up is that mnemonic's byte. -/
theorem byte_of_lookup {m : OpcodeMap} {b : Byte} {k : Opcode} (h : m.lookup b = some k) : m.byte k = b := by
  simpa using List.find?_some h

/-- A byte is looked up as nothing exactly where it is no mnemonic's. -/
theorem lookup_eq_none {m : OpcodeMap} {b : Byte} : m.lookup b = none ↔ ∀ k : Opcode, m.byte k ≠ b := by
  simp [OpcodeMap.lookup, opcode_mem_all]

@[simp] theorem be16_hi_lo (h : Half) : be16 (hiByte h) (loByte h) = h := by
  apply BitVec.eq_of_getLsbD_eq
  intro i hi
  simp only [be16, hiByte, loByte, BitVec.getLsbD_append, BitVec.getLsbD_extractLsb']
  by_cases h8 : i < 8
  · simp [h8]
  · simp [h8, show i - 8 < 8 by omega, show 8 + (i - 8) = i by omega]

@[simp] theorem hiByte_be16 (h l : Byte) : hiByte (be16 h l) = h := by
  apply BitVec.eq_of_getElem_eq
  intro i hi
  rw [hiByte, BitVec.getElem_extractLsb', be16, BitVec.getLsbD_append]
  simp [hi, BitVec.getLsbD_eq_getElem]

@[simp] theorem loByte_be16 (h l : Byte) : loByte (be16 h l) = l := by
  apply BitVec.eq_of_getElem_eq
  intro i hi
  rw [loByte, BitVec.getElem_extractLsb', be16, BitVec.getLsbD_append]
  simp [hi, BitVec.getLsbD_eq_getElem]

/-- The number a 16-bit field stands for. -/
theorem be16_toNat (h l : Byte) : (be16 h l).toNat = 256 * h.toNat + l.toNat := by
  have hl := l.isLt
  rw [be16, BitVec.toNat_append, Nat.shiftLeft_eq, Nat.mul_comm, ← Nat.two_pow_add_eq_or_of_lt hl]

end Sys2Proof
end

