-- ==== Sys2Proof/Laws/Memory.lean ====
section
/-! SUPPORT. The laws of the stack RAM: a read after a write, other cells untouched, and every operation
keeps the canonical form. -/

namespace Sys2Proof.Machine

variable {p : Params}

theorem memory_read_erase_self (m : Memory) (i : Nat) :
    Memory.read p (Memory.erase i m) i = Memory.unlisted p i := by
  induction m with
  | nil => rfl
  | cons c m ih =>
    obtain ⟨j, w⟩ := c
    by_cases h : j = i
    · simpa [Memory.erase, h] using ih
    · simpa [Memory.erase, h, Memory.read, Ne.symm h] using ih

theorem memory_read_erase_other (m : Memory) {i k : Nat} (hk : k ≠ i) :
    Memory.read p (Memory.erase i m) k = Memory.read p m k := by
  induction m with
  | nil => rfl
  | cons c m ih =>
    obtain ⟨j, w⟩ := c
    by_cases h : j = i
    · subst h; simpa [Memory.erase, Memory.read, hk] using ih
    · by_cases hkj : k = j
      · simp [Memory.erase, h, Memory.read, hkj]
      · simpa [Memory.erase, h, Memory.read, hkj] using ih

theorem memory_read_insert (m : Memory) (i k : Nat) (v : Word) :
    Memory.read p (Memory.insert i v m) k = if k = i then some v else Memory.read p m k := by
  induction m with
  | nil => rfl
  | cons c m ih =>
    obtain ⟨j, w⟩ := c
    unfold Memory.insert
    split
    · simp [Memory.read]
    · split
      · subst_vars; by_cases hk : k = j <;> simp [Memory.read, hk]
      · rename_i hij
        by_cases hk : k = j
        · simp [Memory.read, hk, Ne.symm hij]
        · simp [Memory.read, hk, ih]

/-- A read after a write: the Word written, and every other cell as before. -/
theorem memory_read_write (m : Memory) (i k : Nat) (v : Word) :
    (m.write p i v).read p k = if k = i then some v else m.read p k := by
  unfold Memory.write
  split
  · rename_i h
    split
    · subst_vars; rw [memory_read_erase_self, h]
    · rename_i hk; exact memory_read_erase_other m hk
  · exact memory_read_insert m i k v

@[simp] theorem memory_read_write_self (m : Memory) (i : Nat) (v : Word) :
    (m.write p i v).read p i = some v := by simp [memory_read_write]

theorem memory_read_write_other (m : Memory) {i k : Nat} (v : Word) (h : k ≠ i) :
    (m.write p i v).read p k = m.read p k := by simp [memory_read_write, h]

/-- Growth keeps every cell below the old capacity (R56). -/
theorem memory_read_below (m : Memory) {n k : Nat} (h : k < n) : (m.below n).read p k = m.read p k := by
  induction m with
  | nil => rfl
  | cons c m ih =>
    obtain ⟨j, w⟩ := c
    by_cases hj : j < n
    · simp only [Memory.below, List.filter_cons, hj, decide_true, if_true, Memory.read] at *
      rw [ih]
    · have : k ≠ j := by omega
      simpa [Memory.below, hj, Memory.read, this] using ih

/-- From the old capacity on every cell reads as an unlisted one (R56). -/
theorem memory_read_below_ge (m : Memory) {n k : Nat} (h : n ≤ k) :
    (m.below n).read p k = Memory.unlisted p k := by
  induction m with
  | nil => rfl
  | cons c m ih =>
    obtain ⟨j, w⟩ := c
    by_cases hj : j < n
    · have : k ≠ j := by omega
      simpa [Memory.below, hj, Memory.read, this] using ih
    · simpa [Memory.below, hj] using ih

theorem memory_mem_insert {m : Memory} {i : Nat} {v : Word} {c : Nat × Word}
    (h : c ∈ Memory.insert i v m) : c = (i, v) ∨ c ∈ m := by
  induction m with
  | nil => simpa [Memory.insert] using h
  | cons d m ih =>
    obtain ⟨j, w⟩ := d
    unfold Memory.insert at h
    split at h
    · simpa using h
    · split at h
      · rcases List.mem_cons.1 h with h | h
        · exact .inl h
        · exact .inr (List.mem_cons_of_mem _ h)
      · rcases List.mem_cons.1 h with h | h
        · exact .inr (by simp [h])
        · exact (ih h).imp id (List.mem_cons_of_mem _)

theorem memory_wf_nil : Memory.wf p [] := by simp [Memory.wf]

theorem memory_wf_filter {m : Memory} (h : m.wf p) (f : Nat × Word → Bool) : Memory.wf p (m.filter f) :=
  ⟨h.1.filter _, fun c hc => h.2 c (List.mem_of_mem_filter hc)⟩

theorem memory_wf_insert {m : Memory} {i : Nat} {v : Word} (h : m.wf p) (hv : Memory.unlisted p i ≠ some v) :
    (Memory.insert i v m).wf p := by
  refine ⟨?_, fun c hc => ?_⟩
  · have hp := h.1
    clear h hv
    induction m with
    | nil => simp [Memory.insert]
    | cons d m ih =>
      obtain ⟨j, w⟩ := d
      rw [List.pairwise_cons] at hp
      unfold Memory.insert
      split
      · rename_i hij
        refine List.pairwise_cons.2 ⟨fun c hc => ?_, List.pairwise_cons.2 hp⟩
        rcases List.mem_cons.1 hc with rfl | hc
        · exact hij
        · exact Nat.lt_trans hij (hp.1 c hc)
      · split
        · subst_vars; exact List.pairwise_cons.2 hp
        · refine List.pairwise_cons.2 ⟨fun c hc => ?_, ih hp.2⟩
          rcases memory_mem_insert hc with rfl | hc
          · simp only; omega
          · exact hp.1 c hc
  · rcases memory_mem_insert hc with rfl | hc
    · exact hv
    · exact h.2 c hc

/-- A write keeps the canonical form. -/
theorem memory_wf_write {m : Memory} (h : m.wf p) (i : Nat) (v : Word) : (m.write p i v).wf p := by
  unfold Memory.write
  split
  · exact memory_wf_filter h _
  · exact memory_wf_insert h ‹_›

/-- Growth keeps the canonical form. -/
theorem memory_wf_below {m : Memory} (h : m.wf p) (n : Nat) : (m.below n).wf p := memory_wf_filter h _

theorem memory_wf_ofCells (cells : List (Nat × Word)) : (Memory.ofCells p cells).wf p := by
  induction cells with
  | nil => exact memory_wf_nil
  | cons c cells ih => exact memory_wf_write ih _ _

/-- A write lists no cell but the one written. -/
theorem memory_mem_write {m : Memory} {i : Nat} {v : Word} {c : Nat × Word} (h : c ∈ m.write p i v) :
    c.1 = i ∨ c ∈ m := by
  unfold Memory.write at h
  split at h
  · exact .inr (List.mem_of_mem_filter h)
  · exact (memory_mem_insert h).imp (fun h => by rw [h]) id

theorem memory_mem_below {m : Memory} {n : Nat} {c : Nat × Word} (h : c ∈ m.below n) :
    c ∈ m ∧ c.1 < n := by simpa [Memory.below] using h

/-- A cell that the list does not mention reads as an unlisted one. -/
theorem memory_read_unlisted {m : Memory} {i : Nat} (h : ∀ c ∈ m, c.1 ≠ i) : m.read p i = Memory.unlisted p i := by
  induction m with
  | nil => rfl
  | cons c m ih => 
    obtain ⟨j, w⟩ := c
    rw [Memory.read, if_neg (fun e => h (j,w) (by simp) e.symm)]
    exact ih fun c hc => h c (by simp [hc])

/-- The canonical form: stack RAMs that read alike are equal lists (log 13). -/
theorem memory_ext {m m' : Memory} (h : m.wf p) (h' : m'.wf p) (he : ∀ i, m.read p i = m'.read p i) : m = m' := by
  induction m generalizing m' with
  | nil =>
    cases m' with
    | nil => rfl
    | cons c m' =>
      have := he c.1
      obtain ⟨j, w⟩ := c
      simp [Memory.read] at this
      exact absurd this (h'.2 (j,w) (by simp))
  | cons c m ih =>
    obtain ⟨j, w⟩ := c
    cases m' with
    | nil =>
      have := he j
      simp [Memory.read] at this
      exact absurd this.symm (h.2 (j,w) (by simp))
    | cons d m' =>
      obtain ⟨k, v⟩ := d
      have hp := List.pairwise_cons.1 h.1
      have hp' := List.pairwise_cons.1 h'.1
      have hjk : j = k := by
        rcases Nat.lt_trichotomy j k with hlt | he' | hlt
        · have := he j
          rw [Memory.read, if_pos rfl, Memory.read, if_neg (by omega), memory_read_unlisted] at this
          · exact absurd this.symm (h.2 (j,w) (by simp))
          · intro c hc; have := hp'.1 c hc; simp only at this; omega
        · exact he'
        · have := he k
          rw [Memory.read, if_neg (by omega), memory_read_unlisted, Memory.read, if_pos rfl] at this
          · exact absurd this (h'.2 (k,v) (by simp))
          · intro c hc; have := hp.1 c hc; simp only at this; omega
      subst hjk
      have hv := he j
      simp [Memory.read] at hv
      subst hv
      rw [ih (m' := m') ⟨hp.2, fun c hc => h.2 c (by simp [hc])⟩ ⟨hp'.2, fun c hc => h'.2 c (by simp [hc])⟩ ?_]
      intro i
      have := he i
      by_cases hi : i = j
      · subst hi
        rw [memory_read_unlisted (fun c hc => by have := hp.1 c hc; simp only at this; omega), memory_read_unlisted (fun c hc => by have := hp'.1 c hc; simp only at this; omega)]
      · simpa [Memory.read, hi] using this

end Sys2Proof.Machine
end

