-- ==== Sys2Proof/Laws/State.lean ====
section
/-! SUPPORT. The fields of the state after each named update, true by definition. -/

namespace Sys2Proof.Machine

variable (s : State)

@[simp] theorem State.setPc_pc (v : Word) : (s.setPc v).pc = v := rfl
@[simp] theorem State.setPc_lv (v : Word) : (s.setPc v).lv = s.lv := rfl
@[simp] theorem State.setPc_sp (v : Word) : (s.setPc v).sp = s.sp := rfl
@[simp] theorem State.setPc_depth (v : Word) : (s.setPc v).depth = s.depth := rfl
@[simp] theorem State.setPc_status (v : Word) : (s.setPc v).status = s.status := rfl
@[simp] theorem State.setPc_cause (v : Word) : (s.setPc v).cause = s.cause := rfl
@[simp] theorem State.setPc_cap (v : Word) : (s.setPc v).cap = s.cap := rfl
@[simp] theorem State.setPc_hcap (v : Word) : (s.setPc v).hcap = s.hcap := rfl
@[simp] theorem State.setPc_stack (v : Word) : (s.setPc v).stack = s.stack := rfl
@[simp] theorem State.setPc_cp (v : Word) : (s.setPc v).cp = s.cp := rfl
@[simp] theorem State.setPc_text (v : Word) : (s.setPc v).text = s.text := rfl
@[simp] theorem State.setPc_heap (v : Word) : (s.setPc v).heap = s.heap := rfl
@[simp] theorem State.setPc_outlog (v : Word) : (s.setPc v).outlog = s.outlog := rfl
@[simp] theorem State.setPc_cfg (v : Word) : (s.setPc v).cfg = s.cfg := rfl
@[simp] theorem State.setPc_answers (v : Word) : (s.setPc v).answers = s.answers := rfl
@[simp] theorem State.setPc_eof (v : Word) : (s.setPc v).eof = s.eof := rfl
@[simp] theorem State.setPc_draws (v : Word) : (s.setPc v).draws = s.draws := rfl

@[simp] theorem State.setLv_pc (v : Word) : (s.setLv v).pc = s.pc := rfl
@[simp] theorem State.setLv_lv (v : Word) : (s.setLv v).lv = v := rfl
@[simp] theorem State.setLv_sp (v : Word) : (s.setLv v).sp = s.sp := rfl
@[simp] theorem State.setLv_depth (v : Word) : (s.setLv v).depth = s.depth := rfl
@[simp] theorem State.setLv_status (v : Word) : (s.setLv v).status = s.status := rfl
@[simp] theorem State.setLv_cause (v : Word) : (s.setLv v).cause = s.cause := rfl
@[simp] theorem State.setLv_cap (v : Word) : (s.setLv v).cap = s.cap := rfl
@[simp] theorem State.setLv_hcap (v : Word) : (s.setLv v).hcap = s.hcap := rfl
@[simp] theorem State.setLv_stack (v : Word) : (s.setLv v).stack = s.stack := rfl
@[simp] theorem State.setLv_cp (v : Word) : (s.setLv v).cp = s.cp := rfl
@[simp] theorem State.setLv_text (v : Word) : (s.setLv v).text = s.text := rfl
@[simp] theorem State.setLv_heap (v : Word) : (s.setLv v).heap = s.heap := rfl
@[simp] theorem State.setLv_outlog (v : Word) : (s.setLv v).outlog = s.outlog := rfl
@[simp] theorem State.setLv_cfg (v : Word) : (s.setLv v).cfg = s.cfg := rfl
@[simp] theorem State.setLv_answers (v : Word) : (s.setLv v).answers = s.answers := rfl
@[simp] theorem State.setLv_eof (v : Word) : (s.setLv v).eof = s.eof := rfl
@[simp] theorem State.setLv_draws (v : Word) : (s.setLv v).draws = s.draws := rfl

@[simp] theorem State.setSp_pc (n : Nat) : (s.setSp n).pc = s.pc := rfl
@[simp] theorem State.setSp_lv (n : Nat) : (s.setSp n).lv = s.lv := rfl
@[simp] theorem State.setSp_sp (n : Nat) : (s.setSp n).sp = n := rfl
@[simp] theorem State.setSp_depth (n : Nat) : (s.setSp n).depth = s.depth := rfl
@[simp] theorem State.setSp_status (n : Nat) : (s.setSp n).status = s.status := rfl
@[simp] theorem State.setSp_cause (n : Nat) : (s.setSp n).cause = s.cause := rfl
@[simp] theorem State.setSp_cap (n : Nat) : (s.setSp n).cap = s.cap := rfl
@[simp] theorem State.setSp_hcap (n : Nat) : (s.setSp n).hcap = s.hcap := rfl
@[simp] theorem State.setSp_stack (n : Nat) : (s.setSp n).stack = s.stack := rfl
@[simp] theorem State.setSp_cp (n : Nat) : (s.setSp n).cp = s.cp := rfl
@[simp] theorem State.setSp_text (n : Nat) : (s.setSp n).text = s.text := rfl
@[simp] theorem State.setSp_heap (n : Nat) : (s.setSp n).heap = s.heap := rfl
@[simp] theorem State.setSp_outlog (n : Nat) : (s.setSp n).outlog = s.outlog := rfl
@[simp] theorem State.setSp_cfg (n : Nat) : (s.setSp n).cfg = s.cfg := rfl
@[simp] theorem State.setSp_answers (n : Nat) : (s.setSp n).answers = s.answers := rfl
@[simp] theorem State.setSp_eof (n : Nat) : (s.setSp n).eof = s.eof := rfl
@[simp] theorem State.setSp_draws (n : Nat) : (s.setSp n).draws = s.draws := rfl

@[simp] theorem State.setDepth_pc (d : BitVec 32) : (s.setDepth d).pc = s.pc := rfl
@[simp] theorem State.setDepth_lv (d : BitVec 32) : (s.setDepth d).lv = s.lv := rfl
@[simp] theorem State.setDepth_sp (d : BitVec 32) : (s.setDepth d).sp = s.sp := rfl
@[simp] theorem State.setDepth_depth (d : BitVec 32) : (s.setDepth d).depth = d := rfl
@[simp] theorem State.setDepth_status (d : BitVec 32) : (s.setDepth d).status = s.status := rfl
@[simp] theorem State.setDepth_cause (d : BitVec 32) : (s.setDepth d).cause = s.cause := rfl
@[simp] theorem State.setDepth_cap (d : BitVec 32) : (s.setDepth d).cap = s.cap := rfl
@[simp] theorem State.setDepth_hcap (d : BitVec 32) : (s.setDepth d).hcap = s.hcap := rfl
@[simp] theorem State.setDepth_stack (d : BitVec 32) : (s.setDepth d).stack = s.stack := rfl
@[simp] theorem State.setDepth_cp (d : BitVec 32) : (s.setDepth d).cp = s.cp := rfl
@[simp] theorem State.setDepth_text (d : BitVec 32) : (s.setDepth d).text = s.text := rfl
@[simp] theorem State.setDepth_heap (d : BitVec 32) : (s.setDepth d).heap = s.heap := rfl
@[simp] theorem State.setDepth_outlog (d : BitVec 32) : (s.setDepth d).outlog = s.outlog := rfl
@[simp] theorem State.setDepth_cfg (d : BitVec 32) : (s.setDepth d).cfg = s.cfg := rfl
@[simp] theorem State.setDepth_answers (d : BitVec 32) : (s.setDepth d).answers = s.answers := rfl
@[simp] theorem State.setDepth_eof (d : BitVec 32) : (s.setDepth d).eof = s.eof := rfl
@[simp] theorem State.setDepth_draws (d : BitVec 32) : (s.setDepth d).draws = s.draws := rfl

@[simp] theorem State.setCell_pc (i : Nat) (v : Word) : (s.setCell i v).pc = s.pc := rfl
@[simp] theorem State.setCell_lv (i : Nat) (v : Word) : (s.setCell i v).lv = s.lv := rfl
@[simp] theorem State.setCell_sp (i : Nat) (v : Word) : (s.setCell i v).sp = s.sp := rfl
@[simp] theorem State.setCell_depth (i : Nat) (v : Word) : (s.setCell i v).depth = s.depth := rfl
@[simp] theorem State.setCell_status (i : Nat) (v : Word) : (s.setCell i v).status = s.status := rfl
@[simp] theorem State.setCell_cause (i : Nat) (v : Word) : (s.setCell i v).cause = s.cause := rfl
@[simp] theorem State.setCell_cap (i : Nat) (v : Word) : (s.setCell i v).cap = s.cap := rfl
@[simp] theorem State.setCell_hcap (i : Nat) (v : Word) : (s.setCell i v).hcap = s.hcap := rfl
@[simp] theorem State.setCell_stack (i : Nat) (v : Word) : (s.setCell i v).stack = s.stack.write s.cfg i v := rfl
@[simp] theorem State.setCell_cp (i : Nat) (v : Word) : (s.setCell i v).cp = s.cp := rfl
@[simp] theorem State.setCell_text (i : Nat) (v : Word) : (s.setCell i v).text = s.text := rfl
@[simp] theorem State.setCell_heap (i : Nat) (v : Word) : (s.setCell i v).heap = s.heap := rfl
@[simp] theorem State.setCell_outlog (i : Nat) (v : Word) : (s.setCell i v).outlog = s.outlog := rfl
@[simp] theorem State.setCell_cfg (i : Nat) (v : Word) : (s.setCell i v).cfg = s.cfg := rfl
@[simp] theorem State.setCell_answers (i : Nat) (v : Word) : (s.setCell i v).answers = s.answers := rfl
@[simp] theorem State.setCell_eof (i : Nat) (v : Word) : (s.setCell i v).eof = s.eof := rfl
@[simp] theorem State.setCell_draws (i : Nat) (v : Word) : (s.setCell i v).draws = s.draws := rfl

@[simp] theorem State.setHeap_pc (h : List (List Word)) (n : Nat) : (s.setHeap h n).pc = s.pc := rfl
@[simp] theorem State.setHeap_lv (h : List (List Word)) (n : Nat) : (s.setHeap h n).lv = s.lv := rfl
@[simp] theorem State.setHeap_sp (h : List (List Word)) (n : Nat) : (s.setHeap h n).sp = s.sp := rfl
@[simp] theorem State.setHeap_depth (h : List (List Word)) (n : Nat) : (s.setHeap h n).depth = s.depth := rfl
@[simp] theorem State.setHeap_status (h : List (List Word)) (n : Nat) : (s.setHeap h n).status = s.status := rfl
@[simp] theorem State.setHeap_cause (h : List (List Word)) (n : Nat) : (s.setHeap h n).cause = s.cause := rfl
@[simp] theorem State.setHeap_cap (h : List (List Word)) (n : Nat) : (s.setHeap h n).cap = s.cap := rfl
@[simp] theorem State.setHeap_hcap (h : List (List Word)) (n : Nat) : (s.setHeap h n).hcap = n := rfl
@[simp] theorem State.setHeap_stack (h : List (List Word)) (n : Nat) : (s.setHeap h n).stack = s.stack := rfl
@[simp] theorem State.setHeap_cp (h : List (List Word)) (n : Nat) : (s.setHeap h n).cp = s.cp := rfl
@[simp] theorem State.setHeap_text (h : List (List Word)) (n : Nat) : (s.setHeap h n).text = s.text := rfl
@[simp] theorem State.setHeap_heap (h : List (List Word)) (n : Nat) : (s.setHeap h n).heap = h := rfl
@[simp] theorem State.setHeap_outlog (h : List (List Word)) (n : Nat) : (s.setHeap h n).outlog = s.outlog := rfl
@[simp] theorem State.setHeap_cfg (h : List (List Word)) (n : Nat) : (s.setHeap h n).cfg = s.cfg := rfl
@[simp] theorem State.setHeap_answers (h : List (List Word)) (n : Nat) : (s.setHeap h n).answers = s.answers := rfl
@[simp] theorem State.setHeap_eof (h : List (List Word)) (n : Nat) : (s.setHeap h n).eof = s.eof := rfl
@[simp] theorem State.setHeap_draws (h : List (List Word)) (n : Nat) : (s.setHeap h n).draws = s.draws := rfl

@[simp] theorem State.appendOut_pc (b : Byte) : (s.appendOut b).pc = s.pc := rfl
@[simp] theorem State.appendOut_lv (b : Byte) : (s.appendOut b).lv = s.lv := rfl
@[simp] theorem State.appendOut_sp (b : Byte) : (s.appendOut b).sp = s.sp := rfl
@[simp] theorem State.appendOut_depth (b : Byte) : (s.appendOut b).depth = s.depth := rfl
@[simp] theorem State.appendOut_status (b : Byte) : (s.appendOut b).status = s.status := rfl
@[simp] theorem State.appendOut_cause (b : Byte) : (s.appendOut b).cause = s.cause := rfl
@[simp] theorem State.appendOut_cap (b : Byte) : (s.appendOut b).cap = s.cap := rfl
@[simp] theorem State.appendOut_hcap (b : Byte) : (s.appendOut b).hcap = s.hcap := rfl
@[simp] theorem State.appendOut_stack (b : Byte) : (s.appendOut b).stack = s.stack := rfl
@[simp] theorem State.appendOut_cp (b : Byte) : (s.appendOut b).cp = s.cp := rfl
@[simp] theorem State.appendOut_text (b : Byte) : (s.appendOut b).text = s.text := rfl
@[simp] theorem State.appendOut_heap (b : Byte) : (s.appendOut b).heap = s.heap := rfl
@[simp] theorem State.appendOut_outlog (b : Byte) : (s.appendOut b).outlog = s.outlog ++ [b] := rfl
@[simp] theorem State.appendOut_cfg (b : Byte) : (s.appendOut b).cfg = s.cfg := rfl
@[simp] theorem State.appendOut_answers (b : Byte) : (s.appendOut b).answers = s.answers := rfl
@[simp] theorem State.appendOut_eof (b : Byte) : (s.appendOut b).eof = s.eof := rfl
@[simp] theorem State.appendOut_draws (b : Byte) : (s.appendOut b).draws = s.draws := rfl

@[simp] theorem State.setStatus_pc (st : Status) (c : Cause) : (s.setStatus st c).pc = s.pc := rfl
@[simp] theorem State.setStatus_lv (st : Status) (c : Cause) : (s.setStatus st c).lv = s.lv := rfl
@[simp] theorem State.setStatus_sp (st : Status) (c : Cause) : (s.setStatus st c).sp = s.sp := rfl
@[simp] theorem State.setStatus_depth (st : Status) (c : Cause) : (s.setStatus st c).depth = s.depth := rfl
@[simp] theorem State.setStatus_status (st : Status) (c : Cause) : (s.setStatus st c).status = st := rfl
@[simp] theorem State.setStatus_cause (st : Status) (c : Cause) : (s.setStatus st c).cause = c := rfl
@[simp] theorem State.setStatus_cap (st : Status) (c : Cause) : (s.setStatus st c).cap = s.cap := rfl
@[simp] theorem State.setStatus_hcap (st : Status) (c : Cause) : (s.setStatus st c).hcap = s.hcap := rfl
@[simp] theorem State.setStatus_stack (st : Status) (c : Cause) : (s.setStatus st c).stack = s.stack := rfl
@[simp] theorem State.setStatus_cp (st : Status) (c : Cause) : (s.setStatus st c).cp = s.cp := rfl
@[simp] theorem State.setStatus_text (st : Status) (c : Cause) : (s.setStatus st c).text = s.text := rfl
@[simp] theorem State.setStatus_heap (st : Status) (c : Cause) : (s.setStatus st c).heap = s.heap := rfl
@[simp] theorem State.setStatus_outlog (st : Status) (c : Cause) : (s.setStatus st c).outlog = s.outlog := rfl
@[simp] theorem State.setStatus_cfg (st : Status) (c : Cause) : (s.setStatus st c).cfg = s.cfg := rfl
@[simp] theorem State.setStatus_answers (st : Status) (c : Cause) : (s.setStatus st c).answers = s.answers := rfl
@[simp] theorem State.setStatus_eof (st : Status) (c : Cause) : (s.setStatus st c).eof = s.eof := rfl
@[simp] theorem State.setStatus_draws (st : Status) (c : Cause) : (s.setStatus st c).draws = s.draws := rfl

@[simp] theorem State.setHost_pc (as : List HostAnswer) (e : Bool) : (s.setHost as e).pc = s.pc := rfl
@[simp] theorem State.setHost_lv (as : List HostAnswer) (e : Bool) : (s.setHost as e).lv = s.lv := rfl
@[simp] theorem State.setHost_sp (as : List HostAnswer) (e : Bool) : (s.setHost as e).sp = s.sp := rfl
@[simp] theorem State.setHost_depth (as : List HostAnswer) (e : Bool) : (s.setHost as e).depth = s.depth := rfl
@[simp] theorem State.setHost_status (as : List HostAnswer) (e : Bool) : (s.setHost as e).status = s.status := rfl
@[simp] theorem State.setHost_cause (as : List HostAnswer) (e : Bool) : (s.setHost as e).cause = s.cause := rfl
@[simp] theorem State.setHost_cap (as : List HostAnswer) (e : Bool) : (s.setHost as e).cap = s.cap := rfl
@[simp] theorem State.setHost_hcap (as : List HostAnswer) (e : Bool) : (s.setHost as e).hcap = s.hcap := rfl
@[simp] theorem State.setHost_stack (as : List HostAnswer) (e : Bool) : (s.setHost as e).stack = s.stack := rfl
@[simp] theorem State.setHost_cp (as : List HostAnswer) (e : Bool) : (s.setHost as e).cp = s.cp := rfl
@[simp] theorem State.setHost_text (as : List HostAnswer) (e : Bool) : (s.setHost as e).text = s.text := rfl
@[simp] theorem State.setHost_heap (as : List HostAnswer) (e : Bool) : (s.setHost as e).heap = s.heap := rfl
@[simp] theorem State.setHost_outlog (as : List HostAnswer) (e : Bool) : (s.setHost as e).outlog = s.outlog := rfl
@[simp] theorem State.setHost_cfg (as : List HostAnswer) (e : Bool) : (s.setHost as e).cfg = s.cfg := rfl
@[simp] theorem State.setHost_answers (as : List HostAnswer) (e : Bool) : (s.setHost as e).answers = as := rfl
@[simp] theorem State.setHost_eof (as : List HostAnswer) (e : Bool) : (s.setHost as e).eof = e := rfl
@[simp] theorem State.setHost_draws (as : List HostAnswer) (e : Bool) : (s.setHost as e).draws = s.draws := rfl

theorem growIfFull_cap : (growIfFull s).cap = if s.sp = s.cap then 2 * s.cap else s.cap := rfl
theorem growIfFull_stack :
    (growIfFull s).stack = if s.sp = s.cap then s.stack.below s.cap else s.stack := rfl
@[simp] theorem growIfFull_pc : (growIfFull s).pc = s.pc := rfl
@[simp] theorem growIfFull_lv : (growIfFull s).lv = s.lv := rfl
@[simp] theorem growIfFull_sp : (growIfFull s).sp = s.sp := rfl
@[simp] theorem growIfFull_depth : (growIfFull s).depth = s.depth := rfl
@[simp] theorem growIfFull_status : (growIfFull s).status = s.status := rfl
@[simp] theorem growIfFull_cause : (growIfFull s).cause = s.cause := rfl
@[simp] theorem growIfFull_hcap : (growIfFull s).hcap = s.hcap := rfl
@[simp] theorem growIfFull_cp : (growIfFull s).cp = s.cp := rfl
@[simp] theorem growIfFull_text : (growIfFull s).text = s.text := rfl
@[simp] theorem growIfFull_heap : (growIfFull s).heap = s.heap := rfl
@[simp] theorem growIfFull_outlog : (growIfFull s).outlog = s.outlog := rfl
@[simp] theorem growIfFull_cfg : (growIfFull s).cfg = s.cfg := rfl
@[simp] theorem growIfFull_answers : (growIfFull s).answers = s.answers := rfl
@[simp] theorem growIfFull_eof : (growIfFull s).eof = s.eof := rfl
@[simp] theorem growIfFull_draws : (growIfFull s).draws = s.draws := rfl

variable (st : Status) (e : RunError)

@[simp] theorem wreck_status : (wreck st e s).status = st := rfl
@[simp] theorem wreck_cause : (wreck st e s).cause = .error e := rfl
@[simp] theorem wreck_cfg : (wreck st e s).cfg = s.cfg := rfl
@[simp] theorem wreck_answers : (wreck st e s).answers = s.answers := rfl
@[simp] theorem wreck_eof : (wreck st e s).eof = s.eof := rfl

end Sys2Proof.Machine
end

