-- ==== Sys2Proof/Laws/Word.lean ====
section
/-! SUPPORT. Indices and lengths stored as Words and read back. -/

namespace Sys2Proof

/-- A number below 2^31 stored as a Word reads back as itself. -/
theorem toInt_ofNat_lt {n : Nat} (h : n < 2 ^ 31) : (BitVec.ofNat 32 n).toInt = n := by
  rw [BitVec.toInt_eq_toNat_cond, BitVec.toNat_ofNat, Nat.mod_eq_of_lt (by omega)]
  split <;> omega

/-- The two readings of a Word that is not negative agree. -/
theorem toInt_eq_toNat {w : Word} (h : 0 ≤ w.toInt) : w.toInt = w.toNat := by
  have := w.isLt
  rw [BitVec.toInt_eq_toNat_cond] at *
  split
  · rfl
  · simp_all; omega

theorem toInt_toNat {w : Word} (h : 0 ≤ w.toInt) : w.toInt.toNat = w.toNat := by
  rw [toInt_eq_toNat h]; rfl

end Sys2Proof
end

