-- ==== Sys2Proof/Laws/Ops.lean ====
section
/-! SUPPORT. One specification lemma per shared operation, and what each leaves alone. Later proofs
cite these and do not unfold the operations. -/

namespace Sys2Proof.Machine

/-! ### Sequencing -/

@[simp] theorem andThen_ok {α β : Type} (a : α) (s : State) (f : α → State → Res β) :
    (Res.ok a s).andThen f = f a s := rfl

@[simp] theorem andThen_raised {α β : Type} (e : RunError) (s : State) (f : α → State → Res β) :
    (Res.raised e s : Res α).andThen f = .raised e s := rfl

@[simp] theorem finish_ok (s : State) : finish (.ok () s) = .next s := rfl

@[simp] theorem finish_raised (e : RunError) (s : State) : finish (.raised e s) = .next (raise e s) := rfl

/-- An instruction ends in the state it computed, or in the error it raised; never in a stop. -/
theorem finish_next (r : Res Unit) :
    (∃ t, r = .ok () t ∧ finish r = .next t) ∨ ∃ e t, r = .raised e t ∧ finish r = .next (raise e t) := by
  cases r with
  | ok a s => exact .inl ⟨s, rfl, rfl⟩
  | raised e s => exact .inr ⟨e, s, rfl, rfl⟩

/-- The state in a result, whether or not an error was raised, has the property. -/
def Res.All {α : Type} (P : State → Prop) : Res α → Prop
  | .ok _ s => P s
  | .raised _ s => P s

@[simp] theorem all_ok {α : Type} (P : State → Prop) (a : α) (s : State) :
    Res.All P (Res.ok a s) = P s := rfl

@[simp] theorem all_raised {α : Type} (P : State → Prop) (e : RunError) (s : State) :
    Res.All P (Res.raised e s : Res α) = P s := rfl

/-- A property every part keeps is kept by the sequence. -/
theorem all_andThen {α β : Type} {P : State → Prop} {r : Res α} {f : α → State → Res β}
    (hr : r.All P) (hf : ∀ a s, P s → (f a s).All P) : (r.andThen f).All P := by
  cases r with
  | ok a s => exact hf a s hr
  | raised e s => exact hr

/-- A sequence completes only where both parts do. -/
theorem andThen_eq_ok {α β : Type} {r : Res α} {f : α → State → Res β} {b : β} {t : State} :
    r.andThen f = .ok b t ↔ ∃ a s, r = .ok a s ∧ f a s = .ok b t := by
  cases r <;> simp [Res.andThen]

/-- Where an error of a sequence comes from. -/
theorem andThen_eq_raised {α β : Type} {r : Res α} {f : α → State → Res β} {e : RunError} {t : State} :
    r.andThen f = .raised e t ↔ r = .raised e t ∨ ∃ a s, r = .ok a s ∧ f a s = .raised e t := by
  cases r <;> simp [Res.andThen]

/-- What a property of every state in a result says of the instruction's end. -/
theorem finish_all {P Q : State → Prop} {r : Res Unit} (hr : r.All P) (hok : ∀ s, P s → Q s)
    (hraise : ∀ e s, P s → Q (raise e s)) {t : State} (h : finish r = .next t) : Q t := by
  cases r with
  | ok a s => cases h; exact hok _ hr
  | raised e s => cases h; exact hraise _ _ hr

/-! ### Errors -/

theorem raise_recoverable (c : RecoverableCause) (s : State) :
    raise (.recoverable c) s = { s with pc := s.textEnd, status := .done, cause := .error (.recoverable c) } := rfl

theorem raise_fatal (c : FatalCause) (s : State) : raise (.fatal c) s = wreck .fatal (.fatal c) s := rfl

theorem raise_undef (c : UndefCause) (s : State) : raise (.undef c) s = wreck .undef (.undef c) s := rfl

@[simp] theorem raise_cause (e : RunError) (s : State) : (raise e s).cause = .error e := by
  cases e <;> rfl

@[simp] theorem raise_cfg (e : RunError) (s : State) : (raise e s).cfg = s.cfg := by cases e <;> rfl

@[simp] theorem raise_answers (e : RunError) (s : State) : (raise e s).answers = s.answers := by
  cases e <;> rfl

@[simp] theorem raise_eof (e : RunError) (s : State) : (raise e s).eof = s.eof := by cases e <;> rfl

theorem raise_status_ne_run (e : RunError) (s : State) : (raise e s).status ≠ .run := by
  cases e <;> simp [raise]

theorem raise_memory_wf (e : RunError) {s : State} (h : s.stack.wf s.cfg) : (raise e s).stack.wf s.cfg := by
  cases e with
  | recoverable c => exact h
  | fatal c => exact memory_wf_ofCells _
  | undef c => exact memory_wf_ofCells _

/-! ### The Value Stack -/

/-- The state a push leaves where there is room. -/
def pushed (v : Word) (s : State) : State := ((growIfFull s).setCell s.sp v).setSp (s.sp + 1)

/-- A push completes where there is room, and is `Fatal(STACK_ALLOC)` where there is none (R56, R60). -/
theorem push_eq (v : Word) (s : State) :
    push v s = if s.full then .raised (.fatal .stackAlloc) s else .ok () (pushed v s) := rfl

theorem push_room {s : State} (h : s.full = false) (v : Word) : push v s = .ok () (pushed v s) := by
  simp [push_eq, h]

theorem full_eq_false {s : State} : s.full = false ↔ (s.sp = s.cap → 2 * s.cap ≤ s.cfg.stackCapMax) := by
  simp [State.full]

@[simp] theorem pushed_sp (v : Word) (s : State) : (pushed v s).sp = s.sp + 1 := rfl

@[simp] theorem pushed_cap (v : Word) (s : State) :
    (pushed v s).cap = if s.sp = s.cap then 2 * s.cap else s.cap := growIfFull_cap s

theorem pushed_frame (v : Word) (s : State) :
    pushed v s = { s with sp := s.sp + 1, cap := (pushed v s).cap, stack := (pushed v s).stack } := rfl

@[simp] theorem pushed_pc (v : Word) (s : State) : (pushed v s).pc = s.pc := rfl
@[simp] theorem pushed_lv (v : Word) (s : State) : (pushed v s).lv = s.lv := rfl
@[simp] theorem pushed_depth (v : Word) (s : State) : (pushed v s).depth = s.depth := rfl
@[simp] theorem pushed_status (v : Word) (s : State) : (pushed v s).status = s.status := rfl
@[simp] theorem pushed_cause (v : Word) (s : State) : (pushed v s).cause = s.cause := rfl
@[simp] theorem pushed_hcap (v : Word) (s : State) : (pushed v s).hcap = s.hcap := rfl
@[simp] theorem pushed_cp (v : Word) (s : State) : (pushed v s).cp = s.cp := rfl
@[simp] theorem pushed_text (v : Word) (s : State) : (pushed v s).text = s.text := rfl
@[simp] theorem pushed_heap (v : Word) (s : State) : (pushed v s).heap = s.heap := rfl
@[simp] theorem pushed_outlog (v : Word) (s : State) : (pushed v s).outlog = s.outlog := rfl
@[simp] theorem pushed_cfg (v : Word) (s : State) : (pushed v s).cfg = s.cfg := rfl
@[simp] theorem pushed_answers (v : Word) (s : State) : (pushed v s).answers = s.answers := rfl
@[simp] theorem pushed_eof (v : Word) (s : State) : (pushed v s).eof = s.eof := rfl
@[simp] theorem pushed_draws (v : Word) (s : State) : (pushed v s).draws = s.draws := rfl

/-- The cells after a push: the new top, the old cells below the capacity, nothing new beside them. -/
theorem pushed_read (v : Word) (s : State) (k : Nat) :
    (pushed v s).stack.read s.cfg k =
      if k = s.sp then some v
      else if s.sp = s.cap ∧ s.cap ≤ k then Memory.unlisted s.cfg k else s.stack.read s.cfg k := by
  simp only [pushed, State.setSp_stack, State.setCell_stack, growIfFull_cfg, memory_read_write, growIfFull_stack]
  split
  · rfl
  · by_cases h : s.sp = s.cap
    · by_cases hk : k < s.cap
      · simp [h, memory_read_below _ hk, hk]
      · have hk : s.cap ≤ k := by omega
        simp [h, memory_read_below_ge _ hk, hk]
    · simp [h]

/-- Below the capacity a push grows nothing. -/
theorem growIfFull_ne {s : State} (h : s.sp ≠ s.cap) : growIfFull s = s := by simp [growIfFull, h]

theorem pushed_ne {s : State} (h : s.sp ≠ s.cap) (v : Word) :
    pushed v s = (s.setCell s.sp v).setSp (s.sp + 1) := by rw [pushed, growIfFull_ne h]

/-- Below the capacity a push changes the new top alone. -/
theorem pushed_read_lt (v : Word) {s : State} {k : Nat} (hk : k < s.cap) (hne : k ≠ s.sp) :
    (pushed v s).stack.read s.cfg k = s.stack.read s.cfg k := by
  rw [pushed_read, if_neg hne, if_neg (by omega)]

theorem readTop_eq_ok {i : Nat} {s t : State} {v : Word} :
    readTop i s = .ok v t ↔ s.stack.read s.cfg i = some v ∧ t = s := by
  unfold readTop
  cases s.stack.read s.cfg i <;> simp [eq_comm]

/-- `pop()` completes exactly on a stack that is not empty and whose top cell is written (R61). -/
theorem pop_eq_ok {s t : State} {v : Word} :
    pop s = .ok v t ↔ ∃ n, s.sp = n + 1 ∧ s.stack.read s.cfg n = some v ∧ t = s.setSp n := by
  unfold pop
  split
  · rename_i h; simp [h]
  · rename_i n h
    simp only [andThen_eq_ok, readTop_eq_ok, h]
    constructor
    · rintro ⟨a, u, ⟨hr, rfl⟩, hu⟩; cases hu; exact ⟨n, rfl, hr, rfl⟩
    · rintro ⟨m, hm, hr, rfl⟩; cases hm; exact ⟨v, s, ⟨hr, rfl⟩, rfl⟩

theorem pop_of {s : State} {n : Nat} {v : Word} (hs : s.sp = n + 1) (hr : s.stack.read s.cfg n = some v) :
    pop s = .ok v (s.setSp n) := pop_eq_ok.2 ⟨n, hs, hr, rfl⟩

theorem pop_empty {s : State} (h : s.sp = 0) : pop s = .raised (.fatal .stackUnderflow) s := by
  unfold pop; rw [h]

theorem top_of {s : State} {n : Nat} {v : Word} (hs : s.sp = n + 1) (hr : s.stack.read s.cfg n = some v) :
    top s = .ok v s := by
  unfold top; rw [hs]; exact readTop_eq_ok.2 ⟨hr, rfl⟩

theorem top_empty {s : State} (h : s.sp = 0) : top s = .raised (.fatal .stackUnderflow) s := by
  unfold top; rw [h]

theorem inStack_iff {s : State} {i : Int} : s.inStack i = true ↔ 0 ≤ i ∧ i < s.cap := by
  simp [State.inStack]

theorem cell_eq_some {s : State} {i : Int} {v : Word} :
    s.cell i = some v ↔ 0 ≤ i ∧ i < s.cap ∧ s.stack.read s.cfg i.toNat = some v := by
  unfold State.cell
  split
  · rename_i h; rw [inStack_iff] at h; simp [h.1, h.2]
  · rename_i h; rw [inStack_iff] at h; constructor
    · intro h; cases h
    · rintro ⟨h0, h1, -⟩; exact absurd ⟨h0, h1⟩ h

theorem cell_nat {s : State} (i : Nat) : s.cell i = if i < s.cap then s.stack.read s.cfg i else none := by
  simp [State.cell, State.inStack]

/-- `StackRead(i)` completes exactly on a cell that exists and is written (R58). -/
theorem stackRead_eq_ok {s t : State} {i : Int} {v : Word} :
    stackRead i s = .ok v t ↔ s.cell i = some v ∧ t = s := by
  unfold stackRead State.cell
  split
  · exact readTop_eq_ok
  · simp

theorem stackRead_of {s : State} {i : Int} {v : Word} (h : s.cell i = some v) :
    stackRead i s = .ok v s := stackRead_eq_ok.2 ⟨h, rfl⟩

theorem stackRead_outside {s : State} {i : Int} (h : s.inStack i = false) :
    stackRead i s = .raised (.fatal .stackIndex) s := by simp [stackRead, h]

theorem stackRead_unwritten {s : State} {i : Int} (h : s.inStack i = true)
    (hr : s.stack.read s.cfg i.toNat = none) : stackRead i s = .raised (.undef .unwrittenRead) s := by
  simp [stackRead, h, readTop, hr]

/-- `StackWrite(i, v)` completes exactly on a cell that exists (R59). -/
theorem stackWrite_eq_ok {s t : State} {i : Int} {v : Word} :
    stackWrite i v s = .ok () t ↔ s.inStack i = true ∧ t = s.setCell i.toNat v := by
  unfold stackWrite
  cases s.inStack i <;> simp
  exact eq_comm

theorem stackWrite_of {s : State} {i : Int} (h : s.inStack i = true) (v : Word) :
    stackWrite i v s = .ok () (s.setCell i.toNat v) := stackWrite_eq_ok.2 ⟨h, rfl⟩

theorem stackWrite_outside {s : State} {i : Int} (h : s.inStack i = false) (v : Word) :
    stackWrite i v s = .raised (.fatal .stackIndex) s := by simp [stackWrite, h]

/-! ### The heap table -/

/-- What `allocate` does where the count is positive and there is storage (R65). -/
theorem allocate_of {count : Word} {s : State} (hpos : 0 < count.toInt) (htab : s.tableFull = false)
    (hw : s.heapWords + count.toNat ≤ s.cfg.heapWordsMax) :
    allocate count s = .ok (BitVec.ofNat 32 s.heap.length)
      (s.setHeap (s.heap ++ [List.replicate count.toNat 0]) s.nextHcap) := by
  have h1 : ¬ count.toInt ≤ 0 := by omega
  have h2 : ¬ s.cfg.heapWordsMax < s.heapWords + count.toNat := by omega
  simp [allocate, h1, htab, h2]

/-- When `allocate` answers, and with what. -/
theorem allocate_eq_ok {count r : Word} {s t : State} (h : allocate count s = .ok r t) :
    0 < count.toInt ∧ s.tableFull = false ∧ s.heapWords + count.toNat ≤ s.cfg.heapWordsMax ∧
      r = BitVec.ofNat 32 s.heap.length ∧
      t = s.setHeap (s.heap ++ [List.replicate count.toNat 0]) s.nextHcap := by
  unfold allocate at h
  split at h
  · cases h
  · split at h
    · cases h
    · split at h
      · cases h
      · cases h
        refine ⟨by omega, by simp_all, by omega, rfl, rfl⟩

theorem arrayLoad_of {s : State} {ref index : Word} {a : List Word} (ha : s.array ref = some a)
    (hi : inArray index a.length = true) :
    arrayLoad ref index s = .ok (a.getD index.toNat 0) s := by simp [arrayLoad, ha, hi]

theorem arrayStore_of {s : State} {ref index v : Word} {a : List Word} (ha : s.array ref = some a)
    (hi : inArray index a.length = true) :
    arrayStore ref index v s =
      .ok () (s.setHeap (s.heap.set ref.toNat (a.set index.toNat v)) s.hcap) := by
  simp [arrayStore, ha, hi]

theorem inArray_iff {index : Word} {len : Nat} :
    inArray index len = true ↔ 0 ≤ index.toInt ∧ index.toInt < len := by simp [inArray]

theorem array_eq_some {s : State} {ref : Word} {a : List Word} :
    s.array ref = some a ↔ 0 ≤ ref.toInt ∧ s.heap[ref.toNat]? = some a := by
  unfold State.array; split <;> simp_all

/-! ### What the operations leave alone -/

/-- `t` is `s` but for the Value Stack: `sp`, `cap` and the cells. -/
def StackOnly (s t : State) : Prop := t = { s with sp := t.sp, cap := t.cap, stack := t.stack }

theorem stackOnly_refl (s : State) : StackOnly s s := rfl

theorem stackOnly_trans {s t u : State} (h : StackOnly s t) (h' : StackOnly t u) : StackOnly s u := by
  unfold StackOnly at *; rw [h', h]

theorem stackOnly_pushed (v : Word) (s : State) : StackOnly s (pushed v s) := rfl

theorem push_stackOnly (v : Word) (s : State) : (push v s).All (StackOnly s) := by
  rw [push_eq]; split
  · exact stackOnly_refl s
  · exact stackOnly_pushed v s

theorem readTop_stays (i : Nat) (s : State) : (readTop i s).All (· = s) := by
  unfold readTop; split <;> rfl

theorem stackRead_stays (i : Int) (s : State) : (stackRead i s).All (· = s) := by
  unfold stackRead; split
  · exact readTop_stays _ s
  · rfl

theorem top_stays (s : State) : (top s).All (· = s) := by
  unfold top; split
  · rfl
  · exact readTop_stays _ s

/-- `pop()` leaves the state as it is, or with `sp` one smaller (R61). -/
theorem pop_leaves (s : State) :
    (pop s).All fun t => t = s ∨ ∃ n, s.sp = n + 1 ∧ t = s.setSp n := by
  unfold pop; split
  · exact .inl rfl
  · rename_i n h
    exact all_andThen (P := fun t => t = s ∨ ∃ n, s.sp = n + 1 ∧ t = s.setSp n)
      (by unfold readTop; split <;> exact .inl rfl) (by
        rintro a u (rfl | ⟨m, hm, rfl⟩)
        · exact .inr ⟨n, h, rfl⟩
        · rw [h] at hm; cases hm; exact .inr ⟨n, h, rfl⟩)

theorem pop_stackOnly (s : State) : (pop s).All (StackOnly s) := by
  have h := pop_leaves s
  cases hp : pop s with
  | ok a t => rw [hp] at h; rcases h with rfl | ⟨n, -, rfl⟩ <;> rfl
  | raised e t => rw [hp] at h; rcases h with rfl | ⟨n, -, rfl⟩ <;> rfl

theorem stackWrite_stackOnly (i : Int) (v : Word) (s : State) : (stackWrite i v s).All (StackOnly s) := by
  unfold stackWrite; split <;> rfl

theorem pushN_stackOnly (n : Nat) (v : Word) (s : State) : (pushN n v s).All (StackOnly s) := by
  induction n generalizing s with
  | zero => exact stackOnly_refl s
  | succ n ih =>
    refine all_andThen (push_stackOnly v s) fun _ t ht => ?_
    have := ih t
    cases hp : pushN n v t with
    | ok a u => rw [hp] at this; exact stackOnly_trans ht this
    | raised e u => rw [hp] at this; exact stackOnly_trans ht this

theorem stackReads_stays (i : Int) (n : Nat) (s : State) : (stackReads i n s).All (· = s) := by
  induction n generalizing i s with
  | zero => rfl
  | succ n ih =>
    refine all_andThen (stackRead_stays i s) fun _ t ht => ?_
    subst ht
    exact all_andThen (ih (i + 1) t) fun _ u hu => hu

theorem stackWrites_stackOnly (i : Int) (vs : List Word) (s : State) :
    (stackWrites i vs s).All (StackOnly s) := by
  induction vs generalizing i s with
  | nil => exact stackOnly_refl s
  | cons v vs ih =>
    refine all_andThen (stackWrite_stackOnly i v s) fun _ t ht => ?_
    have := ih (i + 1) t
    cases hp : stackWrites (i + 1) vs t with
    | ok a u => rw [hp] at this; exact stackOnly_trans ht this
    | raised e u => rw [hp] at this; exact stackOnly_trans ht this

/-- `allocate` changes the heap table and its capacity alone. -/
theorem allocate_heapOnly (count : Word) (s : State) :
    (allocate count s).All fun t => t = { s with heap := t.heap, hcap := t.hcap } := by
  unfold allocate; repeat' split
  all_goals rfl

theorem arrayLoad_stays (ref index : Word) (s : State) : (arrayLoad ref index s).All (· = s) := by
  unfold arrayLoad; repeat' split
  all_goals rfl

theorem arrayStore_heapOnly (ref index v : Word) (s : State) :
    (arrayStore ref index v s).All fun t => t = { s with heap := t.heap } := by
  unfold arrayStore; repeat' split
  all_goals rfl

end Sys2Proof.Machine
end

