-- ==== Sys2Proof/Laws/Exec.lean ====
section
/-! SUPPORT. What an instruction can do, said once: whatever every shared operation keeps, every
instruction keeps up to its end or its first error. -/

namespace Sys2Proof.Machine

/-- A property that every shared operation keeps which the instruction `i` can perform: only NEWARRAY
allocates, only IASTORE stores into an array, only INVOKEVIRTUAL and IRETURN write `lv` and `depth`, only
OUT writes `OUTLOG`, and only IN takes the host's answers. -/
structure Closed (i : Instr) (P : State → Prop) : Prop where
  push : ∀ v s, P s → (push v s).All P
  pop : ∀ s, P s → (pop s).All P
  write : ∀ i v s, P s → (stackWrite i v s).All P
  size : ∀ n s, P s → n ≤ s.cap → P (s.setSp n)
  pc : ∀ v s, P s → P (s.setPc v)
  allocate : i = .newarray → ∀ c s, P s → (allocate c s).All P
  store : i = .iastore → ∀ r i v s, P s → (arrayStore r i v s).All P
  frame : (∃ k, i = .invokevirtual k) ∨ i = .ireturn → ∀ v d s, P s → P ((s.setLv v).setDepth d)
  out : i = .out → ∀ b s, P s → P (s.appendOut b)
  host : i = .inp → ∀ as e s, P s → P (s.setHost as e)

section
variable {P : State → Prop} {i : Instr} (hP : Closed i P)
include hP

theorem closed_advance (n : Nat) {s : State} (h : P s) : (advance n s).All P := hP.pc _ _ h

theorem closed_jump (v : Word) {s : State} (h : P s) : (jump v s).All P := hP.pc _ _ h

theorem closed_pushN (n : Nat) (v : Word) {s : State} (h : P s) : (pushN n v s).All P := by
  induction n generalizing s with
  | zero => exact h
  | succ n ih => exact all_andThen (hP.push v s h) fun _ _ ht => ih ht

theorem closed_writes (i : Int) (vs : List Word) {s : State} (h : P s) : (stackWrites i vs s).All P := by
  induction vs generalizing i s with
  | nil => exact h
  | cons v vs ih => exact all_andThen (hP.write i v s h) fun _ _ ht => ih (i + 1) ht

omit hP in
theorem closed_read (i : Int) {s : State} (h : P s) : (stackRead i s).All P := by
  have := stackRead_stays i s
  cases hr : stackRead i s with
  | ok a t => rw [hr] at this; exact this ▸ h
  | raised e t => rw [hr] at this; exact this ▸ h

omit hP in
theorem closed_reads (i : Int) (n : Nat) {s : State} (h : P s) : (stackReads i n s).All P := by
  have := stackReads_stays i n s
  cases hr : stackReads i n s with
  | ok a t => rw [hr] at this; exact this ▸ h
  | raised e t => rw [hr] at this; exact this ▸ h

omit hP in
theorem closed_top {s : State} (h : P s) : (top s).All P := by
  have := top_stays s
  cases hr : top s with
  | ok a t => rw [hr] at this; exact this ▸ h
  | raised e t => rw [hr] at this; exact this ▸ h

omit hP in
theorem closed_arrayLoad (r i : Word) {s : State} (h : P s) : (arrayLoad r i s).All P := by
  have := arrayLoad_stays r i s
  cases hr : arrayLoad r i s with
  | ok a t => rw [hr] at this; exact this ▸ h
  | raised e t => rw [hr] at this; exact this ▸ h

omit hP in
theorem closed_constant (i : Nat) {s : State} (h : P s) : (constant i s).All P := by
  unfold constant; split <;> exact h

omit hP in
theorem closed_header (e : Word) {s : State} (h : P s) : (header e s).All P := by
  unfold header; repeat' split
  all_goals exact h

omit hP in
theorem closed_resolve (i : Half) {s : State} (h : P s) : (resolve i s).All P :=
  all_andThen (closed_constant _ h) fun _ _ ht => closed_header _ ht

theorem closed_branch (b : Bool) (off : Half) {s : State} (h : P s) : (branch b off s).All P := by
  unfold branch; split
  · exact closed_jump hP _ h
  · exact closed_advance hP _ h

theorem closed_loadLocal (i : Nat) {s : State} (h : P s) : (loadLocal i s).All P :=
  all_andThen (closed_read _ h) fun v _ ht => hP.push v _ ht

theorem closed_storeLocal (i : Nat) {s : State} (h : P s) : (storeLocal i s).All P :=
  all_andThen (hP.pop s h) fun v _ ht => hP.write _ v _ ht

theorem closed_incLocal (i : Nat) (d : Word) {s : State} (h : P s) : (incLocal i d s).All P :=
  all_andThen (closed_read _ h) fun _ _ ht => hP.write _ _ _ ht

theorem closed_buildFrame (base : Nat) (m : Method) (pc lv : Word) {s : State} (h : P s) :
    (buildFrame base m pc lv s).All P :=
  all_andThen (closed_pushN hP _ _ h) fun _ _ h => all_andThen (hP.push _ _ h) fun _ _ h =>
    all_andThen (hP.push _ _ h) fun _ _ h => hP.write _ _ _ h

theorem closed_binary (op : Word → Word → Word) {s : State} (h : P s) :
    ∃ r, binary op s = finish r ∧ r.All P :=
  ⟨_, rfl, all_andThen (hP.pop s h) fun _ _ h => all_andThen (hP.pop _ h) fun _ _ h =>
    all_andThen (hP.push _ _ h) fun _ _ h => closed_advance hP 1 h⟩

omit hP in
/-- Reading the saved frame changes nothing and answers the frame base, which is an existing cell. -/
theorem savedFrame_eq_ok {s t : State} {base : Int} {spc slv : Word}
    (h : savedFrame s = .ok (base, spc, slv) t) :
    t = s ∧ base = s.lv.toInt ∧ ∃ link : Word, s.cell s.lv.toInt = some link ∧
      s.cell link.toInt = some spc ∧ s.cell (link.toInt + 1) = some slv := by
  simp only [savedFrame, andThen_eq_ok, stackRead_eq_ok] at h
  obtain ⟨link, u, ⟨h1, rfl⟩, pc, v, ⟨h2, rfl⟩, lv, w, ⟨h3, rfl⟩, he⟩ := h
  cases he
  exact ⟨rfl, rfl, link, h1, h2, h3⟩

omit hP in
/-- The saved frame of a link whose cells exist and are written. -/
theorem savedFrame_of {s : State} {link spc slv : Word} (h1 : s.cell s.lv.toInt = some link)
    (h2 : s.cell link.toInt = some spc) (h3 : s.cell (link.toInt + 1) = some slv) :
    savedFrame s = .ok (s.lv.toInt, spc, slv) s := by
  simp [savedFrame, stackRead_of h1, stackRead_of h2, stackRead_of h3]

omit hP in
theorem closed_savedFrame {s : State} (h : P s) : (savedFrame s).All P :=
  all_andThen (closed_read _ h) fun _ _ h => all_andThen (closed_read _ h) fun _ _ h =>
    all_andThen (closed_read _ h) fun _ _ h => h

omit hP in
/-- Writes that complete lie in the stack, and leave the capacity. -/
theorem stackWrites_eq_ok {i : Int} {vs : List Word} {s t : State} (h : stackWrites i vs s = .ok () t) :
    t.cap = s.cap ∧ (vs ≠ [] → 0 ≤ i ∧ i + vs.length ≤ s.cap) := by
  induction vs generalizing i s with
  | nil => cases h; exact ⟨rfl, fun h => absurd rfl h⟩
  | cons v vs ih =>
    obtain ⟨_, u, hw, hrest⟩ := andThen_eq_ok.1 h
    obtain ⟨hin, rfl⟩ := stackWrite_eq_ok.1 hw
    rw [inStack_iff] at hin
    obtain ⟨hcap, hr⟩ := ih hrest
    refine ⟨hcap, fun _ => ⟨hin.1, ?_⟩⟩
    by_cases hvs : vs = []
    · subst hvs; simp only [List.length_singleton]; omega
    · have := (hr hvs).2
      simp only [State.setCell_cap, List.length_cons] at *
      omega

omit hP in
theorem stackReads_length {i : Int} {n : Nat} {s t : State} {vs : List Word}
    (h : stackReads i n s = .ok vs t) : vs.length = n := by
  induction n generalizing i s t vs with
  | zero => cases h; rfl
  | succ n ih =>
    obtain ⟨v, u, -, h⟩ := andThen_eq_ok.1 h
    obtain ⟨ws, w, h, he⟩ := andThen_eq_ok.1 h
    cases he
    simp [ih h]

theorem closed_ireturn (hi : i = .ireturn) {s : State} (h : P s) : ∃ r, execIreturn s = finish r ∧ r.All P := by
  refine ⟨_, rfl, ?_⟩
  split
  · exact h
  · refine all_andThen (hP.pop s h) fun r s h => ?_
    cases hf : savedFrame s with
    | raised e t =>
      have := closed_savedFrame h
      rw [hf] at this; exact this
    | ok a t =>
      obtain ⟨base, npc, nlv⟩ := a
      obtain ⟨rfl, rfl, link, hc, -, -⟩ := savedFrame_eq_ok hf
      rw [cell_eq_some] at hc
      simp only [andThen_ok]
      split
      · exact h
      · refine all_andThen (hP.push _ _ (hP.size _ _ h (by omega))) fun _ u hu => ?_
        exact closed_jump hP _ (hP.frame (.inr hi) _ _ _ hu)

theorem closed_tailcall (k : Half) {s : State} (h : P s) : ∃ r, execTailcall k s = finish r ∧ r.All P := by
  refine ⟨_, rfl, all_andThen (closed_resolve k h) fun m s h => ?_⟩
  split
  · exact h
  · cases hf : savedFrame s with
    | raised e t =>
      have := closed_savedFrame h
      rw [hf] at this; exact this
    | ok a t =>
      obtain ⟨base, spc, slv⟩ := a
      obtain ⟨rfl, rfl, link, hc, -, -⟩ := savedFrame_eq_ok hf
      rw [cell_eq_some] at hc
      simp only [andThen_ok]
      split
      · exact h
      · cases hr : stackReads (t.sp - m.args) m.args t with
        | raised e u =>
          have := closed_reads (t.sp - m.args) m.args h
          rw [hr] at this; exact this
        | ok args u =>
          have hu := stackReads_stays (t.sp - m.args) m.args t
          rw [hr] at hu
          cases hu
          simp only [andThen_ok]
          cases hw : stackWrites t.lv.toInt args t with
          | raised e v =>
            have := closed_writes hP t.lv.toInt args h
            rw [hw] at this; exact this
          | ok a v =>
            have hv := closed_writes hP t.lv.toInt args h
            rw [hw] at hv
            obtain ⟨hcap, hin⟩ := stackWrites_eq_ok hw
            have hlen := stackReads_length hr
            simp only [andThen_ok]
            refine all_andThen (closed_buildFrame hP _ _ _ _ (hP.size _ _ hv ?_)) fun _ w hw => closed_jump hP _ hw
            by_cases hnil : args = []
            · subst hnil; simp only [List.length_nil] at hlen; omega
            · have := (hin hnil).2; omega

/-- Every instruction ends in a result whose state has what every shared operation keeps. -/
theorem exec_closed {s : State} (h : P s) : ∃ r, exec i s = finish r ∧ r.All P := by
  cases i with
  | nop => exact ⟨_, rfl, closed_advance hP 1 h⟩
  | err => exact ⟨.raised _ s, rfl, h⟩
  | halt => exact ⟨_, rfl, closed_jump hP _ h⟩
  | bipush b => exact ⟨_, rfl, all_andThen (hP.push _ _ h) fun _ _ h => closed_advance hP _ h⟩
  | dup => exact ⟨_, rfl, all_andThen (closed_top h) fun _ _ h =>
      all_andThen (hP.push _ _ h) fun _ _ h => closed_advance hP _ h⟩
  | pop => exact ⟨_, rfl, all_andThen (hP.pop _ h) fun _ _ h => closed_advance hP _ h⟩
  | swap => exact ⟨_, rfl, all_andThen (hP.pop _ h) fun _ _ h => all_andThen (hP.pop _ h) fun _ _ h =>
      all_andThen (hP.push _ _ h) fun _ _ h => all_andThen (hP.push _ _ h) fun _ _ h =>
      closed_advance hP _ h⟩
  | iadd => exact closed_binary hP _ h
  | isub => exact closed_binary hP _ h
  | iand => exact closed_binary hP _ h
  | ior => exact closed_binary hP _ h
  | inp =>
    simp only [exec, execIn, inByte]
    by_cases he : s.eof = true
    · rw [if_pos he]
      exact ⟨_, rfl, all_andThen (hP.push _ _ h) fun _ _ h => closed_advance hP _ h⟩
    · rw [if_neg he]
      rcases s.answers with _ | ⟨_ | _, as⟩
      · exact ⟨.ok () s, rfl, h⟩
      · exact ⟨_, rfl, all_andThen (hP.push _ _ (hP.host rfl _ _ _ h)) fun _ _ h => closed_advance hP _ h⟩
      · exact ⟨_, rfl, all_andThen (hP.push _ _ (hP.host rfl _ _ _ h)) fun _ _ h => closed_advance hP _ h⟩
  | out => exact ⟨_, rfl, all_andThen (hP.pop _ h) fun _ _ h =>
      all_andThen (show Res.All P (outByte _ _) from hP.out rfl _ _ h) fun _ _ h => closed_advance hP _ h⟩
  | goto off => exact ⟨branch true off s, rfl, closed_branch hP _ _ h⟩
  | ifeq off => exact ⟨_, rfl, all_andThen (hP.pop _ h) fun _ _ h => closed_branch hP _ _ h⟩
  | iflt off => exact ⟨_, rfl, all_andThen (hP.pop _ h) fun _ _ h => closed_branch hP _ _ h⟩
  | ifIcmpeq off => exact ⟨_, rfl, all_andThen (hP.pop _ h) fun _ _ h =>
      all_andThen (hP.pop _ h) fun _ _ h => closed_branch hP _ _ h⟩
  | ldcW k => exact ⟨_, rfl, all_andThen (closed_constant _ h) fun _ _ h =>
      all_andThen (hP.push _ _ h) fun _ _ h => closed_advance hP _ h⟩
  | iload k => exact ⟨_, rfl, all_andThen (closed_loadLocal hP _ h) fun _ _ h => closed_advance hP _ h⟩
  | istore k => exact ⟨_, rfl, all_andThen (closed_storeLocal hP _ h) fun _ _ h => closed_advance hP _ h⟩
  | iinc k d => exact ⟨_, rfl, all_andThen (closed_incLocal hP _ _ h) fun _ _ h => closed_advance hP _ h⟩
  | wide b => exact ⟨.raised _ s, rfl, h⟩
  | wideIload k => exact ⟨_, rfl, all_andThen (closed_loadLocal hP _ h) fun _ _ h => closed_advance hP _ h⟩
  | wideIstore k => exact ⟨_, rfl, all_andThen (closed_storeLocal hP _ h) fun _ _ h => closed_advance hP _ h⟩
  | wideIinc k d => exact ⟨_, rfl, all_andThen (closed_incLocal hP _ _ h) fun _ _ h => closed_advance hP _ h⟩
  | newarray => exact ⟨_, rfl, all_andThen (hP.pop _ h) fun _ _ h =>
      all_andThen (hP.allocate rfl _ _ h) fun _ _ h => all_andThen (hP.push _ _ h) fun _ _ h =>
      closed_advance hP _ h⟩
  | iaload => exact ⟨_, rfl, all_andThen (hP.pop _ h) fun _ _ h => all_andThen (hP.pop _ h) fun _ _ h =>
      all_andThen (closed_arrayLoad _ _ h) fun _ _ h => all_andThen (hP.push _ _ h) fun _ _ h =>
      closed_advance hP _ h⟩
  | iastore => exact ⟨_, rfl, all_andThen (hP.pop _ h) fun _ _ h => all_andThen (hP.pop _ h) fun _ _ h =>
      all_andThen (hP.pop _ h) fun _ _ h => all_andThen (hP.store rfl _ _ _ _ h) fun _ _ h =>
      closed_advance hP _ h⟩
  | invokevirtual k =>
    refine ⟨_, rfl, all_andThen (closed_resolve k h) fun m s h => ?_⟩
    split
    · exact h
    · exact all_andThen (closed_buildFrame hP _ _ _ _ h) fun _ _ h =>
        closed_jump hP _ (hP.frame (.inl ⟨k, rfl⟩) _ _ _ h)
  | ireturn => exact closed_ireturn hP rfl h
  | tailcall k => exact closed_tailcall hP k h

end

end Sys2Proof.Machine
end

