-- ==== Sys2Proof/Laws/Sound.lean ====
section
/-! SUPPORT. Every shared operation keeps what holds of a valid instance, and the canonical form of the
stack RAM. -/

namespace Sys2Proof.Machine

/-- What holds of a valid instance, with the canonical form and well-formed parameters. -/
structure Valid (s : State) : Prop where
  params : s.cfg.wf = true
  memory : s.stack.wf s.cfg
  sound : Sound s

theorem sound_params {s : State} (h : s.cfg.wf = true) :
    s.cfg.opcodeMap.Distinct ∧ s.cfg.textMax ≤ 2 ^ 31 - 1 ∧ s.cfg.cpMax ≤ 2 ^ 30 ∧
      s.cfg.heapTableCapInit ≤ s.cfg.heapTableMax ∧ s.cfg.SizesFit := by
  simp only [Params.wf, Bool.and_eq_true, decide_eq_true_eq] at h
  exact ⟨h.1.1.1.1, h.1.1.1.2, h.1.1.2, h.1.2, h.2⟩

/-- On a valid instance the stack has at least its initial capacity. -/
theorem sound_cap_ge {s : State} (h : Sound s) : s.cfg.stackCapInit ≤ s.cap := by
  obtain ⟨k, hk⟩ := h.cap_form
  rw [hk]
  exact Nat.le_mul_of_pos_right _ (Nat.two_pow_pos k)

theorem sound_cap_pos {s : State} (h : Sound s) : 0 < s.cap :=
  Nat.lt_of_lt_of_le h.sizes_fit.1 (sound_cap_ge h)

/-- The sentinels lie below the capacity. -/
theorem sound_sentinels {s : State} (h : Sound s) : s.cfg.sentinelCount ≤ s.cap :=
  Nat.le_trans h.sizes_fit.2.2 (sound_cap_ge h)

/-- The heap table's capacity is not 0. -/
theorem sound_hcap_pos {s : State} (h : Sound s) : 0 < s.hcap := by
  obtain ⟨k, hk⟩ := h.hcap_form
  rw [hk]
  exact Nat.mul_pos h.sizes_fit.2.1 (Nat.two_pow_pos k)

/-- A property that depends on no register but `sp` and the stores is kept by a register write. -/
theorem sound_regs {s : State} (h : Sound s) (pc lv : Word) (d : BitVec 32) (st : Status) (c : Cause)
    (as : List HostAnswer) (e : Bool) (o : List Byte) (n : Nat) :
    Sound { s with pc := pc, lv := lv, depth := d, status := st, cause := c, answers := as, eof := e,
                   outlog := o, draws := n } :=
  ⟨h.1, h.2, h.3, h.4, h.5, h.6, h.7, h.8, h.9, h.10, h.11, h.12⟩

theorem valid_regs {s : State} (h : Valid s) (pc lv : Word) (d : BitVec 32) (st : Status) (c : Cause)
    (as : List HostAnswer) (e : Bool) (o : List Byte) (n : Nat) :
    Valid { s with pc := pc, lv := lv, depth := d, status := st, cause := c, answers := as, eof := e,
                   outlog := o, draws := n } :=
  ⟨h.1, h.2, sound_regs h.3 ..⟩

theorem valid_setPc {s : State} (h : Valid s) (v : Word) : Valid (s.setPc v) := valid_regs h ..

theorem valid_setLv {s : State} (h : Valid s) (v : Word) : Valid (s.setLv v) := valid_regs h ..

theorem valid_setDepth {s : State} (h : Valid s) (d : BitVec 32) : Valid (s.setDepth d) := valid_regs h ..

theorem valid_setStatus {s : State} (h : Valid s) (st : Status) (c : Cause) : Valid (s.setStatus st c) :=
  valid_regs h ..

theorem valid_setHost {s : State} (h : Valid s) (as : List HostAnswer) (e : Bool) : Valid (s.setHost as e) :=
  valid_regs h ..

theorem valid_appendOut {s : State} (h : Valid s) (b : Byte) : Valid (s.appendOut b) := valid_regs h ..

theorem sound_setSp {s : State} (h : Sound s) {n : Nat} (hn : n ≤ s.cap) : Sound (s.setSp n) :=
  ⟨hn, h.2, h.3, h.4, h.5, h.6, h.7, h.8, h.9, h.10, h.11, h.12⟩

theorem sound_setCell {s : State} (h : Sound s) {i : Nat} (hi : i < s.cap) (v : Word) : Sound (s.setCell i v) :=
  ⟨h.1, h.2, h.3, fun _ hc => (memory_mem_write hc).elim (fun he => he ▸ hi) (h.4 _), h.5, h.6, h.7, h.8,
    h.9, h.10, h.11, h.12⟩

theorem sound_growIfFull {s : State} (h : Sound s) (hroom : s.hasRoom) : Sound (growIfFull s) := by
  by_cases he : s.sp = s.cap
  · have hc : (growIfFull s).cap = 2 * s.cap := by rw [growIfFull_cap, if_pos he]
    have hs : (growIfFull s).stack = s.stack.below s.cap := by rw [growIfFull_stack, if_pos he]
    refine ⟨?_, ?_, ?_, ?_, h.5, h.6, h.7, h.8, h.9, h.10, h.11, h.12⟩
    · rw [hc]; show s.sp ≤ _; omega
    · obtain ⟨k, hk⟩ := h.2
      exact ⟨k + 1, by rw [hc, hk, growIfFull_cfg, Nat.pow_succ]; ring⟩
    · rw [hc]; exact hroom he
    · intro c hm
      rw [hs] at hm
      have := (memory_mem_below hm).2
      rw [hc]; omega
  · rw [growIfFull_ne he]; exact h

theorem sound_pushed {s : State} (h : Sound s) (hroom : s.hasRoom) (v : Word) : Sound (pushed v s) := by
  have hge := sound_cap_pos h
  have hsp := h.1
  have hlt : s.sp < (growIfFull s).cap := by rw [growIfFull_cap]; split <;> omega
  exact sound_setSp (sound_setCell (sound_growIfFull h hroom) hlt v) hlt

theorem valid_setSp {s : State} (h : Valid s) {n : Nat} (hn : n ≤ s.cap) : Valid (s.setSp n) :=
  ⟨h.1, h.2, sound_setSp h.3 hn⟩

theorem valid_setCell {s : State} (h : Valid s) {i : Nat} (hi : i < s.cap) (v : Word) : Valid (s.setCell i v) :=
  ⟨h.1, memory_wf_write h.2 i v, sound_setCell h.3 hi v⟩

theorem valid_pushed {s : State} (h : Valid s) (hroom : s.hasRoom) (v : Word) : Valid (pushed v s) := by
  refine ⟨h.1, memory_wf_write ?_ _ v, sound_pushed h.3 hroom v⟩
  rw [growIfFull_stack]; split
  · exact memory_wf_below h.2 _
  · exact h.2

theorem push_valid {s : State} (h : Valid s) (v : Word) : (push v s).All Valid := by
  rw [push_eq]; split
  · exact h
  · rename_i hf
    exact valid_pushed h (full_eq_false.1 (by simpa using hf)) v

theorem pop_valid {s : State} (h : Valid s) : (pop s).All Valid := by
  have hl := pop_leaves s
  have hsp := h.3.1
  cases hp : pop s with
  | ok a t =>
    rw [hp] at hl
    rcases hl with rfl | ⟨n, hn, rfl⟩
    · exact h
    · exact valid_setSp h (by omega)
  | raised e t =>
    rw [hp] at hl
    rcases hl with rfl | ⟨n, hn, rfl⟩
    · exact h
    · exact valid_setSp h (by omega)

/-- An operation that leaves the state as it is keeps every property. -/
theorem all_of_stays {α : Type} {P : State → Prop} {r : Res α} {s : State} (hr : r.All (· = s)) (h : P s) :
    r.All P := by
  cases r with
  | ok a t => exact hr ▸ h
  | raised e t => exact hr ▸ h

theorem stackWrite_valid {s : State} (h : Valid s) (i : Int) (v : Word) : (stackWrite i v s).All Valid := by
  unfold stackWrite; split
  · rename_i hi
    rw [inStack_iff] at hi
    exact valid_setCell h (by omega) v
  · exact h

theorem pushN_valid {s : State} (h : Valid s) (n : Nat) (v : Word) : (pushN n v s).All Valid := by
  induction n generalizing s with
  | zero => exact h
  | succ n ih => exact all_andThen (push_valid h v) fun _ t ht => ih ht

theorem stackWrites_valid {s : State} (h : Valid s) (i : Int) (vs : List Word) :
    (stackWrites i vs s).All Valid := by
  induction vs generalizing i s with
  | nil => exact h
  | cons v vs ih => exact all_andThen (stackWrite_valid h i v) fun _ t ht => ih ht (i + 1)

theorem allocate_valid {s : State} (h : Valid s) (count : Word) : (allocate count s).All Valid := by
  cases ha : allocate count s with
  | raised e t =>
    have := allocate_heapOnly count s
    unfold allocate at ha
    repeat' split at ha
    all_goals cases ha
    all_goals exact h
  | ok r t =>
    obtain ⟨hpos, htab, hw, -, rfl⟩ := allocate_eq_ok ha
    have htab : s.heap.length = s.hcap → 2 * s.hcap ≤ s.cfg.heapTableMax := by
      simpa [State.tableFull] using htab
    have hlen := h.3.5
    have hpos10 := sound_hcap_pos h.3
    refine ⟨h.1, h.2, ⟨h.3.1, h.3.2, h.3.3, h.3.4, ?_, ?_, ?_, ?_, ?_, h.3.10, h.3.11, h.3.12⟩⟩
    · simp only [State.setHeap_heap, State.setHeap_hcap, List.length_append, List.length_singleton, State.nextHcap]
      split <;> omega
    · obtain ⟨k, hk⟩ := h.3.6
      simp only [State.setHeap_hcap, State.nextHcap]
      split
      · exact ⟨k + 1, by rw [hk, State.setHeap_cfg, Nat.pow_succ]; ring⟩
      · exact ⟨k, hk⟩
    · simp only [State.setHeap_hcap, State.setHeap_cfg, State.nextHcap]
      split
      · exact htab ‹_›
      · exact h.3.7
    · intro a hm
      simp only [State.setHeap_heap, List.mem_append, List.mem_singleton] at hm
      rcases hm with hm | rfl
      · exact h.3.8 a hm
      · rw [List.length_replicate]
        have := BitVec.toInt_eq_toNat_cond count
        split at this <;> omega
    · simpa [State.heapWords] using hw

theorem arrayStore_valid {s : State} (h : Valid s) (ref index v : Word) :
    (arrayStore ref index v s).All Valid := by
  cases ha : s.array ref with
  | none => simpa [arrayStore, ha] using h
  | some a =>
    by_cases hi : inArray index a.length = true
    · rw [arrayStore_of ha hi]
      have hr := (array_eq_some.1 ha).2
      have hlens : (s.heap.set ref.toNat (a.set index.toNat v)).map List.length = s.heap.map List.length := by
        rw [List.map_set, List.length_set]
        apply List.ext_getElem? ; intro k
        rw [List.getElem?_set]
        split
        · subst_vars
          obtain ⟨hl, he⟩ := List.getElem?_eq_some_iff.1 hr
          simp [hl, he]
        · rfl
      refine ⟨h.1, h.2, ⟨h.3.1, h.3.2, h.3.3, h.3.4, ?_, h.3.6, h.3.7, ?_, ?_, h.3.10, h.3.11, h.3.12⟩⟩
      · simpa using h.3.5
      · intro b hb
        have : b.length ∈ s.heap.map List.length := by
          rw [← hlens]; exact List.mem_map_of_mem hb
        obtain ⟨c, hc, he⟩ := List.mem_map.1 this
        exact he ▸ h.3.8 c hc
      · have := h.3.9
        simp only [State.heapWords, State.setHeap_heap, State.setHeap_cfg] at *
        rw [hlens]; exact this
    · simpa [arrayStore, ha, hi] using h

/-- Every shared operation keeps a valid instance valid. -/
theorem valid_closed (i : Instr) : Closed i Valid where
  push v _ h := push_valid h v
  pop _ h := pop_valid h
  write i v _ h := stackWrite_valid h i v
  size _ _ h hn := valid_setSp h hn
  pc v _ h := valid_setPc h v
  allocate _ c _ h := allocate_valid h c
  store _ r i v _ h := arrayStore_valid h r i v
  frame _ v d _ h := valid_setDepth (valid_setLv h v) d
  out _ b _ h := valid_appendOut h b
  host _ as e _ h := valid_setHost h as e

/-- What no instruction changes before its end or its first error, and what it never makes smaller. -/
structure Kept (s t : State) : Prop where
  status : t.status = s.status
  cause : t.cause = s.cause
  cfg : t.cfg = s.cfg
  text : t.text = s.text
  cp : t.cp = s.cp
  draws : t.draws = s.draws
  cap : s.cap ≤ t.cap
  hcap : s.hcap ≤ t.hcap

theorem kept_refl (s : State) : Kept s s := ⟨rfl, rfl, rfl, rfl, rfl, rfl, Nat.le_refl _, Nat.le_refl _⟩

theorem kept_growIfFull {s t : State} (h : Kept s t) : Kept s (growIfFull t) := by
  refine ⟨h.1, h.2, h.3, h.4, h.5, h.6, ?_, h.8⟩
  have := h.7
  rw [growIfFull_cap]; split <;> omega

theorem kept_push {s t : State} (v : Word) (h : Kept s t) : (push v t).All (Kept s) := by
  rw [push_eq]; split
  · exact h
  · have := kept_growIfFull h
    exact ⟨this.1, this.2, this.3, this.4, this.5, this.6, this.7, this.8⟩

/-- Every shared operation keeps it. -/
theorem kept_closed (i : Instr) (s : State) : Closed i (Kept s) where
  push v _ h := kept_push v h
  pop t h := by
    have hl := pop_leaves t
    cases hp : pop t with
    | ok a u => rw [hp] at hl; rcases hl with rfl | ⟨n, -, rfl⟩ <;> exact ⟨h.1, h.2, h.3, h.4, h.5, h.6, h.7, h.8⟩
    | raised e u => rw [hp] at hl; rcases hl with rfl | ⟨n, -, rfl⟩ <;> exact ⟨h.1, h.2, h.3, h.4, h.5, h.6, h.7, h.8⟩
  write i v t h := by
    unfold stackWrite; split <;> exact ⟨h.1, h.2, h.3, h.4, h.5, h.6, h.7, h.8⟩
  size _ _ h _ := ⟨h.1, h.2, h.3, h.4, h.5, h.6, h.7, h.8⟩
  allocate _ c t h := by
    unfold allocate; repeat' split
    · exact h
    · exact h
    · exact h
    · refine ⟨h.1, h.2, h.3, h.4, h.5, h.6, h.7, ?_⟩
      have := h.8
      simp only [State.setHeap_hcap, State.nextHcap]
      split <;> omega
  store _ r i v t h := by
    unfold arrayStore; repeat' split
    all_goals exact ⟨h.1, h.2, h.3, h.4, h.5, h.6, h.7, h.8⟩
  pc _ _ h := ⟨h.1, h.2, h.3, h.4, h.5, h.6, h.7, h.8⟩
  frame _ _ _ _ h := ⟨h.1, h.2, h.3, h.4, h.5, h.6, h.7, h.8⟩
  out _ _ _ h := ⟨h.1, h.2, h.3, h.4, h.5, h.6, h.7, h.8⟩
  host _ _ _ _ h := ⟨h.1, h.2, h.3, h.4, h.5, h.6, h.7, h.8⟩

end Sys2Proof.Machine
end

