-- ==== Sys2Proof/Laws/Stack.lean ====
section
/-! SUPPORT. The Value Stack as the statements speak of it: the Words it ends in, the cells kept, room. -/

namespace Sys2Proof.Machine

theorem endsIn_one {s : State} {v : Word} :
    s.endsIn [v] ↔ ∃ n, s.sp = n + 1 ∧ s.stack.read s.cfg n = some v := by
  constructor
  · rintro ⟨hl, h⟩
    have := h 0 v rfl
    simp only [List.length_singleton] at hl
    exact ⟨s.sp - 1, by omega, by simpa using this⟩
  · rintro ⟨n, hn, hr⟩
    refine ⟨by simp [hn], fun k w hk => ?_⟩
    rcases k with _ | k
    · cases hk; simpa [hn] using hr
    · simp at hk

theorem endsIn_two {s : State} {a b : Word} :
    s.endsIn [b, a] ↔ ∃ n, s.sp = n + 2 ∧ s.stack.read s.cfg (n + 1) = some b ∧ s.stack.read s.cfg n = some a := by
  constructor
  · rintro ⟨hl, h⟩
    have h0 := h 0 b rfl
    have h1 := h 1 a rfl
    simp only [List.length_cons, List.length_nil] at hl
    exact ⟨s.sp - 2, by omega, by rwa [show s.sp - 2 + 1 = s.sp - 1 - 0 by omega],
      by rwa [show s.sp - 2 = s.sp - 1 - 1 by omega]⟩
  · rintro ⟨n, hn, h0, h1⟩
    refine ⟨by simp [hn], fun k w hk => ?_⟩
    match k, hk with
    | 0, hk => cases hk; simpa [hn] using h0
    | 1, hk => cases hk; simpa [hn] using h1
    | k + 2, hk => simp at hk

theorem endsIn_three {s : State} {a b c : Word} :
    s.endsIn [c, b, a] ↔ ∃ n, s.sp = n + 3 ∧ s.stack.read s.cfg (n + 2) = some c ∧
      s.stack.read s.cfg (n + 1) = some b ∧ s.stack.read s.cfg n = some a := by
  constructor
  · rintro ⟨hl, h⟩
    have h0 := h 0 c rfl
    have h1 := h 1 b rfl
    have h2 := h 2 a rfl
    simp only [List.length_cons, List.length_nil] at hl
    exact ⟨s.sp - 3, by omega, by rwa [show s.sp - 3 + 2 = s.sp - 1 - 0 by omega],
      by rwa [show s.sp - 3 + 1 = s.sp - 1 - 1 by omega], by rwa [show s.sp - 3 = s.sp - 1 - 2 by omega]⟩
  · rintro ⟨n, hn, h0, h1, h2⟩
    refine ⟨by simp [hn], fun k w hk => ?_⟩
    match k, hk with
    | 0, hk => cases hk; simpa [hn] using h0
    | 1, hk => cases hk; simpa [hn] using h1
    | 2, hk => cases hk; simpa [hn] using h2
    | k + 3, hk => simp at hk

/-- The pop of a stack that ends in `v`. -/
theorem pop_endsIn {s : State} {v : Word} (h : s.endsIn [v]) : pop s = .ok v (s.setSp (s.sp - 1)) := by
  obtain ⟨n, hn, hr⟩ := endsIn_one.1 h
  rw [pop_of hn hr, hn]; rfl

theorem hasRoom_iff {s : State} : s.hasRoom ↔ s.full = false := full_eq_false.symm

theorem push_hasRoom {s : State} (h : s.hasRoom) (v : Word) : push v s = .ok () (pushed v s) :=
  push_room (hasRoom_iff.1 h) v

theorem push_noRoom {s : State} (h : ¬ s.hasRoom) (v : Word) :
    push v s = .raised (.fatal .stackAlloc) s := by
  rw [hasRoom_iff, Bool.not_eq_false] at h
  simp [push_eq, h]

/-- Below its capacity the stack has room. -/
theorem hasRoom_of_lt {s : State} (h : s.sp < s.cap) : s.hasRoom := fun he => by omega

/-- A stack smaller than the platform's largest has room: both capacities are the initial one times
a power of two. -/
theorem hasRoom_of_lt_max {s : State} (h : Sound s) (hlt : s.sp < s.cfg.stackCapMax) : s.hasRoom := by
  intro he
  obtain ⟨k, hk⟩ := h.cap_form
  rw [he, hk] at hlt
  have hkk : k < s.cfg.stackDoublings := by
    have h1 : 2 ^ k < 2 ^ s.cfg.stackDoublings := Nat.lt_of_mul_lt_mul_left hlt
    exact (Nat.pow_lt_pow_iff_right (by omega)).1 h1
  rw [hk, Params.stackCapMax, ← Nat.mul_assoc, Nat.mul_comm 2, Nat.mul_assoc]
  apply Nat.mul_le_mul_left
  rw [Nat.mul_comm, ← Nat.pow_succ]
  exact Nat.pow_le_pow_right (by omega) hkk

/-- The room of a stack whose size has reached the platform's largest. -/
theorem noRoom_of_max {s : State} (h : Sound s) (hge : s.cfg.stackCapMax ≤ s.sp) : ¬ s.hasRoom := by
  have h1 := h.sp_le_cap
  have h2 := h.cap_le_max
  have h3 := sound_cap_pos h
  intro hr
  have := hr (by omega)
  omega

/-- The cells of a valid instance after a push: the new top, and no other cell changed. -/
theorem pushed_cell {s : State} (h : Sound s) (v : Word) (j : Int) :
    (pushed v s).cell j = if j = s.sp then some v else s.cell j := by
  have hpos := sound_cap_pos h
  have hge := sound_sentinels h
  have hsp := h.sp_le_cap
  by_cases hj : 0 ≤ j
  · obtain ⟨k, rfl⟩ := Int.eq_ofNat_of_zero_le hj
    rw [cell_nat, cell_nat, pushed_cap, pushed_cfg, pushed_read]
    by_cases hk : k = s.sp
    · subst hk
      simp only [if_true]
      split <;> rw [if_pos (by omega)]
    · have hk' : ¬ (k : Int) = s.sp := by omega
      simp only [hk, hk', if_false]
      by_cases he : s.sp = s.cap
      · simp only [he, true_and, if_true]
        by_cases hlt : k < s.cap
        · rw [if_pos (by omega), if_neg (by omega), if_pos hlt]
        · rw [if_neg hlt, if_pos (by omega : s.cap ≤ k)]
          rw [Memory.unlisted, if_neg (by omega : ¬ k < s.cfg.sentinelCount), ite_self]
      · simp [he]
  · have h1 : (pushed v s).cell j = none := if_neg (by simp [State.inStack]; omega)
    have h2 : s.cell j = none := if_neg (by simp [State.inStack]; omega)
    rw [h1, h2, if_neg (by omega)]

/-- The cells after an indexed write inside the stack. -/
theorem setCell_cell {s : State} {i : Nat} (hi : i < s.cap) (v : Word) (j : Int) :
    (s.setCell i v).cell j = if j = i then some v else s.cell j := by
  by_cases hj : 0 ≤ j
  · obtain ⟨k, rfl⟩ := Int.eq_ofNat_of_zero_le hj
    rw [cell_nat, cell_nat]
    simp only [State.setCell_cap, State.setCell_stack, State.setCell_cfg, memory_read_write, Int.natCast_inj]
    by_cases hk : k = i
    · simp [hk, hi]
    · simp [hk]
  · have h1 : (s.setCell i v).cell j = none := if_neg (by simp [State.inStack]; omega)
    have h2 : s.cell j = none := if_neg (by simp [State.inStack]; omega)
    rw [h1, h2, if_neg (by omega)]

/-- An indexed write inside the stack writes its cell and no other. -/
theorem setCell_kept {s : State} {j : Int} (h0 : 0 ≤ j) (h1 : j < s.cap) (v : Word) :
    (s.setCell j.toNat v).cell j = some v ∧ CellsKept s (s.setCell j.toNat v) (· = j) := by
  have hj : j.toNat < s.cap := by omega
  refine ⟨by rw [setCell_cell hj, if_pos (by omega)], fun i hi => ?_⟩
  rw [setCell_cell hj, if_neg (by omega)]

/-- A push on a valid instance writes the new top and no other cell. -/
theorem pushed_kept {s : State} (h : Sound s) (v : Word) :
    (pushed v s).cell s.sp = some v ∧ CellsKept s (pushed v s) (· = (s.sp : Int)) :=
  ⟨by rw [pushed_cell h, if_pos rfl], fun i hi => by rw [pushed_cell h, if_neg hi]⟩

end Sys2Proof.Machine
end

