-- ==== Sys2Proof/Laws/Frames.lean ====
section
/-! SUPPORT. Sequences of pushes, pops, indexed reads and writes, the frame that a call builds, and the
callee it resolves: what each leaves, and when it raises an error. -/

namespace Sys2Proof.Machine

/-! ### Sequences of pushes and pops -/

theorem pushAll_append (vs ws : List Word) (s : State) :
    pushAll (vs ++ ws) s = (pushAll vs s).andThen fun _ s => pushAll ws s := by
  induction vs generalizing s with
  | nil => rfl
  | cons v vs ih =>
    show (push v s).andThen _ = ((push v s).andThen _).andThen _
    cases push v s with
    | ok a t => exact ih t
    | raised e t => rfl

theorem pushN_eq_pushAll (n : Nat) (v : Word) (s : State) : pushN n v s = pushAll (List.replicate n v) s := by
  induction n generalizing s with
  | zero => rfl
  | succ n ih => simp only [pushN, List.replicate_succ, pushAll, ih]

theorem grown_refl {c n : Nat} (h : n ≤ c) : Grown c c n := ⟨0, by simp, h, .inl rfl⟩

theorem grown_trans {a b c n m : Nat} (h : Grown a b n) (hm : n ≤ m) (h' : Grown b c m) : Grown a c m := by
  obtain ⟨g, rfl, -, hg⟩ := h
  obtain ⟨g', rfl, hc, hg'⟩ := h'
  refine ⟨g + g', by rw [Nat.pow_add, Nat.mul_assoc], hc, ?_⟩
  rcases hg' with rfl | hg'
  · rcases hg with rfl | hg
    · exact .inl rfl
    · exact .inr (by simp only [Nat.pow_zero, Nat.mul_one]; omega)
  · exact .inr hg'

theorem grown_pushed {s : State} (h : s.sp ≤ s.cap) (h0 : 0 < s.cap) (v : Word) : Grown s.cap (pushed v s).cap (s.sp + 1) := by
  rw [pushed_cap]
  split
  · rename_i he
    exact ⟨1, by omega, by omega, .inr (by omega)⟩
  · exact grown_refl (by omega)

/-- Pushes that fit in the platform's largest stack complete: the cells from the old top on hold the
Words in order, no other cell changes, and the capacity has doubled as often as it must. -/
theorem pushAll_of {s : State} (h : Sound s) (vs : List Word) (hfit : s.sp + vs.length ≤ s.cfg.stackCapMax) :
    ∃ t, pushAll vs s = .ok () t ∧ Sound t ∧ StackOnly s t ∧ t.sp = s.sp + vs.length ∧
      Grown s.cap t.cap (s.sp + vs.length) ∧
      ∀ j : Int, t.cell j =
        if (s.sp : Int) ≤ j ∧ j < s.sp + vs.length then vs[(j - s.sp).toNat]? else s.cell j := by
  induction vs generalizing s with
  | nil =>
    exact ⟨s, rfl, h, rfl, rfl, grown_refl h.1, fun j => by
      rw [if_neg]; simp only [List.length_nil]; omega⟩
  | cons v vs ih =>
    simp only [List.length_cons] at *
    have hroom : s.hasRoom := hasRoom_of_lt_max h (by omega)
    obtain ⟨t, h1, h2, h3, h4, h5, h6⟩ := ih (sound_pushed h hroom v) (by simp only [pushed_sp, pushed_cfg]; omega)
    rw [pushed_sp] at h4 h5
    have h6 : ∀ j : Int, t.cell j =
        if ((s.sp + 1 : Nat) : Int) ≤ j ∧ j < ((s.sp + 1 : Nat) : Int) + vs.length
        then vs[(j - (s.sp + 1 : Nat)).toNat]? else (pushed v s).cell j := h6
    refine ⟨t, by simp only [pushAll, push_hasRoom hroom, andThen_ok, h1], h2,
      stackOnly_trans (stackOnly_pushed v s) h3, by omega, ?_, fun j => ?_⟩
    · have := grown_trans (grown_pushed h.1 (sound_cap_pos h) v) (by omega) h5
      rwa [show s.sp + (vs.length + 1) = s.sp + 1 + vs.length by omega]
    · rw [h6, pushed_cell h]
      by_cases hj : j = s.sp
      · subst hj
        rw [if_neg (by omega), if_pos rfl, if_pos (by omega)]; simp
      · by_cases hin : (s.sp : Int) ≤ j ∧ j < s.sp + (vs.length + 1 : Nat)
        · rw [if_pos hin, if_pos (by omega)]
          rw [show (j - s.sp).toNat = (j - (s.sp + 1 : Nat)).toNat + 1 by omega]
          rfl
        · rw [if_neg hin, if_neg (by omega), if_neg hj]

/-- Pushes that do not fit raise `Fatal(STACK_ALLOC)`. -/
theorem pushAll_noRoom {s : State} (h : Sound s) (vs : List Word)
    (hbig : s.cfg.stackCapMax < s.sp + vs.length) :
    ∃ t, pushAll vs s = .raised (.fatal .stackAlloc) t := by
  induction vs generalizing s with
  | nil =>
    have h1 := h.1
    have h2 := h.3
    simp only [List.length_nil] at hbig
    omega
  | cons v vs ih =>
    simp only [List.length_cons] at hbig
    by_cases hroom : s.hasRoom
    · obtain ⟨t, ht⟩ := ih (sound_pushed h hroom v) (by simp only [pushed_sp, pushed_cfg]; omega)
      exact ⟨t, by simp only [pushAll, push_hasRoom hroom, andThen_ok, ht]⟩
    · exact ⟨s, by simp only [pushAll, push_noRoom hroom, andThen_raised]⟩

/-- Pops off a stack whose cells from `n` on hold the Words in order. -/
theorem popAll_of {s : State} (vs : List Word) {n : Nat} (hn : s.sp = n + vs.length)
    (h : ∀ (k : Nat) (v : Word), vs[k]? = some v → s.stack.read s.cfg (n + k) = some v) :
    popAll vs.length s = .ok vs.reverse (s.setSp n) := by
  induction vs using List.reverseRecOn generalizing s with
  | nil =>
    simp only [List.length_nil, Nat.add_zero] at hn
    subst hn; rfl
  | append_singleton vs v ih =>
    simp only [List.length_append, List.length_singleton] at hn ⊢
    have htop : s.stack.read s.cfg (n + vs.length) = some v := h _ _ (by simp)
    have hpop : pop s = .ok v (s.setSp (n + vs.length)) := pop_of (by omega) htop
    have hrest := ih (s := s.setSp (n + vs.length)) rfl fun k w hk => h k w (by
      rw [List.getElem?_append_left (List.getElem?_eq_some_iff.1 hk).1]; exact hk)
    simp only [popAll, hpop, andThen_ok, hrest, List.reverse_append, List.reverse_singleton]
    rfl

/-! ### Sequences of indexed reads and writes -/

theorem stackReads_of {s : State} (vs : List Word) {i : Int}
    (h : ∀ (k : Nat) (v : Word), vs[k]? = some v → s.cell (i + k) = some v) :
    stackReads i vs.length s = .ok vs s := by
  induction vs generalizing i with
  | nil => rfl
  | cons v vs ih =>
    have h0 : s.cell i = some v := by simpa using h 0 v rfl
    have hrest := ih (i := i + 1) fun k w hk => by
      have := h (k + 1) w (by simpa using hk)
      rwa [show i + ((k + 1 : Nat) : Int) = i + 1 + k by push_cast; omega] at this
    simp only [List.length_cons, stackReads, stackRead_of h0, andThen_ok, hrest]

/-- The top `n` Words of a stack whose cells there are written can be read. -/
theorem stackReads_top {s : State} {n : Nat} (hn : n ≤ s.sp) (hsp : s.sp ≤ s.cap)
    (h : ∀ k, s.sp - n ≤ k → k < s.sp → s.stack.read s.cfg k ≠ none) :
    ∃ vs : List Word, vs.length = n ∧ stackReads ((s.sp : Int) - n) n s = .ok vs s := by
  let vs := (List.range n).map fun k => (s.stack.read s.cfg (s.sp - n + k)).getD 0
  have hl : vs.length = n := by simp [vs]
  have := stackReads_of (s := s) vs (i := (s.sp : Int) - n) fun k w hk => by
    have hk' := (List.getElem?_eq_some_iff.1 hk).1
    rw [hl] at hk'
    rw [show (s.sp : Int) - n + k = ((s.sp - n + k : Nat) : Int) by omega, cell_nat, if_pos (by omega)]
    obtain ⟨x, hx⟩ := Option.ne_none_iff_exists'.1 (h (s.sp - n + k) (by omega) (by omega))
    simp only [vs, List.getElem?_map, List.getElem?_range hk', Option.map_some, hx, Option.getD_some] at hk
    rw [hx]; exact hk
  rw [hl] at this
  exact ⟨vs, hl, this⟩

/-- Indexed writes inside the stack complete, and write those cells in order and no other. -/
theorem stackWrites_of {s : State} (hs : Sound s) (vs : List Word) {i : Int} (h0 : 0 ≤ i)
    (hle : i + vs.length ≤ s.cap) :
    ∃ t, stackWrites i vs s = .ok () t ∧ Sound t ∧ t = { s with stack := t.stack } ∧
      ∀ j : Int, t.cell j = if i ≤ j ∧ j < i + vs.length then vs[(j - i).toNat]? else s.cell j := by
  induction vs generalizing i s with
  | nil => exact ⟨s, rfl, hs, rfl, fun j => by rw [if_neg]; simp only [List.length_nil]; omega⟩
  | cons v vs ih =>
    simp only [List.length_cons, Nat.cast_add, Nat.cast_one] at *
    have hin : s.inStack i = true := inStack_iff.2 ⟨h0, by omega⟩
    have hlt : i.toNat < s.cap := by omega
    obtain ⟨t, h1, h2, h3, h4⟩ := ih (sound_setCell hs hlt v) (i := i + 1) (by omega)
      (by rw [State.setCell_cap]; omega)
    refine ⟨t, by simp only [stackWrites, stackWrite_of hin, andThen_ok, h1], h2, by rw [h3]; rfl, fun j => ?_⟩
    rw [h4, setCell_cell hlt]
    by_cases hj : j = i
    · subst hj
      rw [if_neg (by omega), if_pos (by omega), if_pos (by omega)]; simp
    · by_cases hin : i ≤ j ∧ j < i + (vs.length + 1)
      · rw [if_pos (by omega), if_pos hin, show (j - i).toNat = (j - (i + 1)).toNat + 1 by omega]
        rfl
      · rw [if_neg (by omega), if_neg hin, if_neg (by omega)]

/-- Indexed writes that leave the stack at its upper end raise `Fatal(STACK_INDEX)`. -/
theorem stackWrites_outside {s : State} (vs : List Word) {i : Int} (hle : i ≤ s.cap)
    (hbig : (s.cap : Int) < i + vs.length) :
    ∃ t, stackWrites i vs s = .raised (.fatal .stackIndex) t := by
  induction vs generalizing i s with
  | nil => simp only [List.length_nil] at hbig; omega
  | cons v vs ih =>
    simp only [List.length_cons, Nat.cast_add, Nat.cast_one] at hbig
    cases hin : s.inStack i with
    | false => exact ⟨s, by simp only [stackWrites, stackWrite_outside hin, andThen_raised]⟩
    | true =>
      have := inStack_iff.1 hin
      obtain ⟨t, ht⟩ := ih (s := s.setCell i.toNat v) (i := i + 1) (by rw [State.setCell_cap]; omega)
        (by rw [State.setCell_cap]; omega)
      exact ⟨t, by simp only [stackWrites, stackWrite_of hin, andThen_ok, ht]⟩

/-! ### The callee and its frame -/

/-- The two header fields of an entry whose four header bytes lie in the text. -/
theorem u16_of_bytes {s : State} {e : Word} {a1 a0 l1 l0 : Byte} (he : 0 ≤ e.toInt)
    (ht : (s.text.drop e.toNat).take 4 = [a1, a0, l1, l0]) :
    s.u16 e.toInt = some (be16 a1 a0) ∧ s.u16 (e.toInt + 2) = some (be16 l1 l0) := by
  have hb : ∀ (k : Nat) (b : Byte), [a1, a0, l1, l0][k]? = some b → s.textByte (e.toInt + k) = some b := by
    intro k b hk
    rw [← ht, List.getElem?_take, List.getElem?_drop] at hk
    have hk4 : k < 4 := by by_contra hn; rw [if_neg hn] at hk; cases hk
    rw [if_pos hk4] at hk
    have h1 := toInt_toNat he
    rw [State.textByte, if_pos (by omega), show (e.toInt + k).toNat = e.toNat + k by omega]
    exact hk
  have h0 := hb 0 a1 rfl
  have h1 := hb 1 a0 rfl
  have h2 := hb 2 l1 rfl
  have h3 := hb 3 l0 rfl
  simp only [Nat.cast_zero, Int.add_zero, Nat.cast_one, Nat.cast_ofNat] at h0 h1 h2 h3
  exact ⟨by simp [State.u16, h0, h1], by simp [State.u16, h2, show e.toInt + 2 + 1 = e.toInt + 3 by omega, h3]⟩

/-- A header field is read inside the text or not at all. -/
theorem u16_inside {s : State} {a : Int} (h : s.u16 a ≠ none) : 0 ≤ a ∧ a + 1 < s.text.length := by
  unfold State.u16 at h
  split at h
  · rename_i hx hy
    unfold State.textByte at hx hy
    split at hx
    · split at hy
      · have := (List.getElem?_eq_some_iff.1 hy).1
        omega
      · cases hy
    · cases hx
  · exact absurd rfl h

theorem constant_of {s : State} {i : Half} {w : Word} (h : s.cp[i.toNat]? = some w) :
    constant (idx16 i) s = .ok w s := by simp [constant, idx16, h]

theorem constant_outside {s : State} {i : Half} (h : s.cp.length ≤ i.toNat) :
    constant (idx16 i) s = .raised (.undef .cpRange) s := by
  simp [constant, idx16, List.getElem?_eq_none h]

/-- The callee that the statements name is the one the call resolves. -/
theorem resolve_of {s : State} {i : Half} {e : Word} {A L : Nat} (h : s.callee i e A L) :
    resolve i s = .ok ⟨e, A, L⟩ s := by
  obtain ⟨hc, he, a1, a0, l1, l0, ht, rfl, rfl, hA, hL⟩ := h
  obtain ⟨h1, h2⟩ := u16_of_bytes he ht
  have hok : ¬ (0x8000 ≤ (be16 a1 a0).toNat ∨ 0x8000 ≤ (be16 l1 l0).toNat) := by
    rw [be16_toNat, be16_toNat]; omega
  rw [resolve, constant_of hc, andThen_ok, header, h1, h2]
  rw [be16_toNat, be16_toNat] at hok
  simp only [be16_toNat, if_neg hok]

/-- The frame that a call builds at `base` from the arguments already there, where it fits. -/
theorem buildFrame_of {s : State} (h : Sound s) {base A L : Nat} {e : Word} (spc slv : Word)
    (hsp : s.sp = base + A) (hfit : s.sp + L + 2 ≤ s.cfg.stackCapMax) :
    ∃ t, buildFrame base ⟨e, A, L⟩ spc slv s = .ok () t ∧ Sound t ∧ StackOnly s t ∧ t.sp = s.sp + L + 2 ∧
      Grown s.cap t.cap (s.sp + L + 2) ∧
      ∀ j : Int, t.cell j =
        if j = base then some (BitVec.ofNat 32 (s.sp + L))
        else if j < s.sp then s.cell j
        else if j < s.sp + L then some s.cfg.localInit
        else if j = s.sp + L then some spc
        else if j = s.sp + L + 1 then some slv
        else s.cell j := by
  have hlen : (List.replicate L s.cfg.localInit ++ [spc, slv]).length = L + 2 := by simp
  obtain ⟨t, h1, h2, h3, h4, h5, h6⟩ := pushAll_of h (List.replicate L s.cfg.localInit ++ [spc, slv])
    (by rw [hlen]; omega)
  rw [hlen] at *
  have hb : base < t.cap := by
    have := h2.1
    omega
  have hin : t.inStack base = true := inStack_iff.2 ⟨by omega, by omega⟩
  refine ⟨t.setCell base (indexWord (base + A + L)), ?_, sound_setCell h2 hb _, ?_, by rw [State.setCell_sp, h4]; rfl, h5, ?_⟩
  · rw [pushAll_append, ← pushN_eq_pushAll] at h1
    unfold buildFrame
    cases hN : pushN L s.cfg.localInit s with
    | raised e u => rw [hN] at h1; cases h1
    | ok a u =>
      rw [hN] at h1
      simp only [andThen_ok, pushAll] at h1 ⊢
      cases hp : push spc u with
      | raised e v => rw [hp] at h1; cases h1
      | ok a v =>
        rw [hp] at h1
        simp only [andThen_ok] at h1 ⊢
        cases hq : push slv v with
        | raised e w => rw [hq] at h1; cases h1
        | ok a w =>
          rw [hq] at h1
          simp only [andThen_ok] at h1 ⊢
          cases h1
          exact stackWrite_of hin _
  · rw [h3]; rfl
  · intro j
    rw [setCell_cell hb, h6]
    by_cases hj : j = base
    · rw [if_pos hj, if_pos hj, hsp]; rfl
    · rw [if_neg hj, if_neg hj]
      by_cases hlt : j < s.sp
      · rw [if_neg (by omega), if_pos hlt]
      · rw [if_neg hlt]
        by_cases hL : j < s.sp + L
        · rw [if_pos (by omega), if_pos hL, List.getElem?_append_left (by simp; omega), List.getElem?_replicate,
            if_pos (by omega)]
        · rw [if_neg hL]
          by_cases h7 : j = s.sp + L
          · subst h7
            rw [if_pos (by omega), if_pos rfl, List.getElem?_append_right (by simp)]
            simp only [List.length_replicate]
            rw [show ((s.sp : Int) + L - s.sp).toNat - L = 0 by omega]; rfl
          · rw [if_neg h7]
            by_cases h8 : j = s.sp + L + 1
            · subst h8
              rw [if_pos (by omega), if_pos rfl, List.getElem?_append_right (by simp; omega)]
              simp only [List.length_replicate]
              rw [show ((s.sp : Int) + L + 1 - s.sp).toNat - L = 1 by omega]; rfl
            · rw [if_neg h8, if_neg (by omega)]

/-- A frame that does not fit is `Fatal(STACK_ALLOC)`. -/
theorem buildFrame_noRoom {s : State} (h : Sound s) {base A L : Nat} {e : Word} (spc slv : Word)
    (hbig : s.cfg.stackCapMax < s.sp + L + 2) :
    ∃ t, buildFrame base ⟨e, A, L⟩ spc slv s = .raised (.fatal .stackAlloc) t := by
  have hlen : (List.replicate L s.cfg.localInit ++ [spc, slv]).length = L + 2 := by simp
  obtain ⟨t, h1⟩ := pushAll_noRoom h (List.replicate L s.cfg.localInit ++ [spc, slv]) (by rw [hlen]; omega)
  refine ⟨t, ?_⟩
  rw [pushAll_append, ← pushN_eq_pushAll] at h1
  unfold buildFrame
  cases hN : pushN L s.cfg.localInit s with
  | raised e u => rw [hN] at h1; cases h1; rfl
  | ok a u =>
    rw [hN] at h1
    simp only [andThen_ok, pushAll] at h1 ⊢
    cases hp : push spc u with
    | raised e v => rw [hp] at h1; cases h1; rfl
    | ok a v =>
      rw [hp] at h1
      simp only [andThen_ok] at h1 ⊢
      cases hq : push slv v with
      | raised e w => rw [hq] at h1; cases h1; rfl
      | ok a w => rw [hq] at h1; cases h1

end Sys2Proof.Machine
end

