-- ==== Sys2Proof/Laws/PerInstr.lean ====
section
/-! SUPPORT. What holds of every instruction as it is written, one lemma per constructor. -/

namespace Sys2Proof.Laws

/-- The encoding of an instruction has the length that spec/30_encoding.md R93 gives. -/
def EncodeLength.Statement (i : Instr) : Prop := ∀ m : OpcodeMap, (encode m i).length = i.length

theorem EncodeLength.nop : EncodeLength.Statement Instr.nop := fun _ => rfl
theorem EncodeLength.err : EncodeLength.Statement Instr.err := fun _ => rfl
theorem EncodeLength.halt : EncodeLength.Statement Instr.halt := fun _ => rfl
theorem EncodeLength.bipush (b : Byte) : EncodeLength.Statement (Instr.bipush b) := fun _ => rfl
theorem EncodeLength.dup : EncodeLength.Statement Instr.dup := fun _ => rfl
theorem EncodeLength.pop : EncodeLength.Statement Instr.pop := fun _ => rfl
theorem EncodeLength.swap : EncodeLength.Statement Instr.swap := fun _ => rfl
theorem EncodeLength.iadd : EncodeLength.Statement Instr.iadd := fun _ => rfl
theorem EncodeLength.isub : EncodeLength.Statement Instr.isub := fun _ => rfl
theorem EncodeLength.iand : EncodeLength.Statement Instr.iand := fun _ => rfl
theorem EncodeLength.ior : EncodeLength.Statement Instr.ior := fun _ => rfl
theorem EncodeLength.inp : EncodeLength.Statement Instr.inp := fun _ => rfl
theorem EncodeLength.out : EncodeLength.Statement Instr.out := fun _ => rfl
theorem EncodeLength.goto (off : Half) : EncodeLength.Statement (Instr.goto off) := fun _ => rfl
theorem EncodeLength.ifeq (off : Half) : EncodeLength.Statement (Instr.ifeq off) := fun _ => rfl
theorem EncodeLength.iflt (off : Half) : EncodeLength.Statement (Instr.iflt off) := fun _ => rfl
theorem EncodeLength.ifIcmpeq (off : Half) : EncodeLength.Statement (Instr.ifIcmpeq off) := fun _ => rfl
theorem EncodeLength.ldcW (i : Half) : EncodeLength.Statement (Instr.ldcW i) := fun _ => rfl
theorem EncodeLength.iload (i : Byte) : EncodeLength.Statement (Instr.iload i) := fun _ => rfl
theorem EncodeLength.istore (i : Byte) : EncodeLength.Statement (Instr.istore i) := fun _ => rfl
theorem EncodeLength.iinc (i : Byte) (d : Byte) : EncodeLength.Statement (Instr.iinc i d) := fun _ => rfl
theorem EncodeLength.wide (b : Byte) : EncodeLength.Statement (Instr.wide b) := fun _ => rfl
theorem EncodeLength.wideIload (i : Half) : EncodeLength.Statement (Instr.wideIload i) := fun _ => rfl
theorem EncodeLength.wideIstore (i : Half) : EncodeLength.Statement (Instr.wideIstore i) := fun _ => rfl
theorem EncodeLength.wideIinc (i : Half) (d : Byte) : EncodeLength.Statement (Instr.wideIinc i d) := fun _ => rfl
theorem EncodeLength.newarray : EncodeLength.Statement Instr.newarray := fun _ => rfl
theorem EncodeLength.iaload : EncodeLength.Statement Instr.iaload := fun _ => rfl
theorem EncodeLength.iastore : EncodeLength.Statement Instr.iastore := fun _ => rfl
theorem EncodeLength.invokevirtual (i : Half) : EncodeLength.Statement (Instr.invokevirtual i) := fun _ => rfl
theorem EncodeLength.ireturn : EncodeLength.Statement Instr.ireturn := fun _ => rfl
theorem EncodeLength.tailcall (i : Half) : EncodeLength.Statement (Instr.tailcall i) := fun _ => rfl

end Sys2Proof.Laws
end

