-- ==== Sys2Proof/Laws/Run.lean ====
section
/-! SUPPORT. From the shared operations to a step and to a run: what every operation keeps, a step keeps
where it does not end in a fatal or an undefined error, and so does a run. -/

namespace Sys2Proof.Machine

/-- An instruction that ends in a fatal error reports it. -/
theorem reportsFatal_of {i : Instr} {s u : State} {c : FatalCause}
    (h : exec i s = finish (.raised (.fatal c) u)) : ∃ t, exec i s = .next t ∧ t.reportsFatal c :=
  ⟨_, h, rfl, rfl⟩

/-- An instruction that ends in an undefined error reports it. -/
theorem reportsUndef_of {i : Instr} {s u : State} {c : UndefCause}
    (h : exec i s = finish (.raised (.undef c) u)) : ∃ t, exec i s = .next t ∧ t.reportsUndef c :=
  ⟨_, h, rfl, rfl⟩

/-- Only a recoverable error leaves a state that is not faulted. -/
theorem recoverable_of_not_faulted {e : RunError} {s : State} (h : ¬ (raise e s).faulted) :
    ∃ c, e = .recoverable c := by
  cases e with
  | recoverable c => exact ⟨c, rfl⟩
  | fatal c => exact absurd rfl h
  | undef c => exact absurd rfl h

/-- An error has ended the run: there is nothing left to settle. -/
theorem settle_raise (e : RunError) (s : State) : settle (raise e s) = raise e s :=
  if_neg fun h => raise_status_ne_run e s h.1

/-- A step of a core that does not run changes nothing. -/
theorem step_of_not_running {s : State} (h : s.status ≠ .run) : step s = .next s := by
  unfold step fetch
  cases hs : s.status <;> simp_all

/-- A relation that every operation, and a change of the status, extends holds of every step that does
not end in a fatal or an undefined error. -/
theorem step_extends {R : State → State → Prop} (hops : ∀ i s, Closed i (R s)) (hrefl : ∀ s, R s s)
    (hstatus : ∀ s t st c, R s t → R s (t.setStatus st c)) {s t : State} (h : step s = .next t)
    (hf : ¬ t.faulted) : R s t := by
  have hsettle : ∀ u, R s u → R s (settle u) := by
    intro u hu; unfold settle; split
    · exact hstatus _ _ _ _ hu
    · exact hu
  have hraise : ∀ e u, R s u → ¬ (raise e u).faulted → R s (raise e u) := by
    intro e u hu hf
    obtain ⟨c, rfl⟩ := recoverable_of_not_faulted hf
    exact hstatus _ _ _ _ ((hops .nop s).pc _ _ hu)
  unfold step at h
  cases hfetch : fetch s with
  | ends u =>
    rw [hfetch] at h; cases h
    unfold fetch at hfetch
    split at hfetch
    · split at hfetch
      · cases hfetch; exact hraise _ _ (hrefl s) hf
      · split at hfetch
        · cases hfetch
        · cases hfetch; exact hraise _ _ (hrefl s) hf
        · cases hfetch; exact hraise _ _ (hrefl s) hf
        · cases hfetch; exact hsettle _ (hrefl s)
    · cases hfetch; exact hrefl s
    · cases hfetch; exact hrefl s
    · cases hfetch; exact hrefl s
  | runs i =>
    rw [hfetch] at h
    obtain ⟨r, hr, hall⟩ := exec_closed (hops i s) (hrefl s)
    simp only [hr] at h
    cases r with
    | ok a u => cases h; exact hsettle _ hall
    | raised e u =>
      cases h
      rw [settle_raise] at hf ⊢
      exact hraise _ _ hall hf

/-- The same along a run, for a relation that is transitive. -/
theorem run_extends {R : State → State → Prop} (hops : ∀ i s, Closed i (R s)) (hrefl : ∀ s, R s s)
    (hstatus : ∀ s t st c, R s t → R s (t.setStatus st c)) (htrans : ∀ s t u, R s t → R t u → R s u)
    {s t : State} (h : Run s t) (hf : ¬ t.faulted) : R s t := by
  induction h with
  | refl => exact hrefl _
  | tail hrun hstep ih =>
    rename_i t u
    by_cases ht : t.faulted
    · have hne : t.status ≠ .run := by intro he; simp [State.faulted, he, Status.faulted] at ht
      rw [step_of_not_running hne] at hstep
      cases hstep
      exact absurd ht hf
    · exact htrans _ _ _ (ih ht) (step_extends hops hrefl hstatus hstep hf)

/-- Two properties kept side by side. -/
theorem closed_and {i : Instr} {P Q : State → Prop} (hP : Closed i P) (hQ : Closed i Q) :
    Closed i fun s => P s ∧ Q s := by
  have both : ∀ {α : Type} {r : Res α}, r.All P → r.All Q → r.All fun s => P s ∧ Q s := by
    intro α r h h'; cases r <;> exact ⟨h, h'⟩
  exact ⟨fun v s h => both (hP.push v s h.1) (hQ.push v s h.2), fun s h => both (hP.pop s h.1) (hQ.pop s h.2),
    fun k v s h => both (hP.write k v s h.1) (hQ.write k v s h.2),
    fun n s h hn => ⟨hP.size n s h.1 hn, hQ.size n s h.2 hn⟩, fun v s h => ⟨hP.pc v s h.1, hQ.pc v s h.2⟩,
    fun hi c s h => both (hP.allocate hi c s h.1) (hQ.allocate hi c s h.2),
    fun hi r k v s h => both (hP.store hi r k v s h.1) (hQ.store hi r k v s h.2),
    fun hi v d s h => ⟨hP.frame hi v d s h.1, hQ.frame hi v d s h.2⟩,
    fun hi b s h => ⟨hP.out hi b s h.1, hQ.out hi b s h.2⟩,
    fun hi as e s h => ⟨hP.host hi as e s h.1, hQ.host hi as e s h.2⟩⟩

/-- What an operation on the Value Stack leaves alone. -/
theorem all_of_stackOnly {α : Type} {P : State → Prop} {r : Res α} {s : State} (hr : r.All (StackOnly s))
    (h : ∀ t, StackOnly s t → P t) : r.All P := by
  cases r with
  | ok a t => exact h t hr
  | raised e t => exact h t hr

/-- What does not look at the heap table is kept by an allocation. -/
theorem allocate_all {P : State → Prop} (h : ∀ s a n, P s → P (s.setHeap a n)) (c : Word) {s : State}
    (hs : P s) : (allocate c s).All P := by
  unfold allocate; repeat' split
  · exact hs
  · exact hs
  · exact hs
  · exact h _ _ _ hs

/-- What does not look at the heap table is kept by a store into an array. -/
theorem arrayStore_all {P : State → Prop} (h : ∀ s a n, P s → P (s.setHeap a n)) (r i v : Word) {s : State}
    (hs : P s) : (arrayStore r i v s).All P := by
  unfold arrayStore; repeat' split
  · exact hs
  · exact h _ _ _ hs
  · exact hs

/-- What does not look at the Value Stack is kept by every operation on it. -/
theorem closed_of_stackOnly {i : Instr} {P : State → Prop} (h : ∀ s t, P s → StackOnly s t → P t)
    (pc : ∀ v s, P s → P (s.setPc v))
    (allocate : i = .newarray → ∀ c s, P s → (allocate c s).All P)
    (store : i = .iastore → ∀ r k v s, P s → (arrayStore r k v s).All P)
    (frame : (∃ k, i = .invokevirtual k) ∨ i = .ireturn → ∀ v d s, P s → P ((s.setLv v).setDepth d))
    (out : i = .out → ∀ b s, P s → P (s.appendOut b))
    (host : i = .inp → ∀ as e s, P s → P (s.setHost as e)) : Closed i P :=
  ⟨fun v s hp => all_of_stackOnly (push_stackOnly v s) fun t => h s t hp,
    fun s hp => all_of_stackOnly (pop_stackOnly s) fun t => h s t hp,
    fun k v s hp => all_of_stackOnly (stackWrite_stackOnly k v s) fun t => h s t hp,
    fun _ s hp _ => h s _ hp rfl, pc, allocate, store, frame, out, host⟩

/-- What an instruction keeps up to its end or its first error holds of the next state, where that is not
the state of a fatal or an undefined error. -/
theorem exec_keeps {i : Instr} {P : State → Prop} (hP : Closed i P)
    (hstatus : ∀ s st c, P s → P (s.setStatus st c)) {s t : State} (h : exec i s = .next t)
    (hf : ¬ t.faulted) (hs : P s) : P t := by
  obtain ⟨r, hr, hall⟩ := exec_closed hP hs
  rw [hr] at h
  cases r with
  | ok a u => cases h; exact hall
  | raised e u =>
    cases h
    obtain ⟨c, rfl⟩ := recoverable_of_not_faulted hf
    exact hstatus _ _ _ (hP.pc _ _ hall)

end Sys2Proof.Machine
end

