-- ==== Sys2Proof/Tests/Slice0.lean ====
section
/-! SUPPORT. Tests: the checks of WellFormed, decoding of words written out from spec/30_encoding.md R92
and R94, single steps with the expected results of spec/95_test_vectors.md (named V<n> below), and for
each statement with hypotheses a state and operands that meet them. -/

namespace Sys2Proof.Machine.Tests

open Sys2Proof Sys2Proof.Machine

set_option Elab.async false

/-! ### States for the tests -/

/-- Make `ws` the Value Stack, the last one on top. -/
def withStack (ws : List Word) (s : State) : State :=
  (ws.zipIdx.foldl (fun s p => s.setCell p.2 p.1) s).setSp ws.length

/-- The start state of the vectors: a text of 40 bytes that begins with the given ones, after LOAD. -/
def vec (bytes : List Byte) (ws : List Word) : State :=
  withStack ws (loaded Params.default [] (bytes ++ List.replicate (40 - bytes.length) 0))

/-- The same with the bytes at 10, and `pc` there. -/
def vec10 (bytes : List Byte) (ws : List Word) : State :=
  (vec (List.replicate 10 0 ++ bytes) ws).setPc 10

/-- The same with three bytes at 6, `pc` there, a method header at 20 and `CP = [20]`. -/
def call (bytes : List Byte) (header : List Byte) (ws : List Word) : State :=
  { vec (List.replicate 6 0 ++ bytes ++ List.replicate 11 0 ++ header) ws with pc := 6, cp := [20] }

/-- The frame of V133: `S[0..4] = 3, 1, 5, 9, 0` at `lv = 0`, operands above it, at depth 1. -/
def framed (bytes header : List Byte) (ws : List Word) : State :=
  { call bytes header ([3, 1, 5, 9, 0] ++ ws) with depth := 1 }

/-- The same state under a platform whose largest stack is the initial one. -/
def smallStack (s : State) : State := { s with cfg := { s.cfg with stackDoublings := 0 } }

/-- What is seen of the next state of an outcome. -/
def seen {α : Type} (o : Host.Outcome State Fault Refusal) (f : State → α) : Option α :=
  match o with
  | .next s => some (f s)
  | .fault _ => none
  | .refused _ => none

/-- What is seen of the state after one step. -/
def look {α : Type} (s : State) (f : State → α) : Option α := seen (step s) f

/-- The status and the cause after one step. -/
def ends (s : State) : Option (Status × Cause) := look s fun t => (t.status, t.cause)

/-- A check of a valid instance with the doublings of the two capacities given. -/
def soundCheck (k j : Nat) (s : State) : Bool :=
  decide (s.sp ≤ s.cap) && decide (s.cap = s.cfg.stackCapInit * 2 ^ k) && decide (s.cap ≤ s.cfg.stackCapMax) &&
  s.stack.all (fun c => decide (c.1 < s.cap)) && decide (s.heap.length ≤ s.hcap) &&
  decide (s.hcap = s.cfg.heapTableCapInit * 2 ^ j) && decide (s.hcap ≤ s.cfg.heapTableMax) &&
  s.heap.all (fun a => decide (1 ≤ a.length)) && decide (s.heapWords ≤ s.cfg.heapWordsMax) &&
  decide (s.text.length ≤ s.cfg.textMax) && decide (s.cp.length ≤ s.cfg.cpMax) &&
  decide s.cfg.SizesFit

theorem sound_of_check {k j : Nat} {s : State} (h : soundCheck k j s = true) : Sound s := by
  simp only [soundCheck, Bool.and_eq_true, decide_eq_true_eq, List.all_eq_true] at h
  obtain ⟨⟨⟨⟨⟨⟨⟨⟨⟨⟨⟨h1, h2⟩, h3⟩, h4⟩, h5⟩, h6⟩, h7⟩, h8⟩, h9⟩, h10⟩, h11⟩, h12⟩ := h
  exact ⟨h1, ⟨k, h2⟩, h3, h4, h5, ⟨j, h6⟩, h7, h8, h9, h10, h11, h12⟩

/-- A check that the stack ends in the Words. -/
def endsCheck (ws : List Word) (s : State) : Bool :=
  decide (ws.length ≤ s.sp) && (ws.zipIdx.all fun p => s.stack.read s.cfg (s.sp - 1 - p.2) == some p.1)

theorem endsIn_of_check {ws : List Word} {s : State} (h : endsCheck ws s = true) : s.endsIn ws := by
  simp only [endsCheck, Bool.and_eq_true, decide_eq_true_eq, List.all_eq_true, beq_iff_eq] at h
  exact ⟨h.1, fun k w hk => h.2 (w, k) (List.mk_mem_zipIdx_iff_getElem?.2 hk)⟩

/-! ### WellFormed: each check refuses an ill-formed term -/

theorem test_wf_wide_before_iload : (Instr.wide 0x15).wf OpcodeMap.default = false := by decide
theorem test_wf_wide_before_istore : (Instr.wide 0x36).wf OpcodeMap.default = false := by decide
theorem test_wf_wide_before_iinc : (Instr.wide 0x84).wf OpcodeMap.default = false := by decide
theorem test_wf_wide_other : (Instr.wide 0x10).wf OpcodeMap.default = true := by decide
theorem test_wf_params_default : Params.default.wf = true := by decide +kernel
theorem test_wf_params_same_byte_twice :
    { Params.default with opcodeMap := { OpcodeMap.default with err := 0x00 } }.wf = false := by decide +kernel
theorem test_wf_params_text_too_large : { Params.default with textMax := 2 ^ 31 }.wf = false := by decide +kernel
theorem test_wf_params_pool_too_large : { Params.default with cpMax := 2 ^ 30 + 1 }.wf = false := by decide +kernel
theorem test_wf_params_table_too_small : { Params.default with heapTableMax := 9 }.wf = false := by decide +kernel
theorem test_wf_params_no_stack : { Params.default with stackCapInit := 0, sentinelCount := 0 }.wf = false := by
  decide +kernel
theorem test_wf_params_no_table : { Params.default with heapTableCapInit := 0 }.wf = false := by decide +kernel
theorem test_wf_params_sentinels_too_many : { Params.default with sentinelCount := 513 }.wf = false := by
  decide +kernel

/-! ### Decoding: a word of every constructor, written out from R92, R94 and R96 -/

theorem test_decode_no_operand :
    [0x00, 0xFE, 0xFF, 0x59, 0x57, 0x5F, 0x60, 0x64, 0x7E, 0xB0, 0xFC, 0xFD, 0xD1, 0xD2, 0xD3, 0xAC].map
        (fun b : Byte => decode OpcodeMap.default [b]) =
      [.nop, .err, .halt, .dup, .pop, .swap, .iadd, .isub, .iand, .ior, .inp, .out, .newarray, .iaload,
        .iastore, .ireturn].map (fun i => .instr i []) := by decide

theorem test_decode_byte_operands :
    [[0x10, 0x80], [0x15, 0x64], [0x36, 0x65], [0x84, 0x65, 0xFB]].map
        (fun bs : List Byte => decode OpcodeMap.default bs) =
      [.bipush 0x80, .iload 0x64, .istore 0x65, .iinc 0x65 0xFB].map (fun i => .instr i []) := by decide

theorem test_decode_half_operands :
    [[0xA7, 0xFF, 0xFA], [0x99, 0x00, 0x07], [0x9B, 0x01, 0x00], [0x9F, 0x00, 0x19], [0x13, 0x80, 0x01],
        [0xB6, 0x00, 0x03], [0xCB, 0x02, 0x00]].map (fun bs : List Byte => decode OpcodeMap.default bs) =
      [.goto 0xFFFA, .ifeq 0x0007, .iflt 0x0100, .ifIcmpeq 0x0019, .ldcW 0x8001, .invokevirtual 0x0003,
        .tailcall 0x0200].map (fun i => .instr i []) := by decide

theorem test_decode_wide :
    [[0xC4, 0x15, 0x01, 0x2C], [0xC4, 0x36, 0x01, 0x2C], [0xC4, 0x84, 0x01, 0x2C, 0xFD], [0xC4, 0xC4]].map
        (fun bs : List Byte => decode OpcodeMap.default bs) =
      [.wideIload 0x012C, .wideIstore 0x012C, .wideIinc 0x012C 0xFD, .wide 0xC4].map (fun i => .instr i []) := by
  decide

theorem test_decode_rest : decode OpcodeMap.default [0x10, 0x41, 0xFD] = .instr (.bipush 0x41) [0xFD] := by decide
theorem test_decode_unknown : decode OpcodeMap.default [0x01] = .unknownOpcode 0x01 := by decide
theorem test_decode_truncated : decode OpcodeMap.default [0xC4, 0x84, 0x01, 0x2C] = .truncated := by decide
theorem test_decode_wide_alone : decode OpcodeMap.default [0xC4] = .truncated := by decide

/-- The rows of spec/opcode_table.json, as the table gives their bits and bytes. -/
theorem test_decodeTableWord_rows :
    [decodeTableWord 8 0x00, decodeTableWord 8 0xFF, decodeTableWord 16 0x10, decodeTableWord 24 0xA7,
      decodeTableWord 8 0xC4, decodeTableWord 16 0xC415, decodeTableWord 32 0xC436, decodeTableWord 40 0xC484,
      decodeTableWord 24 0xCB] =
    [some .nop, some .halt, some (.bipush 0), some (.goto 0), some (.wide 0), some (.wideIload 0),
      some (.wideIstore 0), some (.wideIinc 0 0), some (.tailcall 0)] := by decide +kernel

/-- Bits numbered from the first byte's least significant bit: the byte `n` is bits `8n+7 .. 8n`. -/
theorem test_decodeTableWord_operands :
    [decodeTableWord 16 0x4110, decodeTableWord 24 0xFAFFA7, decodeTableWord 32 0x2C0115C4,
      decodeTableWord 40 0xFD2C0184C4, decodeTableWord 8 0x01] =
    [some (.bipush 0x41), some (.goto 0xFFFA), some (.wideIload 0x012C), some (.wideIinc 0x012C 0xFD), none] := by
  decide +kernel

/-! ### Reset, LOAD and the interface -/

/-- The image of the empty program: the magic number and four zero fields (R70). -/
def emptyImage : List Byte := [0x1D, 0xEA, 0xDF, 0xAD] ++ List.replicate 16 0

/-- The image of W3. -/
def imageW3 : List Byte := emptyImage.take 16 ++ [0, 0, 0, 4, 0x10, 0x41, 0xFD, 0xFF]

theorem test_reset_is_load_of_the_empty_image :
    load Params.default true emptyImage = .ok State.reset [] := by decide +kernel

/-- W10: the state after the load of W3's image. -/
theorem test_load_W3 :
    load Params.default true imageW3 = .ok (loaded Params.default [] [0x10, 0x41, 0xFD, 0xFF]) [] := by
  decide +kernel

/-- W1: a bad magic number; no byte after it is consumed. -/
theorem test_load_W1 : load Params.default true [0xCA, 0xFE, 0xBA, 0xBE, 0, 0] = .error .badMagic [0, 0] ∧
    load Params.default true [0x1D, 0xEA, 0xDF] = .error .truncated [] := by decide +kernel

/-- One constant-pool Word, big-endian. -/
theorem test_load_pool :
    load Params.default true (emptyImage.take 8 ++ [0, 0, 0, 4, 1, 2, 3, 4] ++ List.replicate 8 0) =
      .ok (loaded Params.default [0x01020304] []) [] := by decide +kernel

theorem test_withFetchWord : seen (step (State.reset.withFetchWord 16 0x4110))
    (fun t => (t.pc, t.sp, t.cell 0, t.status)) = some (2, 1, some 65, .run) := by decide +kernel

theorem test_withFetchWord_wide : seen (step (State.reset.withFetchWord 16 0xC415))
    (fun t => (t.pc, t.sp, t.cell 0)) = some (4, 1, some 1) := by decide +kernel

/-! ### Single steps: machine control (V1 to V8) -/

theorem test_nop_V1 : look (vec [0x00, 0xFF] []) (fun t => (t.pc, t.status)) = some (1, .run) := by decide +kernel
theorem test_nop_V2 : look (loaded Params.default [] [0x00]) (fun t => (t.pc, t.status, t.cause)) =
    some (1, .done, .none) := by decide +kernel
theorem test_err_V3 : look (loaded Params.default [] [0xFE, 0xFF]) (fun t => (t.pc, t.status, t.cause.code)) =
    some (2, .done, 0x01) := by decide +kernel
theorem test_unknown_V4 : look (loaded Params.default [] [0x01, 0xFF]) (fun t => (t.pc, t.status, t.cause.code)) =
    some (2, .done, 0x02) := by decide +kernel
theorem test_done_V6 : look State.reset id = some State.reset := by decide +kernel
theorem test_halt_V8 : look (loaded Params.default [] [0xFF, 0x10, 0x05]) (fun t => (t.pc, t.status, t.cause)) =
    some (3, .done, .none) := by decide +kernel

/-! ### Stack and arithmetic (V11 to V31) -/

theorem test_bipush_V11 : look (vec [0x10, 0x80] []) (fun t => (t.pc, t.sp, t.cell 0)) =
    some (2, 1, some 0xFFFFFF80) := by decide +kernel
theorem test_bipush_V31 : ends (loaded Params.default [] [0x10]) = some (.undef, .error (.undef .truncated)) := by
  decide +kernel
theorem test_bipush_V29 : look ((vec [0x10, 0x01] []).setSp 512) (fun t => (t.cap, t.sp, t.cell 512, t.cell 513)) =
    some (1024, 513, some 1, none) := by decide +kernel
theorem test_bipush_V30 : ends (smallStack ((vec [0x10, 0x01] []).setSp 512)) =
    some (.fatal, .error (.fatal .stackAlloc)) := by decide +kernel
theorem test_dup_V13 : look (vec [0x59] [5]) (fun t => (t.pc, t.sp, t.cell 0, t.cell 1)) =
    some (1, 2, some 5, some 5) := by decide +kernel
theorem test_dup_V14 : ends (vec [0x59] []) = some (.fatal, .error (.fatal .stackUnderflow)) := by decide +kernel
theorem test_pop_V15 : look (vec [0x57] [5, 6]) (fun t => (t.sp, t.cell 1)) = some (1, some 6) := by decide +kernel
theorem test_pop_V16 : ends (vec [0x57] []) = some (.fatal, .error (.fatal .stackUnderflow)) := by decide +kernel
theorem test_swap_V17 : look (vec [0x5F] [1, 2]) (fun t => (t.sp, t.cell 0, t.cell 1)) =
    some (2, some 2, some 1) := by decide +kernel
theorem test_swap_V18 : ends (vec [0x5F] [1]) = some (.fatal, .error (.fatal .stackUnderflow)) := by decide +kernel
theorem test_iadd_V20 : look (vec [0x60] [0x7FFFFFFF, 1]) (fun t => (t.sp, t.cell 0)) =
    some (1, some 0x80000000) := by decide +kernel
theorem test_isub_V23 : look (vec [0x64] [3, 10]) (fun t => (t.sp, t.cell 0)) = some (1, some (-7)) := by
  decide +kernel
theorem test_iand_V25 : look (vec [0x7E] [0x0F0F0F0F, 0x00FF00FF]) (fun t => (t.sp, t.cell 0)) =
    some (1, some 0x000F000F) := by decide +kernel
theorem test_ior_V26 : look (vec [0xB0] [0x0F0F0F0F, 0x00FF00FF]) (fun t => (t.sp, t.cell 0)) =
    some (1, some 0x0FFF0FFF) := by decide +kernel

/-! ### Input and output (V41 to V47) -/

theorem test_in_V41 : look ((vec [0xFC] []).setHost [.byte 0xFF, .eof] false)
    (fun t => (t.pc, t.cell 0, t.answers, t.eof)) = some (1, some 255, [.eof], false) := by decide +kernel
theorem test_in_V44 : look ((vec [0xFC] []).setHost [.byte 0xFF] true)
    (fun t => (t.sp, t.cell 0, t.answers)) = some (1, some 0, [.byte 0xFF]) := by decide +kernel
theorem test_in_V45 : look (vec [0xFC] []) id = some (vec [0xFC] []) := by decide +kernel
/-- The host's side of V45: the step does not complete, and the host sees the request. -/
theorem test_block_in_V45 : (Block.mk Params.default (some (vec [0xFC] [])) 0).step =
    (⟨Params.default, some (vec [0xFC] []), 0⟩, .holds) := by decide +kernel
theorem test_block_out : (Block.mk Params.default (some (vec [0xFD] [0x141])) 0).step.2 =
    .stepped (some (.byte 0x41)) := by decide +kernel
theorem test_out_V46 : look (vec [0xFD] [0x141]) (fun t => (t.sp, t.outlog)) = some (0, [0x41]) := by decide +kernel
theorem test_out_V48 : ends (vec [0xFD] []) = some (.fatal, .error (.fatal .stackUnderflow)) := by decide +kernel

/-! ### Branches (V51 to V64) -/

theorem test_goto_V51 : look (vec10 [0xA7, 0xFF, 0xF6] []) (fun t => (t.pc, t.status)) = some (0, .run) := by
  decide +kernel
theorem test_goto_V54 : look (vec10 [0xA7, 0xFF, 0xF5] []) (fun t => (t.pc, t.status)) = some (-1, .run) := by
  decide +kernel
theorem test_goto_V53 : look (vec10 [0xA7, 0x00, 0x1E] []) (fun t => (t.pc, t.status, t.cause)) =
    some (40, .done, .none) := by decide +kernel
theorem test_pc_range : ends ((vec [] []).setPc (-1)) = some (.undef, .error (.undef .pcRange)) := by decide +kernel
theorem test_ifeq_V55 : look (vec10 [0x99, 0x00, 0x08] [0]) (fun t => (t.pc, t.sp)) = some (18, 0) := by
  decide +kernel
theorem test_ifeq_V56 : look (vec10 [0x99, 0x00, 0x08] [5]) (fun t => (t.pc, t.sp)) = some (13, 0) := by
  decide +kernel
theorem test_iflt_V58 : look (vec10 [0x9B, 0x00, 0x08] [0]) (fun t => (t.pc, t.sp)) = some (13, 0) := by
  decide +kernel
theorem test_iflt_V59 : look (vec10 [0x9B, 0x00, 0x08] [0x80000000]) (fun t => (t.pc, t.sp)) = some (18, 0) := by
  decide +kernel
theorem test_ificmpeq_V60 : look (vec10 [0x9F, 0x00, 0x08] [4, 4]) (fun t => (t.pc, t.sp)) = some (18, 0) := by
  decide +kernel
theorem test_ificmpeq_V61 : look (vec10 [0x9F, 0x00, 0x08] [4, 5]) (fun t => (t.pc, t.sp)) = some (13, 0) := by
  decide +kernel

/-! ### Constants and locals (V70 to V89) -/

theorem test_ldcw_V70 : look { vec [0x13, 0x00, 0x01] [] with cp := [7, -3] } (fun t => (t.pc, t.sp, t.cell 0)) =
    some (3, 1, some (-3)) := by decide +kernel
theorem test_ldcw_V71 : ends { vec [0x13, 0x00, 0x02] [] with cp := [7, -3] } =
    some (.undef, .error (.undef .cpRange)) := by decide +kernel
theorem test_iload_V73 : look (vec [0x15, 0x64] []) (fun t => (t.pc, t.cell 0)) = some (2, some 1) := by
  decide +kernel
theorem test_iload_V88 : look (((vec [0x15, 0x01] []).setCell 5 77).setLv 4) (fun t => t.cell 0) =
    some (some 77) := by decide +kernel
theorem test_istore_V75 : look (vec [0x36, 0x64] [9]) (fun t => (t.pc, t.sp, t.cell 100)) =
    some (2, 0, some 9) := by decide +kernel
theorem test_istore_V76 : ends (vec [0x36, 0x64] []) = some (.fatal, .error (.fatal .stackUnderflow)) := by
  decide +kernel
theorem test_iinc_V78 : look ((vec [0x84, 0x64, 0xFB] []).setCell 100 10) (fun t => (t.pc, t.sp, t.cell 100)) =
    some (3, 0, some 5) := by decide +kernel
theorem test_iinc_V79 : look ((vec [0x84, 0x64, 0x01] []).setCell 100 0x7FFFFFFF) (fun t => t.cell 100) =
    some (some 0x80000000) := by decide +kernel
theorem test_wide_iload_V81 : look ((vec [0xC4, 0x15, 0x01, 0x2C] []).setCell 300 9) (fun t => (t.pc, t.cell 0)) =
    some (4, some 9) := by decide +kernel
theorem test_wide_iload_V84 : ends (vec [0xC4, 0x15, 0x02, 0x58] []) =
    some (.fatal, .error (.fatal .stackIndex)) := by decide +kernel
theorem test_wide_istore_V82 : look (vec [0xC4, 0x36, 0x01, 0x2C] [7]) (fun t => (t.pc, t.sp, t.cell 300)) =
    some (4, 0, some 7) := by decide +kernel
theorem test_wide_iinc_V83 : look ((vec [0xC4, 0x84, 0x01, 0x2C, 0xFD] []).setCell 300 10)
    (fun t => (t.pc, t.cell 300)) = some (5, some 7) := by decide +kernel
theorem test_wide_iinc_V89 : ends (vec [0xC4, 0x84, 0x01, 0x2C, 0x01] []) =
    some (.undef, .error (.undef .unwrittenRead)) := by decide +kernel
theorem test_wide_V87 : ends (vec [0xC4, 0xC4, 0x15, 0x00, 0x01] []) = some (.undef, .error (.undef .badWide)) := by
  decide +kernel

/-! ### Arrays (V101 to V113) -/

theorem test_newarray_V101 : look ((vec [0xD1] [1]).setHeap (List.replicate 10 [0]) 10)
    (fun t => (t.pc, t.sp, t.cell 0, t.hcap, t.heap[10]?)) = some (1, 1, some 10, 20, some [0]) := by decide +kernel
theorem test_newarray_V103 : look (vec [0xD1] [0x80000000]) (fun t => (t.pc, t.status, t.cause.code, t.sp, t.heap)) =
    some (40, .done, 0x03, 0, []) := by decide +kernel
theorem test_iaload_V105 : look ((vec [0xD2] [1, 0]).setHeap [[97, 98, 99]] 10) (fun t => (t.pc, t.sp, t.cell 0)) =
    some (1, 1, some 98) := by decide +kernel
theorem test_iaload_V113 : ends (vec [0xD2] [-1, 5]) = some (.undef, .error (.undef .badRef)) := by decide +kernel
theorem test_iastore_V109 : look ((vec [0xD3] [97, 2, 0]).setHeap [[0, 0, 0]] 10) (fun t => (t.sp, t.heap)) =
    some (0, [[0, 0, 97]]) := by decide +kernel
theorem test_iastore_V110 : look ((vec [0xD3] [97, 3, 0]).setHeap [[0, 0, 0]] 10)
    (fun t => (t.sp, t.heap, t.status, t.cause.code)) = some (0, [[0, 0, 0]], .done, 0x04) := by decide +kernel

/-! ### Frames (V121 to V136) -/

theorem test_invokevirtual_V121 : look (call [0xB6, 0, 0] [0, 2, 0, 2] [0x42, 5])
    (fun t => ((List.range 6).map fun i : Nat => t.cell i, t.sp, t.lv, t.depth, t.pc)) =
    some ([some 4, some 5, some 1, some 1, some 9, some 0], 6, 0, 1, 24) := by decide +kernel
theorem test_invokevirtual_V122 : look (call [0xB6, 0, 0] [0, 0, 0, 0] [5, 6, 7])
    (fun t => (t.cell 3, t.cell 4, t.sp, t.lv, t.depth, t.pc)) =
    some (some 3, some 0, 5, 3, 1, 24) := by decide +kernel
theorem test_ireturn_V130 : look { call [0xAC] [] [3, 10, 20, 9, 0, 30] with depth := 1 }
    (fun t => (t.sp, t.cell 0, t.lv, t.pc, t.depth)) = some (1, some 30, 0, 9, 0) := by decide +kernel
theorem test_ireturn_V132 : ends { call [0xAC] [] [5, 6, 9] with
      depth := 1, lv := 3, stack := (call [0xAC] [] [5, 6, 9, 3, 0]).stack } =
    some (.undef, .error (.undef .unwindBelowBase)) := by decide +kernel
theorem test_tailcall_V135 : look (framed [0xCB, 0, 0] [0, 3, 0, 0] [6])
    (fun t => ((List.range 5).map fun i : Nat => t.cell i, t.sp, t.lv, t.depth, t.pc)) =
    some ([some 3, some 0, some 6, some 9, some 0], 5, 0, 1, 24) := by decide +kernel
theorem test_tailcall_V136 : look (framed [0xCB, 0, 0] [0, 2, 0, 1] [0x42, 7])
    (fun t => ((List.range 5).map fun i : Nat => t.cell i, t.sp)) =
    some ([some 3, some 7, some 1, some 9, some 0], 5) := by decide +kernel

/-! ### Witnesses: for each statement with hypotheses, a state and operands that meet them -/

/-- A state that runs, with three Words on its stack. -/
def three : State := vec [0x60] [5, 2, 0]

/-- Its stack filled to the capacity. -/
def filled : State := three.setSp 512

/-- At the capacity, under a platform that cannot provide a larger stack. -/
def stuck : State := smallStack filled

/-- The stack of `three`, an array of three Words, and the index and the reference on top. -/
def arrays : State := (vec [0xD2] [9, 2, 0]).setHeap [[97, 98, 99]] 10

theorem three_sound : Sound three := sound_of_check (k := 0) (j := 0) (by decide +kernel)
theorem filled_sound : Sound filled := sound_of_check (k := 0) (j := 0) (by decide +kernel)
theorem stuck_sound : Sound stuck := sound_of_check (k := 0) (j := 0) (by decide +kernel)
theorem arrays_sound : Sound arrays := sound_of_check (k := 0) (j := 0) (by decide +kernel)
theorem three_ends : three.endsIn [0, 2, 5] := endsIn_of_check (by decide +kernel)
theorem three_ends_one : three.endsIn [0] := endsIn_of_check (by decide +kernel)
theorem three_ends_two : three.endsIn [0, 2] := endsIn_of_check (by decide +kernel)
theorem three_room : three.hasRoom := fun h => absurd h (by decide +kernel)
theorem filled_room : filled.hasRoom := fun _ => by decide +kernel
theorem stuck_noRoom : ¬ stuck.hasRoom := fun h => absurd (h (by decide +kernel)) (by decide +kernel)

/-- Both conditions under which a push finds room, the second at the capacity, and neither. -/
theorem witness_PushGrowsByDoubling :
    (Sound three ∧ three.hasRoom) ∧ (Sound filled ∧ filled.hasRoom ∧ filled.sp = filled.cap) ∧
      Sound stuck ∧ ¬ stuck.hasRoom :=
  ⟨⟨three_sound, three_room⟩, ⟨filled_sound, filled_room, by decide +kernel⟩, stuck_sound, stuck_noRoom⟩

theorem witness_PopsReturnPushesInReverse :
    Sound filled ∧ filled.sp + [1, 2, 3].length ≤ filled.cfg.stackCapMax := ⟨filled_sound, by decide +kernel⟩

theorem witness_DecodeOfEncodeReturnsInstruction :
    OpcodeMap.default.Distinct ∧ (Instr.wide 0x10).wf OpcodeMap.default = true := by decide

theorem witness_EncodeOfDecodeReturnsBytes :
    decode OpcodeMap.default [0x10, 0x80, 0x07] = .instr (.bipush 0x80) [0x07] := by decide

theorem witness_EveryProperPrefixIsTruncated :
    OpcodeMap.default.Distinct ∧ (Instr.wideIinc 1 2).wf OpcodeMap.default = true ∧ 0 < 4 ∧
      4 < (encode OpcodeMap.default (.wideIinc 1 2)).length := by decide

theorem witness_StepRuns_not_running : State.reset.status ≠ .run := by decide

theorem witness_StepRuns_below :
    (three.setPc (-1)).status = .run ∧ (three.setPc (-1)).pc.toInt < 0 := by decide +kernel

theorem witness_StepRuns_unknown :
    (vec [0x01] []).status = .run ∧ 0 ≤ (vec [0x01] []).pc.toInt ∧
      (vec [0x01] []).text.drop (vec [0x01] []).pc.toNat = 0x01 :: List.replicate 39 0 ∧
      ∀ k, (vec [0x01] []).cfg.opcodeMap.byte k ≠ 0x01 :=
  ⟨by decide +kernel, by decide +kernel, by decide +kernel, fun k => by cases k <;> decide +kernel⟩

theorem witness_StepRuns_truncated :
    (loaded Params.default [] [0x10]).status = .run ∧ 0 ≤ (loaded Params.default [] [0x10]).pc.toInt ∧
      decode OpcodeMap.default ((loaded Params.default [] [0x10]).text.drop 0) = .truncated := by decide +kernel

theorem witness_StepRuns_instr :
    three.status = .run ∧ 0 ≤ three.pc.toInt ∧
      decode three.cfg.opcodeMap (three.text.drop three.pc.toNat) = .instr .iadd (List.replicate 39 0) := by
  decide +kernel

theorem witness_EndedRunsStayAsTheyAre : Run State.reset State.reset ∧ State.reset.ended :=
  ⟨.tail (.refl _) rfl, fun h => nomatch h⟩

theorem witness_LoadOfAnImageGivesTheResetState :
    [1, 2, 3, 4].length = 4 ∧ [5, 6, 7, 8].length = 4 ∧ ([5] : List Word).length ≤ Params.default.cpMax ∧
      ([0xFF] : List Byte).length ≤ Params.default.textMax ∧ 4 * ([5] : List Word).length < 2 ^ 32 ∧
      ([0xFF] : List Byte).length < 2 ^ 32 := by decide +kernel

theorem witness_LoadChecksTheMagicNumberFirst :
    ([0x1D, 0xEA, 0xDF] : List Byte).length < 4 ∧ (0xCAFEBABE : Word) ≠ Params.default.magic := by decide +kernel

/-- A size for each clause: not a multiple of 4; just above `CP_MAX`; just above `TEXT_MAX`; and one that
fits, with its data; under a constant pool of one Word and two different origins. -/
theorem witness_LoadChecksTheSizes :
    ([0, 0, 0, 0] : List Byte).length = 4 ∧ ([0, 0, 0, 1] : List Byte).length = 4 ∧
      ([5] : List Word).length ≤ Params.default.cpMax ∧ 4 * ([5] : List Word).length < 2 ^ 32 ∧ (3 : Word).toNat % 4 ≠ 0 ∧
      ({ Params.default with cpMax := 1 }.cpMax < (8 : Word).toNat / 4 ∧ (8 : Word).toNat % 4 = 0) ∧
      Params.default.textMax < (0x80000000 : Word).toNat ∧
      (1 : Word).toNat ≤ Params.default.textMax ∧ (1 : Word).toNat ≤ ([0xFF] : List Byte).length := by decide +kernel

theorem witness_LoadOfAShortenedImageIsTruncated :
    load Params.default true imageW3 = .ok (loaded Params.default [] [0x10, 0x41, 0xFD, 0xFF]) [] ∧
      23 < imageW3.length := by decide +kernel

theorem witness_LoadReplacesTheMachineOrLeavesNone :
    load Params.default true [0x1D] = .error .truncated [] ∧
      load Params.default true emptyImage = .ok State.reset [] := by decide +kernel

theorem witness_InspectAnswersFromTheState :
    three.status = .run ∧ three.endsIn [0] ∧ (State.reset.status = .done ∧ State.reset.sp = 0) ∧
      three.cell (three.lv.toInt + 255) = some 1 ∧ three.cell (three.lv.toInt + 256) = none ∧
      (call [] [] []).cp[0]? = some 20 ∧ ((call [] [] []).cp.length : Int) ≤ 1 ∧
      (three.setStatus .fatal (.error (.fatal .stackAlloc))).status = .fatal ∧
      (three.setStatus .undef (.error (.undef .unwindBelowBase))).cause = .error (.undef .unwindBelowBase) :=
  ⟨by decide +kernel, three_ends_one, by decide +kernel, by decide +kernel, by decide +kernel, by decide +kernel,
    by decide +kernel, by decide +kernel⟩

theorem witness_LoadedStatesMeetTheInvariant :
    Params.default.wf = true ∧ load Params.default true emptyImage = .ok State.reset [] := by decide +kernel

theorem three_inv : Inv three :=
  ⟨by decide +kernel, by decide +kernel, show _ ∧ _ from ⟨by decide +kernel, by decide +kernel⟩, fun _ => three_sound⟩

theorem witness_EveryStepKeepsTheInvariant : Inv three ∧ ∃ t, step three = .next t := ⟨three_inv, _, rfl⟩

theorem witness_HaltEndsTheRunCleanly :
    (vec [0xFF] []).status = .run ∧ 0 ≤ (vec [0xFF] []).pc.toInt ∧ (vec [0xFF] []).text.length < 2 ^ 31 ∧
      decode (vec [0xFF] []).cfg.opcodeMap ((vec [0xFF] []).text.drop (vec [0xFF] []).pc.toNat) =
        .instr .halt (List.replicate 39 0) := by decide +kernel

/-- BIPUSH, also at the capacity. -/
theorem witness_BipushPushesTheSignExtendedByte :
    (Sound three ∧ three.hasRoom) ∧ Sound filled ∧ filled.hasRoom :=
  ⟨⟨three_sound, three_room⟩, filled_sound, filled_room⟩

theorem witness_DupPushesTheTop : Sound three ∧ three.hasRoom ∧ three.endsIn [0] :=
  ⟨three_sound, three_room, three_ends_one⟩

/-- POP, OUT, IFEQ, IFLT. -/
theorem witness_one_operand : three.endsIn [0] := three_ends_one

/-- SWAP and the four binary operations. -/
theorem witness_two_operands : Sound three ∧ three.endsIn [0, 2] := ⟨three_sound, three_ends_two⟩

/-- IF_ICMPEQ: equal and different. -/
theorem witness_IfIcmpeqComparesTheTopTwo : three.endsIn [0, 2] ∧ (vec [] [4, 4]).endsIn [4, 4] :=
  ⟨three_ends_two, endsIn_of_check (by decide +kernel)⟩

/-- The three answers of the host, and none; and blocks whose next instruction is IN. -/
theorem witness_InPushesTheHostsAnswer :
    (Sound three ∧ three.hasRoom) ∧ (three.setHost [] true).eof = true ∧
      ((three.setHost [.byte 0xFF, .eof] false).eof = false ∧
        (three.setHost [.byte 0xFF, .eof] false).answers = .byte 0xFF :: [.eof] ∧
        (255 : Word).toNat = (0xFF : Byte).toNat) ∧
      (three.setHost [.eof] false).answers = .eof :: [] ∧ (three.eof = false ∧ three.answers = []) ∧
      (let s := vec [0xFC] []
       s.status = .run ∧ 0 ≤ s.pc.toInt ∧
         decode s.cfg.opcodeMap (s.text.drop s.pc.toNat) = .instr .inp (List.replicate 39 0) ∧
         s.eof = false ∧ s.answers = [] ∧ (s.setHost [.eof] false).answers ≠ []) :=
  ⟨⟨three_sound, three_room⟩, by decide +kernel⟩

theorem witness_LdcWPushesTheConstant :
    (Sound (call [] [] [7]) ∧ (call [] [] [7]).hasRoom ∧ (call [] [] [7]).cp[(0 : Half).toNat]? = some 20) ∧
      (call [] [] [7]).cp.length ≤ (1 : Half).toNat :=
  ⟨⟨sound_of_check (k := 0) (j := 0) (by decide +kernel), fun h => absurd h (by decide +kernel), by decide +kernel⟩,
    by decide +kernel⟩

/-- Loads and increments, at the last sentinel. -/
theorem witness_locals_read :
    Sound three ∧ three.hasRoom ∧ three.cell (three.lv.toInt + (255 : Byte).toNat) = some 1 ∧
      three.cell (three.lv.toInt + (255 : Half).toNat) = some 1 :=
  ⟨three_sound, three_room, by decide +kernel, by decide +kernel⟩

/-- Stores, at the last cell that exists. -/
theorem witness_StoresWriteTheLocal :
    three.endsIn [0] ∧ 0 ≤ three.lv.toInt + (255 : Byte).toNat ∧ three.lv.toInt + (255 : Byte).toNat < three.cap ∧
      three.lv.toInt + (511 : Half).toNat < three.cap :=
  ⟨three_ends_one, by decide +kernel⟩

/-- The first cell that does not exist, one below 0, and the first never written. -/
theorem witness_BadLocalIndicesEndTheRun :
    (three.cap : Int) ≤ three.lv.toInt + (512 : Nat) ∧ (three.setLv (-1)).lv.toInt + (0 : Nat) < 0 ∧
      three.endsIn [0] ∧ (512 : Half).toNat = 512 ∧
      (0 ≤ three.lv.toInt + (256 : Nat) ∧ three.lv.toInt + (256 : Nat) < three.cap ∧
        three.cell (three.lv.toInt + (256 : Nat)) = none) :=
  ⟨by decide +kernel, by decide +kernel, three_ends_one, by decide +kernel, by decide +kernel⟩

/-- NEWARRAY with the table below its capacity, and at it. -/
theorem witness_NewarrayAppendsAZeroedArray :
    Sound arrays ∧ ((vec [] [3]).setHeap (List.replicate 10 [0]) 10).endsIn [3] ∧ 0 < (3 : Word).toInt ∧
      Sound ((vec [] [3]).setHeap (List.replicate 10 [0]) 10) ∧ 2 * 10 ≤ Params.default.heapTableMax ∧
      ((List.replicate 10 [(0 : Word)]).map List.length).sum + (3 : Word).toNat ≤ Params.default.heapWordsMax :=
  ⟨arrays_sound, endsIn_of_check (by decide +kernel), by decide +kernel,
    sound_of_check (k := 0) (j := 0) (by decide +kernel), by decide +kernel, by decide +kernel⟩

theorem witness_NewarrayErrors :
    three.endsIn [0] ∧ (0 : Word).toInt ≤ 0 ∧ (vec [] [3]).endsIn [3] ∧ 0 < (3 : Word).toInt ∧
      { Params.default with heapWordsMax := 2 }.heapWordsMax <
        (([] : List (List Word)).map List.length).sum + (3 : Word).toNat ∧
      { Params.default with heapTableMax := 10 }.heapTableMax < 2 * 10 :=
  ⟨three_ends_one, by decide +kernel, endsIn_of_check (by decide +kernel), by decide +kernel⟩

theorem witness_IaloadReadsTheElement :
    Sound arrays ∧ arrays.endsIn [0, 2] ∧ 0 ≤ (0 : Word).toInt ∧ arrays.heap[(0 : Word).toNat]? = some [97, 98, 99] ∧
      0 ≤ (2 : Word).toInt ∧ ([97, 98, 99] : List Word)[(2 : Word).toNat]? = some 99 :=
  ⟨arrays_sound, endsIn_of_check (by decide +kernel), by decide +kernel⟩

theorem witness_IastoreWritesTheElement :
    arrays.endsIn [0, 2, 9] ∧ 0 ≤ (0 : Word).toInt ∧ arrays.heap[(0 : Word).toNat]? = some [97, 98, 99] ∧
      0 ≤ (2 : Word).toInt ∧ (2 : Word).toInt < ([97, 98, 99] : List Word).length :=
  ⟨endsIn_of_check (by decide +kernel), by decide +kernel⟩

/-- References just outside the table and indices just outside the array. -/
theorem witness_BadArrayAccessesEndTheRun :
    (vec [] [0, 0, 1]).endsIn [1, 0] ∧ ((arrays.heap.length : Int) ≤ (1 : Word).toInt ∧ (-1 : Word).toInt < 0) ∧
      (vec [] [9, 3, 0]).endsIn [0, 3, 9] ∧ (([97, 98, 99] : List Word).length : Int) ≤ (3 : Word).toInt :=
  ⟨endsIn_of_check (by decide +kernel), by decide +kernel, endsIn_of_check (by decide +kernel), by decide +kernel⟩

/-! Frames. -/

/-- A caller with three Words on its stack, of a method with `A = 3` and `L = 1`. -/
def caller : State := call [0xB6, 0, 0] [0, 3, 0, 1] [0x42, 10, 20]

theorem caller_sound : Sound caller := sound_of_check (k := 0) (j := 0) (by decide +kernel)

theorem caller_callee : caller.callee 0 20 3 1 :=
  ⟨by decide +kernel, by decide +kernel, 0, 3, 0, 1, by decide +kernel⟩

theorem witness_InvokevirtualBuildsTheFrame :
    Sound caller ∧ caller.callee 0 20 3 1 ∧ 3 ≤ caller.sp ∧ caller.sp + 1 + 2 ≤ caller.cfg.stackCapMax :=
  ⟨caller_sound, caller_callee, by decide +kernel, by decide +kernel⟩

/-- A method with `A = 0` and `L = 0`, whose link overwrites the saved pc. -/
theorem witness_Invokevirtual_empty_frame :
    Sound (call [0xB6, 0, 0] [0, 0, 0, 0] []) ∧ (call [0xB6, 0, 0] [0, 0, 0, 0] []).callee 0 20 0 0 :=
  ⟨sound_of_check (k := 0) (j := 0) (by decide +kernel), by decide +kernel, by decide +kernel, 0, 0, 0, 0,
    by decide +kernel⟩

/-- Inside the frame of V133, with three operands, before a TAILCALL of a method with `A = 3`, `L = 0`. -/
def inFrame : State := framed [0xCB, 0, 0] [0, 3, 0, 0] [0x42, 0, 6]

theorem inFrame_sound : Sound inFrame := sound_of_check (k := 0) (j := 0) (by decide +kernel)
theorem inFrame_frame : inFrame.frame 3 9 0 := ⟨by decide +kernel, by decide +kernel, by decide +kernel⟩
theorem inFrame_callee : inFrame.callee 0 20 3 0 := ⟨by decide +kernel, by decide +kernel, 0, 3, 0, 0, by decide +kernel⟩

theorem inFrame_written : ∀ k, inFrame.sp - 3 ≤ k → k < inFrame.sp → inFrame.stack.read inFrame.cfg k ≠ none := by
  have : ∀ k ∈ List.range 8, inFrame.stack.read inFrame.cfg k ≠ none := by decide +kernel
  intro k _ hk
  exact this k (List.mem_range.2 hk)

theorem witness_IreturnUnwindsTheFrame :
    inFrame.sp ≤ inFrame.cap ∧ inFrame.depth ≠ 0 ∧ inFrame.endsIn [6] ∧ inFrame.frame 3 9 0 ∧
      inFrame.lv.toInt < inFrame.sp :=
  ⟨by decide +kernel, by decide +kernel, endsIn_of_check (by decide +kernel), inFrame_frame, by decide +kernel⟩

theorem witness_TailcallReusesTheFrame :
    Sound inFrame ∧ inFrame.callee 0 20 3 0 ∧ inFrame.depth ≠ 0 ∧ inFrame.frame 3 9 0 ∧ 3 ≤ inFrame.sp ∧
      (∀ (k : Nat) (w : Word), ([0x42, 0, 6] : List Word)[k]? = some w →
        inFrame.stack.read inFrame.cfg (inFrame.sp - 3 + k) = some w) ∧
      inFrame.lv.toInt + (3 : Nat) ≤ inFrame.cap ∧ inFrame.lv.toNat + 3 + 0 + 2 ≤ inFrame.cfg.stackCapMax := by
  refine ⟨inFrame_sound, inFrame_callee, by decide +kernel, inFrame_frame, by decide +kernel, fun k w hk => ?_,
    by decide +kernel, by decide +kernel⟩
  match k, hk with
  | 0, hk => cases hk; decide +kernel
  | 1, hk => cases hk; decide +kernel
  | 2, hk => cases hk; decide +kernel
  | k + 3, hk => simp at hk

/-- The callee's state just before its IRETURN, its result pushed on the frame that the call built. -/
def called : Option State := (seen (exec (.invokevirtual 0) caller) id).map fun t =>
  ((t.setCell t.sp 30).setSp (t.sp + 1))

theorem witness_ReturnRestoresTheCaller : ∃ t u : State,
    Sound caller ∧ caller.callee 0 20 3 1 ∧ 1 ≤ 3 ∧ 3 ≤ caller.sp ∧ caller.sp + 1 + 2 ≤ caller.cfg.stackCapMax ∧
      caller.sp + 1 + 2 < 2 ^ 31 ∧ exec (.invokevirtual 0) caller = .next t ∧ called = some u ∧ u.lv = t.lv ∧
      u.depth = t.depth ∧ u.depth ≠ 0 ∧ u.sp ≤ u.cap ∧ t.sp < u.sp ∧ u.endsIn [30] ∧
      (∀ j : Int, j = t.lv.toInt ∨ j = caller.sp + (1 : Nat) ∨ j = caller.sp + (1 : Nat) + 1 → u.cell j = t.cell j) ∧
      ∀ j : Int, j < (caller.sp - 3 : Nat) → u.cell j = t.cell j := by
  refine ⟨_, _, caller_sound, caller_callee, by decide, by decide +kernel, by decide +kernel, by decide +kernel, rfl,
    rfl, rfl, rfl, by decide +kernel, by decide +kernel, by decide +kernel, endsIn_of_check (by decide +kernel),
    ?_, fun j hj => ?_⟩
  · rintro j (rfl | rfl | rfl) <;> decide +kernel
  · have hj : j < 0 := hj
    have hn : ∀ s : State, s.cell j = none := fun s => if_neg (by rw [inStack_iff]; omega)
    rw [hn, hn]

/-- An index past the pool; an entry below 0 and one whose header reaches past the end; a count with bit 15. -/
theorem witness_CallsOfBadCalleesAreUndefined :
    caller.cp.length ≤ (1 : Half).toNat ∧ (caller.cp[(0 : Half).toNat]? = some 20 ∧ (-1 : Word).toInt < 0) ∧
      (caller.text.length : Int) ≤ (37 : Word).toInt + 3 ∧
      (((call [0xB6, 0, 0] [0x80, 0, 0, 0] []).text.drop (20 : Word).toNat).take 4 = [0x80, 0, 0, 0] ∧
        0x80 ≤ (0x80 : Byte).toNat) := by decide +kernel

/-- A stack with too few Words; `lv + A` past the capacity; depth 0; a stack popped to the frame's base. -/
theorem witness_FrameErrorsEndTheRun :
    ((call [0xB6, 0, 0] [0, 3, 0, 0] [5]).callee 0 20 3 0 ∧ (call [0xB6, 0, 0] [0, 3, 0, 0] [5]).sp < 3) ∧
      (inFrame.depth ≠ 0 ∧ inFrame.frame 3 9 0) ∧
      (let s := ((((inFrame.setLv 510).setCell 510 3).setCell 511 0))
       s.callee 0 20 3 0 ∧ 3 ≤ s.sp ∧ s.sp ≤ s.cap ∧ s.frame 3 9 0 ∧ (s.cap : Int) < s.lv.toInt + (3 : Nat) ∧
         ∀ k, s.sp - 3 ≤ k → k < s.sp → s.stack.read s.cfg k ≠ none) ∧
      caller.depth = 0 ∧
      (let s := (inFrame.setLv 8).setCell 8 3
       s.depth ≠ 0 ∧ s.endsIn [6] ∧ s.frame 3 9 0 ∧ (s.sp : Int) ≤ s.lv.toInt) := by
  refine ⟨⟨⟨by decide +kernel, by decide +kernel, 0, 3, 0, 0, by decide +kernel⟩, by decide +kernel⟩,
    ⟨by decide +kernel, inFrame_frame⟩, ⟨⟨by decide +kernel, by decide +kernel, 0, 3, 0, 0, by decide +kernel⟩,
    by decide +kernel, by decide +kernel, ⟨by decide +kernel, by decide +kernel, by decide +kernel⟩, by decide +kernel,
    fun k _ hk => ?_⟩, by decide +kernel, by decide +kernel, endsIn_of_check (by decide +kernel),
    ⟨by decide +kernel, by decide +kernel, by decide +kernel⟩, by decide +kernel⟩
  have : ∀ k ∈ List.range 8, (((inFrame.setLv 510).setCell 510 3).setCell 511 0).stack.read inFrame.cfg k ≠ none := by
    decide +kernel
  exact this k (List.mem_range.2 hk)

/-- The link's cell, the saved pc's and the saved lv's: the first outside the stack, the last never
written. -/
theorem witness_FramesThatCannotBeReadEndTheRun :
    inFrame.depth ≠ 0 ∧ inFrame.endsIn [6] ∧ inFrame.callee 0 20 3 0 ∧
      (inFrame.cap : Int) ≤ (inFrame.setLv 512).lv.toInt ∧
      ((inFrame.setCell 0 511).cell (0 : Int) = some 511 ∧ (inFrame.setCell 0 511).cell 511 = none) ∧
      ((inFrame.setCell 0 255).cell 255 ≠ none ∧ (inFrame.setCell 0 255).cell 256 = none) :=
  ⟨by decide +kernel, endsIn_of_check (by decide +kernel), inFrame_callee, by decide +kernel, by decide +kernel,
    by decide +kernel⟩

/-- One Word fewer than each group of instructions takes. -/
theorem witness_StackUnderflowIsFatal :
    ((vec [] []).sp < 1 ∧ (vec [] [7]).sp < 2 ∧ (vec [] [7, 7]).sp < 3) ∧
      (∀ k, k < (vec [] [7, 7]).sp → (vec [] [7, 7]).stack.read (vec [] [7, 7]).cfg k ≠ none) ∧
      { vec [] [] with depth := 1 }.depth ≠ 0 := by
  refine ⟨by decide +kernel, fun k hk => ?_, by decide +kernel⟩
  have : ∀ k ∈ List.range 2, (vec [] [7, 7]).stack.read (vec [] [7, 7]).cfg k ≠ none := by decide +kernel
  exact this k (List.mem_range.2 hk)

theorem witness_PushesWithoutRoomAreFatal :
    ¬ stuck.hasRoom ∧ (stuck.setCell 511 4).endsIn [4] ∧ stuck.cell (stuck.lv.toInt + (255 : Byte).toNat) = some 1 ∧
      (0 : Half).toNat < { stuck with cp := [7] }.cp.length ∧
      (stuck.setHost [.eof] false).answers = .eof :: [] ∧ (stuck.setHost [] true).eof = true :=
  ⟨stuck_noRoom, endsIn_of_check (by decide +kernel), by decide +kernel⟩

/-- Callers on a platform with the smallest stack, at its capacity, with their arguments and the frame's
cells written. -/
theorem witness_CallsWithoutRoomAreFatal :
    (let s := smallStack (caller.setSp 510)
     Sound s ∧ s.callee 0 20 3 1 ∧ 3 ≤ s.sp ∧ s.cfg.stackCapMax < s.sp + 1 + 2) ∧
      (let s := smallStack ((inFrame.setLv 508).setCell 508 3)
       s.depth ≠ 0 ∧ s.frame 3 9 0 ∧ s.lv.toInt + (3 : Nat) ≤ s.cap ∧ s.cfg.stackCapMax < s.lv.toNat + 3 + 0 + 2 ∧
         ∀ k, s.sp - 3 ≤ k → k < s.sp → s.stack.read s.cfg k ≠ none) := by
  refine ⟨⟨sound_of_check (k := 0) (j := 0) (by decide +kernel),
    ⟨by decide +kernel, by decide +kernel, 0, 3, 0, 1, by decide +kernel⟩, by decide +kernel, by decide +kernel⟩,
    by decide +kernel, ⟨by decide +kernel, by decide +kernel, by decide +kernel⟩, by decide +kernel, by decide +kernel,
    fun k _ hk => ?_⟩
  have : ∀ k ∈ List.range 8, (smallStack ((inFrame.setLv 508).setCell 508 3)).stack.read (smallStack inFrame).cfg k ≠ none := by
    decide +kernel
  exact this k (List.mem_range.2 hk)

/-! Rules of the whole machine: runs and instructions that do not end in a fatal or an undefined error. -/

theorem witness_runs : ∃ t, Run three t ∧ ¬ t.faulted ∧ three.eof = false :=
  ⟨_, .tail (.refl _) rfl, show ¬ _ = true by decide +kernel, by decide +kernel⟩

theorem witness_runs_after_eof : Run (three.setHost [] true) (three.setHost [] true) ∧
    (three.setHost [] true).eof = true := ⟨.refl _, rfl⟩

theorem witness_calls_that_complete :
    (∃ t, exec (.invokevirtual 0) caller = .next t ∧ ¬ t.faulted) ∧
      (∃ t, exec .ireturn inFrame = .next t ∧ ¬ t.faulted) ∧ ∃ t, exec (.tailcall 0) inFrame = .next t ∧ ¬ t.faulted :=
  ⟨⟨_, rfl, show ¬ _ = true by decide +kernel⟩, ⟨_, rfl, show ¬ _ = true by decide +kernel⟩,
    _, rfl, show ¬ _ = true by decide +kernel⟩

theorem witness_out_completes : ∃ t, exec .out three = .next t ∧ ¬ t.faulted :=
  ⟨_, rfl, show ¬ _ = true by decide +kernel⟩

end Sys2Proof.Machine.Tests
end

section
/-! SUPPORT. The invariant of the machine: what a running step can do, and that its two ways to end keep
the invariant (spec/10_state.md R28, R29, R36). -/

namespace Sys2Proof.Machine

/-! ### What a step can do -/

/-- What a running core finds: an error of the fetch, the end of the text, or an instruction
(spec/30_encoding.md R91). -/
theorem fetch_running {s : State} (hs : s.status = .run) :
    (∃ e, fetch s = .ends (raise e s)) ∨ fetch s = .ends (settle s) ∨ ∃ i, fetch s = .runs i := by
  unfold fetch
  rw [hs]
  dsimp only
  split
  · exact .inl ⟨_, rfl⟩
  · split
    · exact .inr (.inr ⟨_, rfl⟩)
    · exact .inl ⟨_, rfl⟩
    · exact .inl ⟨_, rfl⟩
    · exact .inr (.inl rfl)

theorem step_of_ends {s t : State} (h : fetch s = .ends t) : step s = .next t := by simp [step, h]

theorem step_of_runs {s : State} {i : Instr} (h : fetch s = .runs i) : step s = afterHandler (exec i s) := by
  simp [step, h]

theorem afterHandler_finish_ok (s : State) : afterHandler (finish (.ok () s)) = .next (settle s) := rfl

/-- An error of the handler has ended the run, so nothing is left to settle. -/
theorem afterHandler_finish_raised (e : RunError) (s : State) :
    afterHandler (finish (.raised e s)) = .next (raise e s) := by
  rw [finish_raised, afterHandler, settle_raise]

/-- A running step settles, or raises an error in, a state that has what every shared operation keeps. -/
theorem step_running_cases {P : State → Prop} (hP : ∀ i, Closed i P) {s t : State} (hs : s.status = .run)
    (h : P s) (ht : step s = .next t) : ∃ u, P u ∧ (t = settle u ∨ ∃ e, t = raise e u) := by
  rcases fetch_running hs with ⟨e, he⟩ | he | ⟨i, hi⟩
  · rw [step_of_ends he] at ht
    cases ht
    exact ⟨s, h, .inr ⟨e, rfl⟩⟩
  · rw [step_of_ends he] at ht
    cases ht
    exact ⟨s, h, .inl rfl⟩
  · obtain ⟨r, hr, hall⟩ := exec_closed (hP i) h
    rw [step_of_runs hi, hr] at ht
    cases r with
    | ok _ u =>
      rw [afterHandler_finish_ok] at ht
      cases ht
      exact ⟨u, hall, .inl rfl⟩
    | raised e u =>
      rw [afterHandler_finish_raised] at ht
      cases ht
      exact ⟨u, hall, .inr ⟨e, rfl⟩⟩

/-! ### The invariant -/

/-- The text of a valid machine is short enough for its length to read back as itself (R23). -/
theorem textEnd_toInt {s : State} (h : Valid s) : s.textEnd.toInt = s.text.length := by
  obtain ⟨-, htext, -⟩ := sound_params h.params
  have hlen := h.sound.text_le_max
  exact toInt_ofNat_lt (by omega)

theorem not_faulted_of_run {s : State} (hs : s.status = .run) : ¬ s.faulted := by
  simp [State.faulted, hs, Status.faulted]

theorem valid_of_running {s : State} (h : Inv s) (hs : s.status = .run) : Valid s :=
  ⟨h.params, h.memory, h.sound (not_faulted_of_run hs)⟩

theorem cause_of_running {s : State} (h : Inv s) (hs : s.status = .run) : s.cause = .none := by
  have hagrees := h.status
  rw [StatusAgrees, hs] at hagrees
  exact hagrees.2

/-- An error leaves a state that meets the invariant: a recoverable one a valid machine at the end of its
text (R301), any other one nothing but what the invariant still claims (R302, R303). -/
theorem inv_raise {s : State} (h : Valid s) (e : RunError) : Inv (raise e s) where
  params := by rw [raise_cfg]; exact h.params
  memory := by rw [raise_cfg]; exact raise_memory_wf e h.memory
  status := by
    cases e with
    | recoverable c => exact ⟨(textEnd_toInt h).ge, .inr ⟨c, rfl⟩⟩
    | fatal c => exact ⟨c, rfl⟩
    | undef c => exact ⟨c, rfl⟩
  sound hf := by
    obtain ⟨c, rfl⟩ := recoverable_of_not_faulted hf
    exact (valid_setStatus (valid_setPc h _) _ _).sound

/-- Settling makes `status` say where `pc` is (R28, R91). -/
theorem inv_settle {s : State} (h : Valid s) (hs : s.status = .run) (hc : s.cause = .none) : Inv (settle s) := by
  by_cases hp : s.pastEnd = true
  · rw [settle, if_pos ⟨hs, hp⟩]
    exact ⟨h.params, h.memory, ⟨of_decide_eq_true hp, .inl hc⟩, fun _ => (valid_setStatus h _ _).sound⟩
  · rw [settle, if_neg fun hr => hp hr.2]
    refine ⟨h.params, h.memory, ?_, fun _ => h.sound⟩
    rw [StatusAgrees, hs]
    exact ⟨by simpa [State.pastEnd] using hp, hc⟩

/-- Settles O18: a running step settles, or raises an error in, a state that is still valid. -/
theorem everyStepKeepsTheInvariant : Obligations.EveryStepKeepsTheInvariant := by
  intro s t h ht
  by_cases hs : s.status = .run
  · obtain ⟨u, ⟨hvalid, hkept⟩, rfl | ⟨e, rfl⟩⟩ :=
      step_running_cases (fun i => closed_and (valid_closed i) (kept_closed i s)) hs
        ⟨valid_of_running h hs, kept_refl s⟩ ht
    · exact inv_settle hvalid (hkept.status.trans hs) (hkept.cause.trans (cause_of_running h hs))
    · exact inv_raise hvalid e
  · rw [step_of_not_running hs] at ht
    cases ht
    exact h

/-- Settles O8, by induction on the run: no step of an ended state changes it. -/
theorem endedRunsStayAsTheyAre : Obligations.EndedRunsStayAsTheyAre := by
  intro s t hrun hended
  induction hrun with
  | refl => rfl
  | tail _ hstep ih =>
    subst ih
    rw [step_of_not_running hended] at hstep
    cases hstep
    rfl

end Sys2Proof.Machine
end

section
/-! SUPPORT. LOAD: the fields of an image read back, what a successful LOAD answers, and the reset state
(spec/20_memory.md R70, R71, spec/10_state.md R38). -/

namespace Sys2Proof.Machine

/-! ### The fields of an image -/

theorem be32_wordBytes (w : Word) :
    be32 (w.extractLsb' 24 8) (w.extractLsb' 16 8) (w.extractLsb' 8 8) (w.extractLsb' 0 8) = w := by
  have h24 : w.extractLsb' 24 8 ++ w.extractLsb' 16 8 = w.extractLsb' 16 16 :=
    BitVec.extractLsb'_append_extractLsb'_eq_extractLsb' rfl
  have h16 : w.extractLsb' 16 16 ++ w.extractLsb' 8 8 = w.extractLsb' 8 24 :=
    BitVec.extractLsb'_append_extractLsb'_eq_extractLsb' rfl
  have h8 : w.extractLsb' 8 24 ++ w.extractLsb' 0 8 = w.extractLsb' 0 32 :=
    BitVec.extractLsb'_append_extractLsb'_eq_extractLsb' rfl
  rw [be32, h24, h16, h8, BitVec.extractLsb'_eq_self]

/-- A Word written as the image writes it reads back. -/
@[simp] theorem take32_wordBytes (w : Word) (bs : List Byte) : take32 (wordBytes w ++ bs) = some (w, bs) := by
  simp [wordBytes, take32, be32_wordBytes]

/-- A field of any content takes four bytes. -/
theorem take32_field {o : List Byte} (ho : o.length = 4) (bs : List Byte) :
    ∃ w, take32 (o ++ bs) = some (w, bs) := by
  obtain ⟨a, b, c, d, rfl⟩ := List.length_eq_four.1 ho
  exact ⟨be32 a b c d, rfl⟩

theorem takeWords_flatMap (ws : List Word) (bs : List Byte) :
    takeWords ws.length (ws.flatMap wordBytes ++ bs) = some (ws, bs) := by
  induction ws with
  | nil => rfl
  | cons w ws ih => simp [takeWords, ih]

theorem takeBytes_append (text rest : List Byte) : takeBytes text.length (text ++ rest) = some (text, rest) := by
  simp [takeBytes]

theorem takeWords_length {n : Nat} {bs rest : List Byte} {ws : List Word}
    (h : takeWords n bs = some (ws, rest)) : ws.length = n := by
  induction n generalizing bs ws with
  | zero => cases h; rfl
  | succ n ih =>
    unfold takeWords at h
    split at h
    · cases h
    · split at h
      · cases h
      · rename_i hws
        cases h
        rw [List.length_cons, ih hws]

theorem takeBytes_length {n : Nat} {bs text rest : List Byte} (h : takeBytes n bs = some (text, rest)) :
    text.length = n := by
  unfold takeBytes at h
  split at h
  · cases h
  · cases h
    rw [List.length_take]
    omega

/-! ### The parts of a LOAD -/

section
variable {p : Params} {storage : Bool}

theorem load_magic (bs : List Byte) : load p storage (wordBytes p.magic ++ bs) = loadPool p storage bs := by
  simp [load]

/-- A constant pool that fits is read whole, whatever its origin field. -/
theorem loadPool_of {o : List Byte} {cp : List Word} (ho : o.length = 4) (hmax : cp.length ≤ p.cpMax)
    (hsize : 4 * cp.length < 2 ^ 32) (bs : List Byte) :
    loadPool p storage (o ++ (wordBytes (BitVec.ofNat 32 (4 * cp.length)) ++ (cp.flatMap wordBytes ++ bs))) =
      loadText p storage cp bs := by
  obtain ⟨w, hw⟩ := take32_field ho (wordBytes (BitVec.ofNat 32 (4 * cp.length)) ++ (cp.flatMap wordBytes ++ bs))
  have hn : (BitVec.ofNat 32 (4 * cp.length)).toNat = 4 * cp.length := by
    rw [BitVec.toNat_ofNat, Nat.mod_eq_of_lt hsize]
  have hdiv : 4 * cp.length / 4 = cp.length := by omega
  simp [loadPool, hw, hn, hdiv, takeWords_flatMap, Nat.not_lt.2 hmax]

/-- A text that fits is read whole, whatever its origin field; then the platform's storage decides. -/
theorem loadText_of {o text : List Byte} (cp : List Word) (ho : o.length = 4) (hmax : text.length ≤ p.textMax)
    (hsize : text.length < 2 ^ 32) (rest : List Byte) :
    loadText p storage cp (o ++ (wordBytes (BitVec.ofNat 32 text.length) ++ (text ++ rest))) =
      if storage then .ok (loaded p cp text) rest else .error .alloc rest := by
  obtain ⟨w, hw⟩ := take32_field ho (wordBytes (BitVec.ofNat 32 text.length) ++ (text ++ rest))
  have hn : (BitVec.ofNat 32 text.length).toNat = text.length := by
    rw [BitVec.toNat_ofNat, Nat.mod_eq_of_lt hsize]
  simp [loadText, hw, hn, takeBytes_append, Nat.not_lt.2 hmax]

theorem loadText_eq_ok {cp : List Word} {bs rest : List Byte} {s : State}
    (h : loadText p storage cp bs = .ok s rest) :
    ∃ text : List Byte, text.length ≤ p.textMax ∧ s = loaded p cp text := by
  unfold loadText at h
  split at h
  · cases h
  · split at h
    · cases h
    · split at h
      · cases h
      · split at h
        · cases h
        · rename_i htext
          split at h
          · cases h
            exact ⟨_, by rw [takeBytes_length htext]; omega, rfl⟩
          · cases h

theorem loadPool_eq_ok {bs rest : List Byte} {s : State} (h : loadPool p storage bs = .ok s rest) :
    ∃ (cp : List Word) (text : List Byte), cp.length ≤ p.cpMax ∧ text.length ≤ p.textMax ∧ s = loaded p cp text := by
  unfold loadPool at h
  split at h
  · cases h
  · split at h
    · cases h
    · split at h
      · cases h
      · split at h
        · cases h
        · split at h
          · cases h
          · rename_i hcp
            obtain ⟨text, htext, hs⟩ := loadText_eq_ok h
            exact ⟨_, text, by rw [takeWords_length hcp]; omega, htext, hs⟩

/-- A LOAD that succeeds answers the reset state of a constant pool and a text within their limits. -/
theorem load_eq_ok {image rest : List Byte} {s : State} (h : load p storage image = .ok s rest) :
    ∃ (cp : List Word) (text : List Byte), cp.length ≤ p.cpMax ∧ text.length ≤ p.textMax ∧ s = loaded p cp text := by
  unfold load at h
  split at h
  · cases h
  · split at h
    · exact loadPool_eq_ok h
    · cases h

end

/-! ### The reset state -/

/-- The cells after LOAD: the sentinels inside the stack, and nothing else (R38). -/
theorem loaded_cell (p : Params) (cp : List Word) (text : List Byte) (i : Nat) :
    (loaded p cp text).cell i =
      if i < p.stackCapInit ∧ i < p.sentinelCount then some p.sentinelValue else none := by
  rw [cell_nat, ite_and]
  rfl

theorem resetSize_le {p : Params} (h : p.SizesFit) : resetSize p ≤ p.stackCapInit := by
  obtain ⟨-, -, hsentinels⟩ := h
  unfold resetSize
  split
  · exact Nat.zero_le _
  · exact hsentinels

theorem loaded_sound {p : Params} {cp : List Word} {text : List Byte} (hp : p.wf = true)
    (hcp : cp.length ≤ p.cpMax) (htext : text.length ≤ p.textMax) : Sound (loaded p cp text) := by
  obtain ⟨-, -, -, hheap, hfit⟩ := sound_params (s := loaded p cp text) hp
  exact {
    sp_le_cap := resetSize_le hfit
    cap_form := ⟨0, (Nat.mul_one _).symm⟩
    cap_le_max := Nat.le_mul_of_pos_right _ (Nat.two_pow_pos _)
    cells_exist := fun _ hc => absurd hc List.not_mem_nil
    heap_le_hcap := Nat.zero_le _
    hcap_form := ⟨0, (Nat.mul_one _).symm⟩
    hcap_le_max := hheap
    arrays_not_empty := fun _ ha => absurd ha List.not_mem_nil
    words_le_max := Nat.zero_le _
    text_le_max := htext
    cp_le_max := hcp
    sizes_fit := hfit }

theorem loaded_statusAgrees (p : Params) (cp : List Word) (text : List Byte) :
    StatusAgrees (loaded p cp text) := by
  cases text with
  | nil => exact ⟨le_rfl, .inl rfl⟩
  | cons b text => exact ⟨Int.natCast_pos.2 (Nat.succ_pos _), rfl⟩

theorem loaded_inv {p : Params} {cp : List Word} {text : List Byte} (hp : p.wf = true)
    (hcp : cp.length ≤ p.cpMax) (htext : text.length ≤ p.textMax) : Inv (loaded p cp text) :=
  ⟨hp, memory_wf_nil, loaded_statusAgrees p cp text, fun _ => loaded_sound hp hcp htext⟩

/-- The reset state is the load of the empty image (log 7). -/
theorem reset_eq_loaded : State.reset = loaded Params.default [] [] := rfl

theorem default_wf : Params.default.wf = true := by decide

/-- Settles O10: the parts of the image read back one after the other. -/
theorem loadOfAnImageGivesTheResetState : Obligations.LoadOfAnImageGivesTheResetState := by
  intro p o1 o2 cp text rest ho1 ho2 hcp htext hcpSize htextSize
  refine ⟨loaded p cp text, ?_, rfl, rfl, rfl, rfl, ?_, ?_, rfl, rfl, rfl, rfl, rfl, rfl, rfl, loaded_cell p cp text⟩
  · simp only [List.append_assoc]
    rw [load_magic, loadPool_of ho1 hcp hcpSize, loadText_of cp ho2 htext htextSize, if_pos rfl]
  · show resetSize p = _
    unfold resetSize
    cases p.resetSp <;> rfl
  · cases text with
    | nil => rfl
    | cons b text => rfl

/-- Settles O17: a LOAD succeeds only with a constant pool and a text within their limits. -/
theorem loadedStatesMeetTheInvariant : Obligations.LoadedStatesMeetTheInvariant := by
  intro p storage image rest s hp h
  obtain ⟨cp, text, hcp, htext, rfl⟩ := load_eq_ok h
  exact loaded_inv hp hcp htext

/-- Settles O9: the reset state is the load of the empty image, whose cells are the sentinels. -/
theorem resetHasTheSpecsValues : Obligations.ResetHasTheSpecsValues := by
  refine ⟨rfl, rfl, rfl, rfl, rfl, rfl, rfl, rfl, rfl, rfl, rfl, rfl, fun i hi => ?_, fun i hi => ?_,
    rfl, rfl, rfl, rfl, rfl⟩
  · rw [reset_eq_loaded, loaded_cell]
    exact if_pos ⟨Nat.lt_trans hi (by decide), hi⟩
  · rw [reset_eq_loaded, loaded_cell]
    exact if_neg fun h => Nat.not_lt.2 hi h.2

/-- Settles O16: the empty image meets every limit. -/
theorem resetMeetsTheInvariant : Obligations.ResetMeetsTheInvariant :=
  show Inv (loaded Params.default [] []) from loaded_inv default_wf (Nat.zero_le _) (Nat.zero_le _)

end Sys2Proof.Machine
end

section
/-! SUPPORT. What instructions and runs leave alone: the text, the constant pool, `depth`, `lv` and
`OUTLOG` (spec/10_state.md R30, R31, R34, R37). -/

namespace Sys2Proof.Machine

/-! ### Fields outside the Value Stack -/

theorem stackOnly_eq {s t : State} (h : StackOnly s t) :
    t = { s with sp := t.sp, cap := t.cap, stack := t.stack } := h

theorem stackOnly_text {s t : State} (h : StackOnly s t) : t.text = s.text := by rw [stackOnly_eq h]

theorem stackOnly_cp {s t : State} (h : StackOnly s t) : t.cp = s.cp := by rw [stackOnly_eq h]

theorem stackOnly_depth {s t : State} (h : StackOnly s t) : t.depth = s.depth := by rw [stackOnly_eq h]

theorem stackOnly_lv {s t : State} (h : StackOnly s t) : t.lv = s.lv := by rw [stackOnly_eq h]

theorem stackOnly_outlog {s t : State} (h : StackOnly s t) : t.outlog = s.outlog := by rw [stackOnly_eq h]

/-- What looks at neither the Value Stack nor the heap table is kept by every operation on them. -/
theorem closed_of_storesUnread {i : Instr} {P : State → Prop} (stack : ∀ s t, P s → StackOnly s t → P t)
    (pc : ∀ v s, P s → P (s.setPc v)) (heap : ∀ s a n, P s → P (s.setHeap a n))
    (frame : (∃ k, i = .invokevirtual k) ∨ i = .ireturn → ∀ v d s, P s → P ((s.setLv v).setDepth d))
    (out : i = .out → ∀ b s, P s → P (s.appendOut b))
    (host : i = .inp → ∀ as e s, P s → P (s.setHost as e)) : Closed i P :=
  closed_of_stackOnly stack pc (fun _ c _ h => allocate_all heap c h)
    (fun _ r k v _ h => arrayStore_all heap r k v h) frame out host

/-! ### Instructions whose every error is fatal or undefined -/

/-- The result completes in a state with the property, or its error is a fatal or an undefined one. -/
def Res.Completes {α : Type} (P : State → Prop) : Res α → Prop
  | .ok _ s => P s
  | .raised e _ => ∀ c, e ≠ .recoverable c

theorem completes_fatal {α : Type} {P : State → Prop} {c : FatalCause} {s : State} :
    (Res.raised (.fatal c) s : Res α).Completes P := nofun

theorem completes_undef {α : Type} {P : State → Prop} {c : UndefCause} {s : State} :
    (Res.raised (.undef c) s : Res α).Completes P := nofun

theorem completes_andThen {α β : Type} {P Q : State → Prop} {r : Res α} {f : α → State → Res β}
    (hr : r.Completes P) (hf : ∀ a s, P s → (f a s).Completes Q) : (r.andThen f).Completes Q := by
  cases r with
  | ok a s => exact hf a s hr
  | raised e s => exact hr

/-- Where such an instruction does not end in a fatal or an undefined error, it has completed. -/
theorem completes_finish {P : State → Prop} {r : Res Unit} {t : State} (hr : r.Completes P)
    (h : finish r = .next t) (hf : ¬ t.faulted) : P t := by
  cases r with
  | ok _ s => cases h; exact hr
  | raised e s =>
    cases h
    obtain ⟨c, hc⟩ := recoverable_of_not_faulted hf
    exact absurd hc (hr c)

section
variable {P : State → Prop} {s : State}

theorem readTop_completes (i : Nat) (h : P s) : (readTop i s).Completes P := by
  unfold readTop; split
  · exact h
  · exact completes_undef

theorem stackRead_completes (i : Int) (h : P s) : (stackRead i s).Completes P := by
  unfold stackRead; split
  · exact readTop_completes _ h
  · exact completes_fatal

theorem constant_completes (i : Nat) (h : P s) : (constant i s).Completes P := by
  unfold constant; split
  · exact h
  · exact completes_undef

theorem header_completes (e : Word) (h : P s) : (header e s).Completes P := by
  unfold header; split
  · split
    · exact completes_undef
    · exact h
  · exact completes_undef

theorem resolve_completes (i : Half) (h : P s) : (resolve i s).Completes P :=
  completes_andThen (constant_completes _ h) fun _ _ ht => header_completes _ ht

theorem savedFrame_completes (h : P s) : (savedFrame s).Completes P :=
  completes_andThen (stackRead_completes _ h) fun _ _ h =>
    completes_andThen (stackRead_completes _ h) fun _ _ h =>
      completes_andThen (stackRead_completes _ h) fun _ _ h => h

variable (hP : ∀ s t, P s → StackOnly s t → P t)
include hP

theorem push_completes (v : Word) (h : P s) : (push v s).Completes P := by
  rw [push_eq]; split
  · exact completes_fatal
  · exact hP _ _ h (stackOnly_pushed v s)

theorem pop_completes (h : P s) : (pop s).Completes P := by
  unfold pop; split
  · exact completes_fatal
  · exact completes_andThen (readTop_completes _ h) fun _ _ ht => hP _ _ ht rfl

theorem stackWrite_completes (i : Int) (v : Word) (h : P s) : (stackWrite i v s).Completes P := by
  unfold stackWrite; split
  · exact hP _ _ h rfl
  · exact completes_fatal

theorem pushN_completes (n : Nat) (v : Word) (h : P s) : (pushN n v s).Completes P := by
  induction n generalizing s with
  | zero => exact h
  | succ n ih => exact completes_andThen (push_completes hP v h) fun _ _ ht => ih ht

theorem buildFrame_completes (base : Nat) (m : Method) (pc lv : Word) (h : P s) :
    (buildFrame base m pc lv s).Completes P :=
  completes_andThen (pushN_completes hP _ _ h) fun _ _ h =>
    completes_andThen (push_completes hP _ h) fun _ _ h =>
      completes_andThen (push_completes hP _ h) fun _ _ h => stackWrite_completes hP _ _ h

end

/-! ### `depth` and `lv` -/

theorem depth_kept (d : BitVec 32) (s t : State) (h : s.depth = d) (hst : StackOnly s t) : t.depth = d :=
  (stackOnly_depth hst).trans h

/-- A call that completes has opened one frame (R251). -/
theorem invokevirtual_completes (k : Half) (s : State) :
    ∃ r, exec (.invokevirtual k) s = finish r ∧ r.Completes (·.depth = s.depth + 1) := by
  refine ⟨_, rfl, completes_andThen (P := (·.depth = s.depth)) (resolve_completes k rfl) fun m u hu => ?_⟩
  split
  · exact completes_fatal
  · exact completes_andThen (buildFrame_completes (depth_kept _) _ _ _ _ hu) fun _ v hv => congrArg (· + 1) hv

/-- A return that completes has closed one frame (R256). -/
theorem ireturn_completes (s : State) :
    ∃ r, exec .ireturn s = finish r ∧ r.Completes (·.depth = s.depth - 1) := by
  refine ⟨_, rfl, ?_⟩
  split
  · exact completes_undef
  · refine completes_andThen (P := (·.depth = s.depth)) (pop_completes (depth_kept _) rfl) fun r u hu =>
      completes_andThen (P := (·.depth = s.depth)) (savedFrame_completes hu) fun (base, npc, nlv) v hv => ?_
    dsimp only
    split
    · exact completes_undef
    · exact completes_andThen (push_completes (depth_kept _) r (s := v.setSp base.toNat) hv)
        fun _ w hw => congrArg (· - 1) hw

/-- Every operation of an instruction that is no call and no return leaves `depth` and `lv`. -/
theorem depth_lv_closed {i : Instr} (hcall : ∀ k, i ≠ .invokevirtual k) (hreturn : i ≠ .ireturn)
    (d : BitVec 32) (l : Word) : Closed i fun t => t.depth = d ∧ t.lv = l :=
  closed_of_storesUnread
    (fun _ _ h hst => ⟨(stackOnly_depth hst).trans h.1, (stackOnly_lv hst).trans h.2⟩)
    (fun _ _ h => h)
    (fun _ _ _ h => h)
    (fun hi => (hi.elim (fun ⟨k, hk⟩ => hcall k hk) hreturn).elim)
    (fun _ _ _ h => h)
    (fun _ _ _ _ h => h)

/-- Settles O56: a call and a return that do not fault complete; the operations of any other instruction
leave both registers. -/
theorem onlyCallsAndReturnsChangeDepthAndLv : Obligations.OnlyCallsAndReturnsChangeDepthAndLv := by
  intro i s t h hf
  refine ⟨?_, ?_, fun hcall hreturn => ?_⟩
  · rintro ⟨k, rfl⟩
    obtain ⟨r, hr, hc⟩ := invokevirtual_completes k s
    exact completes_finish hc (hr.symm.trans h) hf
  · rintro rfl
    obtain ⟨r, hr, hc⟩ := ireturn_completes s
    exact completes_finish hc (hr.symm.trans h) hf
  · exact exec_keeps (depth_lv_closed hcall hreturn s.depth s.lv) (fun _ _ _ h => h) h hf ⟨rfl, rfl⟩

/-! ### The text and the constant pool -/

/-- The text and the constant pool are the same. -/
def SameProgram (s t : State) : Prop := t.text = s.text ∧ t.cp = s.cp

theorem sameProgram_trans (s t u : State) (h : SameProgram s t) (h' : SameProgram t u) : SameProgram s u :=
  ⟨h'.1.trans h.1, h'.2.trans h.2⟩

theorem sameProgram_closed (i : Instr) (s : State) : Closed i (SameProgram s) :=
  closed_of_storesUnread
    (fun _ _ h hst => sameProgram_trans _ _ _ h ⟨stackOnly_text hst, stackOnly_cp hst⟩)
    (fun _ _ h => h)
    (fun _ _ _ h => h)
    (fun _ _ _ _ h => h)
    (fun _ _ _ h => h)
    (fun _ _ _ _ h => h)

/-- Settles O55: no operation writes either of the two. -/
theorem textAndConstantsAreNeverWritten : Obligations.TextAndConstantsAreNeverWritten :=
  fun _ _ hrun hf =>
    run_extends sameProgram_closed (fun _ => ⟨rfl, rfl⟩) (fun _ _ _ _ h => h) sameProgram_trans hrun hf

/-! ### The output log -/

theorem outlog_closed {i : Instr} (hout : i ≠ .out) (o : List Byte) : Closed i (·.outlog = o) :=
  closed_of_storesUnread
    (fun _ _ h hst => (stackOnly_outlog hst).trans h)
    (fun _ _ h => h)
    (fun _ _ _ h => h)
    (fun _ _ _ _ h => h)
    (fun hi => absurd hi hout)
    (fun _ _ _ _ h => h)

/-- An OUT that completes has appended one byte (R171). -/
theorem out_completes (s : State) :
    ∃ r, exec .out s = finish r ∧ r.Completes fun t => ∃ b, t.outlog = s.outlog ++ [b] := by
  refine ⟨_, rfl, completes_andThen (P := (·.outlog = s.outlog))
    (pop_completes (fun _ _ h hst => (stackOnly_outlog hst).trans h) rfl) fun v u hu => ?_⟩
  exact ⟨v.extractLsb' 0 8, congrArg (· ++ [v.extractLsb' 0 8]) hu⟩

theorem outlog_prefix_closed (i : Instr) (s : State) : Closed i (s.outlog <+: ·.outlog) :=
  closed_of_storesUnread
    (fun _ _ h hst => h.trans (stackOnly_outlog hst ▸ List.prefix_refl _))
    (fun _ _ h => h)
    (fun _ _ _ h => h)
    (fun _ _ _ _ h => h)
    (fun _ _ _ h => h.trans (List.prefix_append _ _))
    (fun _ _ _ _ h => h)

/-- Settles O57: OUT appends its byte, and no operation of another instruction writes the log. -/
theorem onlyOutWritesTheOutputLog : Obligations.OnlyOutWritesTheOutputLog := by
  refine ⟨fun i s t h hf => ⟨fun hout => ?_, ?_⟩, fun s t hrun hf => ?_⟩
  · exact exec_keeps (outlog_closed hout s.outlog) (fun _ _ _ h => h) h hf rfl
  · rintro rfl
    obtain ⟨r, hr, hc⟩ := out_completes s
    exact completes_finish hc (hr.symm.trans h) hf
  · exact run_extends (R := fun s t => s.outlog <+: t.outlog) outlog_prefix_closed
      (fun _ => List.prefix_refl _) (fun _ _ _ _ h => h) (fun _ _ _ => List.IsPrefix.trans) hrun hf

end Sys2Proof.Machine
end

section
/-! SUPPORT. What LOAD refuses: the fields it checks, and images that end before a field does
(spec/20_memory.md R71, R73). -/

namespace Sys2Proof.Machine

/-! ### The checks -/

/-- A stream of fewer than four bytes has no field. -/
theorem take32_short {bs : List Byte} (h : bs.length < 4) : take32 bs = none := by
  match bs with
  | [] => rfl
  | [_] => rfl
  | [_, _] => rfl
  | [_, _, _] => rfl
  | _ :: _ :: _ :: _ :: _ => simp only [List.length_cons] at h; omega

theorem load_short (p : Params) (storage : Bool) {image : List Byte} (h : image.length < 4) :
    load p storage image = .error .truncated [] := by simp [load, take32_short h]

theorem load_badMagic {p : Params} (storage : Bool) {magic : Word} (h : magic ≠ p.magic) (rest : List Byte) :
    load p storage (wordBytes magic ++ rest) = .error .badMagic rest := by simp [load, h]

/-- Settles O11: the magic number is the first field, and alone decides. -/
theorem loadChecksTheMagicNumberFirst : Obligations.LoadChecksTheMagicNumberFirst :=
  fun p storage => ⟨fun _ h => load_short p storage h, fun _ rest h => load_badMagic storage h rest⟩

section
variable {p : Params} {storage : Bool} {o : List Byte} {n : Word}

/-- A constant-pool size that is no multiple of 4 is refused before its data. -/
theorem loadPool_badSize (ho : o.length = 4) (hn : n.toNat % 4 ≠ 0) (rest : List Byte) :
    loadPool p storage (o ++ (wordBytes n ++ rest)) = .error .badCpSize rest := by
  obtain ⟨w, hw⟩ := take32_field ho (wordBytes n ++ rest)
  simp [loadPool, hw, hn]

/-- So is one over `CP_MAX`. -/
theorem loadPool_tooLarge (ho : o.length = 4) (hn : n.toNat % 4 = 0) (hmax : p.cpMax < n.toNat / 4)
    (rest : List Byte) : loadPool p storage (o ++ (wordBytes n ++ rest)) = .error .tooLarge rest := by
  obtain ⟨w, hw⟩ := take32_field ho (wordBytes n ++ rest)
  simp [loadPool, hw, hn, hmax]

/-- So is a text size over `TEXT_MAX`. -/
theorem loadText_tooLarge (cp : List Word) (ho : o.length = 4) (hmax : p.textMax < n.toNat) (rest : List Byte) :
    loadText p storage cp (o ++ (wordBytes n ++ rest)) = .error .tooLarge rest := by
  obtain ⟨w, hw⟩ := take32_field ho (wordBytes n ++ rest)
  simp [loadText, hw, hmax]

/-- A text that fits and is there is refused where the platform has no storage. -/
theorem loadText_noStorage (cp : List Word) (ho : o.length = 4) (hmax : n.toNat ≤ p.textMax) {rest : List Byte}
    (hrest : n.toNat ≤ rest.length) :
    loadText p false cp (o ++ (wordBytes n ++ rest)) = .error .alloc (rest.drop n.toNat) := by
  obtain ⟨w, hw⟩ := take32_field ho (wordBytes n ++ rest)
  simp [loadText, hw, takeBytes, Nat.not_lt.2 hmax, Nat.not_lt.2 hrest]

end

/-- Settles O12: the parts before the field checked are read, then its check decides. -/
theorem loadChecksTheSizes : Obligations.LoadChecksTheSizes := by
  intro p storage o1 o2 n rest ho1 ho2
  simp only [List.append_assoc, load_magic]
  refine ⟨fun hn => loadPool_badSize ho1 hn rest, fun hn hmax => loadPool_tooLarge ho1 hn hmax rest,
    fun cp hcp hsize => ?_⟩
  simp only [loadPool_of ho1 hcp hsize]
  exact ⟨fun hmax => loadText_tooLarge cp ho2 hmax rest, fun hmax hrest => loadText_noStorage cp ho2 hmax hrest⟩

/-! ### Images cut short -/

/-- A reader that, where its stream is cut short, finds too few bytes, or reads the same and leaves less. -/
def CutShort {α : Type} (read : List Byte → Option (α × List Byte)) : Prop :=
  ∀ (bs rest : List Byte) (a : α) (n : Nat), read bs = some (a, rest) → n < bs.length →
    read (bs.take n) = none ∨ ∃ m < rest.length, read (bs.take n) = some (a, rest.take m)

theorem take32_eq_some {bs rest : List Byte} {w : Word} (h : take32 bs = some (w, rest)) :
    ∃ a b c d, bs = a :: b :: c :: d :: rest ∧ w = be32 a b c d := by
  unfold take32 at h
  split at h
  · cases h; exact ⟨_, _, _, _, rfl, rfl⟩
  · cases h

theorem take32_cutShort : CutShort take32 := by
  intro bs rest w n h hn
  obtain ⟨a, b, c, d, rfl, rfl⟩ := take32_eq_some h
  by_cases h4 : n < 4
  · exact .inl (take32_short (by simp only [List.length_take]; omega))
  · obtain ⟨m, rfl⟩ := Nat.exists_eq_add_of_le' (Nat.not_lt.1 h4)
    simp only [List.length_cons] at hn
    exact .inr ⟨m, by omega, rfl⟩

theorem takeWords_cutShort (k : Nat) : CutShort (takeWords k) := by
  induction k with
  | zero =>
    intro bs rest ws n h hn
    cases h
    exact .inr ⟨n, hn, rfl⟩
  | succ k ih =>
    intro bs rest ws n h hn
    unfold takeWords at h
    split at h
    · cases h
    · rename_i w bs1 hw
      split at h
      · cases h
      · rename_i ws' bs2 hws
        cases h
        rcases take32_cutShort _ _ _ _ hw hn with hnone | ⟨m, hm, hsome⟩
        · exact .inl (by simp [takeWords, hnone])
        · rcases ih _ _ _ _ hws hm with hnone | ⟨m', hm', hsome'⟩
          · exact .inl (by simp [takeWords, hsome, hnone])
          · exact .inr ⟨m', hm', by simp [takeWords, hsome, hsome']⟩

theorem takeBytes_cutShort (k : Nat) : CutShort (takeBytes k) := by
  intro bs rest text n h hn
  unfold takeBytes at h ⊢
  split at h
  · cases h
  · rename_i hk
    cases h
    by_cases hnk : n < k
    · exact .inl (if_pos (by rw [List.length_take]; omega))
    · refine .inr ⟨n - k, by rw [List.length_drop]; omega, ?_⟩
      rw [if_neg (by rw [List.length_take]; omega), List.take_take, List.drop_take, Nat.min_eq_left (by omega)]

/-- A part of LOAD that, where it accepts a stream to its end, answers `TRUNCATED` for every shorter beginning
of it. -/
def RefusesPrefixes (part : List Byte → LoadResult) : Prop :=
  ∀ (bs : List Byte) (s : State) (n : Nat), part bs = .ok s [] → n < bs.length →
    part (bs.take n) = .error .truncated []

/-- Read one field, then go on with what it says; a stream that ends before is `TRUNCATED` (R71). -/
def readThen {α : Type} (read : List Byte → Option (α × List Byte)) (next : α → List Byte → LoadResult)
    (bs : List Byte) : LoadResult :=
  match read bs with
  | none => .error .truncated []
  | some (a, bs) => next a bs

/-- The cut falls in this field, or behind it, where the next parts refuse it. -/
theorem readThen_refusesPrefixes {α : Type} {read : List Byte → Option (α × List Byte)}
    {next : α → List Byte → LoadResult} (hread : CutShort read) (hnext : ∀ a, RefusesPrefixes (next a)) :
    RefusesPrefixes (readThen read next) := by
  intro bs s n h hn
  cases hr : read bs with
  | none => simp [readThen, hr] at h
  | some x =>
    obtain ⟨a, rest⟩ := x
    simp only [readThen, hr] at h
    rcases hread _ _ _ _ hr hn with hnone | ⟨m, hm, hsome⟩
    · simp only [readThen, hnone]
    · simp only [readThen, hsome]
      exact hnext a _ _ _ h hm

/-- A check on what has been read does not look at the stream. -/
theorem check_refusesPrefixes {c : Prop} [Decidable c] (r : LoadError) {next : List Byte → LoadResult}
    (hnext : RefusesPrefixes next) : RefusesPrefixes fun bs => if c then .error r bs else next bs := by
  intro bs s n h hn
  by_cases hc : c
  · simp only [if_pos hc] at h
    cases h
  · simp only [if_neg hc] at h ⊢
    exact hnext _ _ _ h hn

/-- Where nothing is left to read, nothing can be cut off. -/
theorem end_refusesPrefixes (storage : Bool) (s : State) :
    RefusesPrefixes fun bs => if storage then .ok s bs else .error .alloc bs := by
  intro bs t n h hn
  cases storage <;> cases h
  exact absurd hn (Nat.not_lt_zero n)

theorem loadText_eq (p : Params) (storage : Bool) (cp : List Word) :
    loadText p storage cp = readThen take32 fun _ => readThen take32 fun size bs =>
      if p.textMax < size.toNat then .error .tooLarge bs
      else readThen (takeBytes size.toNat)
        (fun text rest => if storage then .ok (loaded p cp text) rest else .error .alloc rest) bs := by
  funext bs
  unfold loadText readThen
  rcases take32 bs with _ | ⟨_, bs⟩
  · rfl
  · dsimp only
    rcases take32 bs with _ | ⟨size, bs⟩
    · rfl
    · dsimp only
      rcases takeBytes size.toNat bs with _ | ⟨text, rest⟩ <;> rfl

theorem loadPool_eq (p : Params) (storage : Bool) :
    loadPool p storage = readThen take32 fun _ => readThen take32 fun size bs =>
      if size.toNat % 4 ≠ 0 then .error .badCpSize bs
      else if p.cpMax < size.toNat / 4 then .error .tooLarge bs
      else readThen (takeWords (size.toNat / 4)) (loadText p storage) bs := by
  funext bs
  unfold loadPool readThen
  rcases take32 bs with _ | ⟨_, bs⟩
  · rfl
  · dsimp only
    rcases take32 bs with _ | ⟨size, bs⟩
    · rfl
    · dsimp only
      rcases takeWords (size.toNat / 4) bs with _ | ⟨cp, bs⟩ <;> rfl

theorem load_eq (p : Params) (storage : Bool) :
    load p storage = readThen take32 fun magic bs =>
      if magic = p.magic then loadPool p storage bs else .error .badMagic bs := by
  funext bs
  unfold load readThen
  rcases take32 bs with _ | ⟨magic, bs⟩ <;> rfl

theorem loadText_refusesPrefixes (p : Params) (storage : Bool) (cp : List Word) :
    RefusesPrefixes (loadText p storage cp) := by
  rw [loadText_eq]
  exact readThen_refusesPrefixes take32_cutShort fun _ =>
    readThen_refusesPrefixes take32_cutShort fun _ =>
      check_refusesPrefixes _ (readThen_refusesPrefixes (takeBytes_cutShort _) fun _ =>
        end_refusesPrefixes storage _)

theorem loadPool_refusesPrefixes (p : Params) (storage : Bool) : RefusesPrefixes (loadPool p storage) := by
  rw [loadPool_eq]
  exact readThen_refusesPrefixes take32_cutShort fun _ =>
    readThen_refusesPrefixes take32_cutShort fun _ =>
      check_refusesPrefixes _ (check_refusesPrefixes _
        (readThen_refusesPrefixes (takeWords_cutShort _) (loadText_refusesPrefixes p storage)))

theorem load_refusesPrefixes (p : Params) (storage : Bool) : RefusesPrefixes (load p storage) := by
  rw [load_eq]
  refine readThen_refusesPrefixes take32_cutShort fun magic => ?_
  simp only [← ite_not (magic = p.magic)]
  exact check_refusesPrefixes _ (loadPool_refusesPrefixes p storage)

/-- Settles O13: the cut falls in some field or its data, and every part before it is read as before. -/
theorem loadOfAShortenedImageIsTruncated : Obligations.LoadOfAShortenedImageIsTruncated :=
  fun p storage image s n => load_refusesPrefixes p storage image s n

end Sys2Proof.Machine
end

section
/-! SUPPORT. Decoding bytes that end before the instruction does (spec/30_encoding.md R96, R99). -/

namespace Sys2Proof

/-- A part of the decoder that finds these bytes truncated wherever they are cut short. -/
def TruncatesPrefixes (part : List Byte → Decoded) (bytes : List Byte) : Prop :=
  ∀ n < bytes.length, part (bytes.take n) = .truncated

/-! ### Operands with a byte missing -/

/-- Where there are no bytes, none can be missing. -/
theorem truncatesPrefixes_nil (part : List Byte → Decoded) : TruncatesPrefixes part [] :=
  fun _ h => absurd h (Nat.not_lt_zero _)

theorem decodeB_truncates (k : Byte → Instr) (a : Byte) : TruncatesPrefixes (decodeB k) [a]
  | 0, _ => rfl

theorem decodeBB_truncates (k : Byte → Byte → Instr) (a b : Byte) : TruncatesPrefixes (decodeBB k) [a, b]
  | 0, _ => rfl
  | 1, _ => rfl

theorem decodeH_truncates (k : Half → Instr) (h l : Byte) : TruncatesPrefixes (decodeH k) [h, l]
  | 0, _ => rfl
  | 1, _ => rfl

theorem decodeHB_truncates (k : Half → Byte → Instr) (h l d : Byte) : TruncatesPrefixes (decodeHB k) [h, l, d]
  | 0, _ => rfl
  | 1, _ => rfl
  | 2, _ => rfl

/-! ### The bytes after WIDE -/

theorem decodeWide_iload (m : OpcodeMap) (bs : List Byte) :
    decodeWide m (m.iload :: bs) = decodeH .wideIload bs := if_pos rfl

theorem decodeWide_istore {m : OpcodeMap} (hm : m.Distinct) (bs : List Byte) :
    decodeWide m (m.istore :: bs) = decodeH .wideIstore bs := by
  have hload : m.istore ≠ m.iload := (byte_injective hm (j := .istore) (k := .iload)).mt nofun
  rw [decodeWide, if_neg hload, if_pos rfl]

theorem decodeWide_iinc {m : OpcodeMap} (hm : m.Distinct) (bs : List Byte) :
    decodeWide m (m.iinc :: bs) = decodeHB .wideIinc bs := by
  have hload : m.iinc ≠ m.iload := (byte_injective hm (j := .iinc) (k := .iload)).mt nofun
  have hstore : m.iinc ≠ m.istore := (byte_injective hm (j := .iinc) (k := .istore)).mt nofun
  rw [decodeWide, if_neg hload, if_neg hstore, if_pos rfl]

/-- A form of WIDE is truncated after WIDE alone, and wherever its own operands are. -/
theorem decodeWide_truncates {m : OpcodeMap} {b : Byte} {ops : List Byte} {form : List Byte → Decoded}
    (hform : ∀ bs, decodeWide m (b :: bs) = form bs) (hops : TruncatesPrefixes form ops) :
    TruncatesPrefixes (decodeWide m) (b :: ops)
  | 0, _ => rfl
  | n + 1, hn => by rw [List.take_succ_cons, hform, hops n (Nat.lt_of_succ_lt_succ hn)]

/-! ### The whole instruction -/

/-- An instruction with its opcode byte is truncated wherever its operands are. -/
theorem decode_take_encoding {m : OpcodeMap} (hm : m.Distinct) (k : Opcode) {ops : List Byte}
    (hops : TruncatesPrefixes (decodeOperands m · k) ops) {n : Nat} (h0 : 0 < n)
    (hn : n < (m.byte k :: ops).length) : decode m ((m.byte k :: ops).take n) = .truncated := by
  obtain ⟨n, rfl⟩ := Nat.exists_eq_add_one.2 h0
  rw [List.take_succ_cons, decode, lookup_byte hm]
  exact hops n (Nat.lt_of_succ_lt_succ hn)

/-- Settles O4: the opcode byte is there, and the operands that follow it, by their format, are not. -/
theorem everyProperPrefixIsTruncated : Obligations.EveryProperPrefixIsTruncated := by
  intro m i n hm _ h0 hn
  cases i with
  | nop | err | halt | dup | pop | swap | iadd | isub | iand | ior | inp | out | newarray | iaload | iastore
  | ireturn => exact absurd hn (Nat.not_lt.2 h0)
  | bipush b => exact decode_take_encoding hm .bipush (decodeB_truncates _ _) h0 hn
  | iload i => exact decode_take_encoding hm .iload (decodeB_truncates _ _) h0 hn
  | istore i => exact decode_take_encoding hm .istore (decodeB_truncates _ _) h0 hn
  | iinc i d => exact decode_take_encoding hm .iinc (decodeBB_truncates _ _ _) h0 hn
  | goto off => exact decode_take_encoding hm .goto (decodeH_truncates _ _ _) h0 hn
  | ifeq off => exact decode_take_encoding hm .ifeq (decodeH_truncates _ _ _) h0 hn
  | iflt off => exact decode_take_encoding hm .iflt (decodeH_truncates _ _ _) h0 hn
  | ifIcmpeq off => exact decode_take_encoding hm .ifIcmpeq (decodeH_truncates _ _ _) h0 hn
  | ldcW i => exact decode_take_encoding hm .ldcW (decodeH_truncates _ _ _) h0 hn
  | invokevirtual i => exact decode_take_encoding hm .invokevirtual (decodeH_truncates _ _ _) h0 hn
  | tailcall i => exact decode_take_encoding hm .tailcall (decodeH_truncates _ _ _) h0 hn
  | wide b =>
    exact decode_take_encoding hm .wide
      (decodeWide_truncates (fun _ => rfl) (truncatesPrefixes_nil _)) h0 hn
  | wideIload i =>
    exact decode_take_encoding hm .wide
      (decodeWide_truncates (decodeWide_iload m) (decodeH_truncates _ _ _)) h0 hn
  | wideIstore i =>
    exact decode_take_encoding hm .wide
      (decodeWide_truncates (decodeWide_istore hm) (decodeH_truncates _ _ _)) h0 hn
  | wideIinc i d =>
    exact decode_take_encoding hm .wide
      (decodeWide_truncates (decodeWide_iinc hm) (decodeHB_truncates _ _ _ _)) h0 hn

end Sys2Proof
end

section
/-! SUPPORT. The Value Stack: pushes and pops in sequence, and how instructions end where a cell or the room
for one is missing (spec/20_memory.md R56 to R63). -/

namespace Sys2Proof.Machine

/-! ### Pushes and pops -/

/-- Settles O19: with room a push writes the new top of the grown stack, without room it is refused. -/
theorem pushGrowsByDoubling : Obligations.PushGrowsByDoubling :=
  fun s v h => ⟨fun hroom => ⟨pushed v s, push_hasRoom hroom v, rfl, pushed_kept h v⟩,
    fun hroom => push_noRoom hroom v⟩

/-- Settles O20: the cells from the old top on hold the Words in order, and pops read them downwards. -/
theorem popsReturnPushesInReverse : Obligations.PopsReturnPushesInReverse := by
  intro s vs h hfit
  obtain ⟨t, hpush, -, -, hsp, -, hcells⟩ := pushAll_of h vs hfit
  refine ⟨t, t.setSp s.sp, hpush, popAll_of vs hsp fun k v hk => ?_, rfl⟩
  have hlt := (List.getElem?_eq_some_iff.1 hk).1
  have hcell : t.cell ((s.sp + k : Nat) : Int) = some v := by
    rw [hcells, if_pos (by omega), ← hk]
    congr
    omega
  exact (cell_eq_some.1 hcell).2.2

/-! ### Where an instruction ends in its first part -/

section
variable {α : Type} {i : Instr} {s u : State} {r : Res α} {f : α → State → Res Unit}

theorem reportsFatal_first {c : FatalCause} (hi : exec i s = finish (r.andThen f)) (hr : r = .raised (.fatal c) u) :
    ∃ t, exec i s = .next t ∧ t.reportsFatal c := reportsFatal_of (by rw [hi, hr, andThen_raised])

theorem reportsUndef_first {c : UndefCause} (hi : exec i s = finish (r.andThen f)) (hr : r = .raised (.undef c) u) :
    ∃ t, exec i s = .next t ∧ t.reportsUndef c := reportsUndef_of (by rw [hi, hr, andThen_raised])

end

/-! ### Local variables -/

theorem inStack_eq_false {s : State} {j : Int} : s.inStack j = false ↔ j < 0 ∨ (s.cap : Int) ≤ j := by
  rw [← Bool.not_eq_true, inStack_iff, not_and_or, not_le, not_lt]

theorem stackRead_none {s : State} {j : Int} (hin : s.inStack j = true) (h : s.cell j = none) :
    stackRead j s = .raised (.undef .unwrittenRead) s :=
  stackRead_unwritten hin (by rwa [State.cell, if_pos hin] at h)

/-- The instruction first reads the cell of its variable `k`, and ends in the error of that read. -/
def ReadsLocal (i : Instr) (k : Nat) (s : State) : Prop :=
  ∀ e, stackRead (s.localIndex k) s = .raised e s → exec i s = finish (.raised e s)

theorem iload_readsLocal (k : Byte) (s : State) : ReadsLocal (.iload k) k.toNat s := by
  intro e h
  simp only [exec, execIload, loadLocal, idx8, h, andThen_raised]

theorem wideIload_readsLocal (k : Half) (s : State) : ReadsLocal (.wideIload k) k.toNat s := by
  intro e h
  simp only [exec, execWideIload, loadLocal, idx16, h, andThen_raised]

theorem iinc_readsLocal (k d : Byte) (s : State) : ReadsLocal (.iinc k d) k.toNat s := by
  intro e h
  simp only [exec, execIinc, incLocal, idx8, h, andThen_raised]

theorem wideIinc_readsLocal (k : Half) (d : Byte) (s : State) : ReadsLocal (.wideIinc k d) k.toNat s := by
  intro e h
  simp only [exec, execWideIinc, incLocal, idx16, h, andThen_raised]

section
variable {i : Instr} {k : Nat} {s : State}

theorem readsLocal_outside (hi : ReadsLocal i k s) (h : s.inStack (s.localIndex k) = false) :
    ∃ t, exec i s = .next t ∧ t.reportsFatal .stackIndex := reportsFatal_of (hi _ (stackRead_outside h))

theorem readsLocal_unwritten (hi : ReadsLocal i k s) (hin : s.inStack (s.localIndex k) = true)
    (h : s.cell (s.localIndex k) = none) : ∃ t, exec i s = .next t ∧ t.reportsUndef .unwrittenRead :=
  reportsUndef_of (hi _ (stackRead_none hin h))

/-- A store pops its Word before it checks the index (R202). -/
theorem storeLocal_outside {v : Word} (hv : s.endsIn [v]) (h : s.inStack (s.localIndex k) = false) :
    storeLocal k s = .raised (.fatal .stackIndex) (s.setSp (s.sp - 1)) := by
  rw [storeLocal, pop_endsIn hv, andThen_ok]
  exact stackWrite_outside (s := s.setSp (s.sp - 1)) h v

end

/-- Settles O39: a load or an increment ends in the error of its read, a store in that of its write. -/
theorem badLocalIndicesEndTheRun : Obligations.BadLocalIndicesEndTheRun := by
  intro s k i stores hcase
  rcases hcase with ⟨rfl, hreads⟩ | ⟨rfl, ⟨v, hv⟩, hstores⟩
  · have hi : ReadsLocal i k s := by
      rcases hreads with ⟨b, rfl, rfl | ⟨d, rfl⟩⟩ | ⟨h, rfl, rfl | ⟨d, rfl⟩⟩
      · exact iload_readsLocal b s
      · exact iinc_readsLocal b d s
      · exact wideIload_readsLocal h s
      · exact wideIinc_readsLocal h d s
    exact ⟨fun hout => readsLocal_outside hi (inStack_eq_false.2 hout),
      fun _ h0 hcap hnone => readsLocal_unwritten hi (inStack_iff.2 ⟨h0, hcap⟩) hnone⟩
  · refine ⟨fun hout => ?_, nofun⟩
    have hstore := storeLocal_outside (k := k) hv (inStack_eq_false.2 hout)
    rcases hstores with ⟨b, rfl, rfl⟩ | ⟨h, rfl, rfl⟩
    · exact reportsFatal_first rfl hstore
    · exact reportsFatal_first rfl hstore

/-! ### Too few Words -/

/-- Every cell below the logical top is written. -/
def TopWritten (s : State) : Prop := ∀ k < s.sp, s.stack.read s.cfg k ≠ none

/-- The result is the error of a pop from the empty stack. -/
def Underflows {α : Type} (r : Res α) : Prop := ∃ u, r = .raised (.fatal .stackUnderflow) u

theorem underflows_andThen {α β : Type} {r : Res α} (hr : Underflows r) (f : α → State → Res β) :
    Underflows (r.andThen f) := by
  obtain ⟨u, rfl⟩ := hr
  exact ⟨u, rfl⟩

/-- The pop of a Word that is there leaves the other Words there. -/
theorem pop_topWritten {s : State} (hw : TopWritten s) {n : Nat} (hn : s.sp = n + 1) :
    ∃ v, pop s = .ok v (s.setSp n) ∧ TopWritten (s.setSp n) := by
  obtain ⟨v, hv⟩ := Option.ne_none_iff_exists'.1 (hw n (by omega))
  exact ⟨v, pop_of hn hv, fun k hk => hw k (hn ▸ Nat.lt_succ_of_lt hk)⟩

/-- A pop with at most `n` Words on the stack underflows, or what follows has fewer than `n` and does. -/
theorem pop_underflows {β : Type} {s : State} {n : Nat} (hw : TopWritten s) (hlt : s.sp < n + 1)
    {f : Word → State → Res β} (hf : ∀ v t, TopWritten t → t.sp < n → Underflows (f v t)) :
    Underflows ((pop s).andThen f) := by
  cases hsp : s.sp with
  | zero => exact ⟨s, by rw [pop_empty hsp, andThen_raised]⟩
  | succ m =>
    obtain ⟨v, hpop, hw'⟩ := pop_topWritten hw hsp
    rw [hpop, andThen_ok]
    exact hf v _ hw' (by rw [State.setSp_sp]; omega)

section
variable {β : Type} {s : State}

theorem one_pop_underflows (h : s.sp < 1) (f : Word → State → Res β) : Underflows ((pop s).andThen f) :=
  underflows_andThen ⟨s, pop_empty (Nat.lt_one_iff.1 h)⟩ f

theorem two_pops_underflow (hw : TopWritten s) (h : s.sp < 2) (f : Word → Word → State → Res β) :
    Underflows ((pop s).andThen fun b t => (pop t).andThen fun a u => f b a u) :=
  pop_underflows hw h fun _ _ _ ht => one_pop_underflows ht _

theorem three_pops_underflow (hw : TopWritten s) (h : s.sp < 3) (f : Word → Word → Word → State → Res β) :
    Underflows ((pop s).andThen fun c t => (pop t).andThen fun b u => (pop u).andThen fun a v => f c b a v) :=
  pop_underflows hw h fun _ _ hw' ht => two_pops_underflow hw' ht _

theorem storeLocal_underflows (k : Nat) (h : s.sp < 1) : Underflows (storeLocal k s) := one_pop_underflows h _

/-- An instruction whose result underflows reports it. -/
theorem underflows_reports {i : Instr} {r : Res Unit} (hi : exec i s = finish r) (hr : Underflows r) :
    ∃ t, exec i s = .next t ∧ t.reportsFatal .stackUnderflow := by
  obtain ⟨u, rfl⟩ := hr
  exact reportsFatal_of hi

end

/-- Settles O52: each of these instructions begins with its pops, and one of them finds the stack empty. -/
theorem stackUnderflowIsFatal : Obligations.StackUnderflowIsFatal := by
  intro s i pops hcase hlt hw
  rcases hcase with ⟨hi, rfl⟩ | ⟨hi, rfl⟩ | ⟨rfl, hdepth, rfl⟩ | ⟨hi, rfl⟩ | ⟨rfl, rfl⟩
  · simp only [List.mem_cons, List.not_mem_nil, or_false] at hi
    rcases hi with rfl | rfl | rfl | rfl
    · exact reportsFatal_first rfl (top_empty (Nat.lt_one_iff.1 hlt))
    all_goals exact underflows_reports rfl (one_pop_underflows hlt _)
  · rcases hi with (⟨off, rfl | rfl⟩ | hstore)
    · exact underflows_reports rfl (one_pop_underflows hlt _)
    · exact underflows_reports rfl (one_pop_underflows hlt _)
    · rcases hstore with ⟨k, rfl⟩ | ⟨k, rfl⟩
      all_goals exact underflows_reports rfl (underflows_andThen (storeLocal_underflows _ hlt) _)
  · exact underflows_reports (congrArg finish (if_neg hdepth)) (one_pop_underflows hlt _)
  · simp only [List.mem_cons, List.not_mem_nil, or_false] at hi
    rcases hi with (rfl | rfl | rfl | rfl | rfl | rfl) | ⟨off, rfl⟩
    all_goals exact underflows_reports rfl (two_pops_underflow hw hlt _)
  · exact underflows_reports rfl (three_pops_underflow hw hlt _)

/-! ### Instructions that push a Word already there -/

section
variable {s : State} {v : Word}

theorem top_endsIn (h : s.endsIn [v]) : top s = .ok v s := by
  obtain ⟨n, hn, hr⟩ := endsIn_one.1 h
  exact top_of hn hr

theorem loadLocal_of {k : Nat} (h : s.cell (s.localIndex k) = some v) : loadLocal k s = push v s := by
  rw [loadLocal, stackRead_of h, andThen_ok]

theorem exec_dup_of (h : s.endsIn [v]) : exec .dup s = finish ((push v s).andThen fun _ t => advance 1 t) := by
  rw [exec, execDup, top_endsIn h, andThen_ok]

theorem exec_ldcW_of {k : Half} (h : s.cp[k.toNat]? = some v) :
    exec (.ldcW k) s = finish ((push v s).andThen fun _ t => advance 3 t) := by
  rw [exec, execLdcW, constant_of h, andThen_ok]

theorem exec_iload_of {k : Byte} (h : s.cell (s.lv.toInt + k.toNat) = some v) :
    exec (.iload k) s = finish ((push v s).andThen fun _ t => advance 2 t) := by
  rw [exec, execIload, idx8, loadLocal_of h]

theorem exec_wideIload_of {k : Half} (h : s.cell (s.lv.toInt + k.toNat) = some v) :
    exec (.wideIload k) s = finish ((push v s).andThen fun _ t => advance 4 t) := by
  rw [exec, execWideIload, idx16, loadLocal_of h]

/-! IN, by what the host answers. -/

theorem exec_inp_of {u : State} (h : inByte s = .value v u) :
    exec .inp s = finish ((push v u).andThen fun _ t => advance 1 t) := by
  rw [exec, execIn, h]

theorem exec_inp_hold (h : inByte s = .hold) : exec .inp s = .next s := by
  rw [exec, execIn, h]

/-- After EOF an IN asks no more (R365). -/
theorem inByte_eof (h : s.eof = true) : inByte s = .value 0 s := if_pos h

/-- Before it an IN takes the host's next answer, if there is one (R75). -/
theorem inByte_answer {a : HostAnswer} {as : List HostAnswer} (he : s.eof = false) (ha : s.answers = a :: as) :
    ∃ v e, inByte s = .value v (s.setHost as e) := by
  cases a with
  | byte b => exact ⟨b.setWidth 32, false, by simp [inByte, he, ha]⟩
  | eof => exact ⟨0, true, by simp [inByte, he, ha]⟩

theorem inByte_noAnswer (he : s.eof = false) (ha : s.answers = []) : inByte s = .hold := by
  simp [inByte, he, ha]

/-! ### No room -/

/-- An IN without room for its Word has still taken the answer (R170). -/
theorem inp_noRoom {u : State} (h : inByte s = .value v u) (hroom : ¬ u.hasRoom) :
    ∃ t, exec .inp s = .next t ∧ t.reportsFatal .stackAlloc ∧ t.answers = u.answers := by
  rw [exec_inp_of h, push_noRoom hroom]
  exact ⟨_, rfl, ⟨rfl, rfl⟩, rfl⟩

end

/-- Settles O53: what is pushed is there, and the push is refused. -/
theorem pushesWithoutRoomAreFatal : Obligations.PushesWithoutRoomAreFatal := by
  intro s hroom
  refine ⟨fun b => ?_, fun v hv => ?_, fun k hk => ?_, fun k v hv => ?_, fun k v hv => ?_, fun a as he ha => ?_,
    fun he => ?_⟩
  · exact reportsFatal_first rfl (push_noRoom hroom _)
  · exact reportsFatal_first (exec_dup_of hv) (push_noRoom hroom v)
  · exact reportsFatal_first (exec_ldcW_of (List.getElem?_eq_getElem hk)) (push_noRoom hroom _)
  · exact reportsFatal_first (exec_iload_of hv) (push_noRoom hroom v)
  · exact reportsFatal_first (exec_wideIload_of hv) (push_noRoom hroom v)
  · obtain ⟨v, e, hin⟩ := inByte_answer he ha
    exact inp_noRoom hin hroom
  · exact inp_noRoom (inByte_eof he) hroom

end Sys2Proof.Machine
end

section
/-! SUPPORT. The heap table: accesses that miss an array or an element, and what runs leave of the table, of
the capacities and of the host's answers (spec/20_memory.md R56, R64 to R69, R75). -/

namespace Sys2Proof.Machine

/-! ### Bad references and bad indices -/

section
variable {s : State} {ref index : Word}

theorem array_eq_none (h : ref.toInt < 0 ∨ (s.heap.length : Int) ≤ ref.toInt) : s.array ref = none := by
  unfold State.array
  split
  · rename_i h0
    rw [toInt_eq_toNat h0] at h
    exact List.getElem?_eq_none (by omega)
  · rfl

theorem inArray_eq_false {len : Nat} (h : index.toInt < 0 ∨ (len : Int) ≤ index.toInt) :
    inArray index len = false := by
  rw [← Bool.not_eq_true, inArray_iff]
  omega

theorem arrayLoad_badRef (h : s.array ref = none) (index : Word) :
    arrayLoad ref index s = .raised (.undef .badRef) s := by simp [arrayLoad, h]

theorem arrayStore_badRef (h : s.array ref = none) (index v : Word) :
    arrayStore ref index v s = .raised (.undef .badRef) s := by simp [arrayStore, h]

theorem arrayLoad_badIndex {a : List Word} (h : s.array ref = some a) (hi : inArray index a.length = false) :
    arrayLoad ref index s = .raised (.recoverable .arrayIndex) s := by simp [arrayLoad, h, hi]

theorem arrayStore_badIndex {a : List Word} (h : s.array ref = some a) (hi : inArray index a.length = false)
    (v : Word) : arrayStore ref index v s = .raised (.recoverable .arrayIndex) s := by simp [arrayStore, h, hi]

/-- IALOAD with its two operands popped (R231). -/
theorem exec_iaload_of (h : s.endsIn [ref, index]) :
    exec .iaload s = finish ((arrayLoad ref index (s.setSp (s.sp - 2))).andThen fun v t =>
      (push v t).andThen fun _ t => advance 1 t) := by
  obtain ⟨n, hn, href, hindex⟩ := endsIn_two.1 h
  rw [exec, execIaload, pop_of hn href, andThen_ok, pop_of (s := s.setSp (n + 1)) rfl hindex, andThen_ok, hn]
  rfl

/-- IASTORE with its three operands popped (R232). -/
theorem exec_iastore_of {v : Word} (h : s.endsIn [ref, index, v]) :
    exec .iastore s = finish ((arrayStore ref index v (s.setSp (s.sp - 3))).andThen fun _ t => advance 1 t) := by
  obtain ⟨n, hn, href, hindex, hv⟩ := endsIn_three.1 h
  rw [exec, execIastore, pop_of hn href, andThen_ok, pop_of (s := s.setSp (n + 2)) rfl hindex, andThen_ok,
    pop_of (s := (s.setSp (n + 2)).setSp (n + 1)) rfl hv, andThen_ok, hn]
  rfl

end

/-- Settles O44: the operands are popped, then the reference is checked, then the index. -/
theorem badArrayAccessesEndTheRun : Obligations.BadArrayAccessesEndTheRun := by
  intro s ref index i pops hcase
  refine ⟨fun href => ?_, fun a h0 ha hindex => ?_⟩
  · have hnone := array_eq_none href
    rcases hcase with ⟨rfl, rfl, h⟩ | ⟨rfl, rfl, v, h⟩
    · exact reportsUndef_first (exec_iaload_of h) (arrayLoad_badRef (s := s.setSp (s.sp - 2)) hnone index)
    · exact reportsUndef_first (exec_iastore_of h) (arrayStore_badRef (s := s.setSp (s.sp - 3)) hnone index v)
  · have harray : s.array ref = some a := array_eq_some.2 ⟨h0, ha⟩
    have hout := inArray_eq_false hindex
    rcases hcase with ⟨rfl, rfl, h⟩ | ⟨rfl, rfl, v, h⟩
    · rw [exec_iaload_of h, arrayLoad_badIndex (s := s.setSp (s.sp - 2)) harray hout]
      rfl
    · rw [exec_iastore_of h, arrayStore_badIndex (s := s.setSp (s.sp - 3)) harray hout]
      rfl

/-! ### The heap table along a run -/

theorem stackOnly_heap {s t : State} (h : StackOnly s t) : t.heap = s.heap := by rw [stackOnly_eq h]

/-- An allocation appends to the table (R65). -/
theorem allocate_extends (c : Word) (s : State) : (allocate c s).All (s.heap <+: ·.heap) := by
  unfold allocate
  split
  · exact List.prefix_rfl
  · split
    · exact List.prefix_rfl
    · split
      · exact List.prefix_rfl
      · exact List.prefix_append _ _

/-- A store into an array resizes none (R67). -/
theorem arrayStore_lengths (r i v : Word) (s : State) :
    (arrayStore r i v s).All (·.heap.map List.length = s.heap.map List.length) := by
  cases ha : s.array r with
  | none => rw [arrayStore_badRef ha]; rfl
  | some a =>
    cases hi : inArray i a.length with
    | false => rw [arrayStore_badIndex ha hi]; rfl
    | true =>
      obtain ⟨hr, he⟩ := List.getElem?_eq_some_iff.1 (array_eq_some.1 ha).2
      rw [arrayStore_of ha hi]
      show (s.heap.set r.toNat (a.set i.toNat v)).map List.length = s.heap.map List.length
      have hl : (s.heap.map List.length)[r.toNat]'(by simpa using hr) = a.length := by simp [he]
      rw [List.map_set, List.length_set, ← hl, List.set_getElem_self]

theorem all_mono {α : Type} {P Q : State → Prop} {r : Res α} (hr : r.All P) (h : ∀ s, P s → Q s) : r.All Q := by
  cases r with
  | ok a s => exact h s hr
  | raised e s => exact h s hr

/-- No operation but a store into an array changes one that is there (R69). -/
theorem heap_closed {i : Instr} (hi : i ≠ .iastore) (h : List (List Word)) : Closed i (h <+: ·.heap) :=
  closed_of_stackOnly
    (fun _ _ hs hst => stackOnly_heap hst ▸ hs)
    (fun _ _ hs => hs)
    (fun _ c s hs => all_mono (allocate_extends c s) fun _ ht => hs.trans ht)
    (fun hstore => absurd hstore hi)
    (fun _ _ _ _ hs => hs)
    (fun _ _ _ hs => hs)
    (fun _ _ _ _ hs => hs)

/-- The arrays of the one are there in the other, with the same lengths. -/
def KeepsArrays (s t : State) : Prop := s.heap.map List.length <+: t.heap.map List.length

theorem keepsArrays_closed (i : Instr) (s : State) : Closed i (KeepsArrays s) :=
  closed_of_stackOnly
    (fun _ t hs hst => by rw [KeepsArrays, stackOnly_heap hst]; exact hs)
    (fun _ _ hs => hs)
    (fun _ c u hs => all_mono (allocate_extends c u) fun _ ht => hs.trans (ht.map _))
    (fun _ r k v u hs => all_mono (arrayStore_lengths r k v u) fun t ht => by rw [KeepsArrays, ht]; exact hs)
    (fun _ _ _ _ hs => hs)
    (fun _ _ _ hs => hs)
    (fun _ _ _ _ hs => hs)

theorem keepsArrays_array {s t : State} (h : KeepsArrays s t) {r : Nat} {a : List Word} (ha : s.heap[r]? = some a) :
    ∃ a', t.heap[r]? = some a' ∧ a'.length = a.length := by
  obtain ⟨hr, rfl⟩ := List.getElem?_eq_some_iff.1 ha
  have ht := List.prefix_iff_getElem?.1 h r (by rwa [List.length_map])
  rwa [List.getElem?_map, List.getElem_map, Option.map_eq_some_iff] at ht

/-- Settles O58: an allocation appends, a store keeps the lengths, and only IASTORE stores. -/
theorem arraysAreNeverRemovedOrResized : Obligations.ArraysAreNeverRemovedOrResized :=
  ⟨fun _ _ hrun hf _ _ ha => keepsArrays_array
      (run_extends keepsArrays_closed (fun _ => List.prefix_rfl) (fun _ _ _ _ h => h)
        (fun _ _ _ => List.IsPrefix.trans) hrun hf) ha,
    fun _ s _ h hf hi => exec_keeps (heap_closed hi s.heap) (fun _ _ _ h => h) h hf List.prefix_rfl⟩

/-! ### The capacities along a run -/

/-- Neither capacity of the one is larger than that of the other. -/
def CapsGrow (s t : State) : Prop := s.cap ≤ t.cap ∧ s.hcap ≤ t.hcap

theorem capsGrow_trans (s t u : State) (h : CapsGrow s t) (h' : CapsGrow t u) : CapsGrow s u :=
  ⟨h.1.trans h'.1, h.2.trans h'.2⟩

theorem capsGrow_of_kept {s t u : State} (h : CapsGrow s t) (hk : Kept t u) : CapsGrow s u :=
  capsGrow_trans s t u h ⟨hk.cap, hk.hcap⟩

/-- What follows from `Kept` for the state after an operation is kept by every operation. -/
theorem closed_of_kept {i : Instr} {P : State → Prop} (h : ∀ t u, P t → Kept t u → P u) : Closed i P where
  push v s hs := all_mono ((kept_closed i s).push v s (kept_refl s)) (h s · hs)
  pop s hs := all_mono ((kept_closed i s).pop s (kept_refl s)) (h s · hs)
  write k v s hs := all_mono ((kept_closed i s).write k v s (kept_refl s)) (h s · hs)
  size n s hs hn := h s _ hs ((kept_closed i s).size n s (kept_refl s) hn)
  pc v s hs := h s _ hs ((kept_closed i s).pc v s (kept_refl s))
  allocate hi c s hs := all_mono ((kept_closed i s).allocate hi c s (kept_refl s)) (h s · hs)
  store hi r k v s hs := all_mono ((kept_closed i s).store hi r k v s (kept_refl s)) (h s · hs)
  frame hi v d s hs := h s _ hs ((kept_closed i s).frame hi v d s (kept_refl s))
  out hi b s hs := h s _ hs ((kept_closed i s).out hi b s (kept_refl s))
  host hi as e s hs := h s _ hs ((kept_closed i s).host hi as e s (kept_refl s))

/-- Settles O59: the capacities are among what every operation keeps or makes larger. -/
theorem capacitiesNeverShrink : Obligations.CapacitiesNeverShrink :=
  fun _ _ hrun hf => run_extends (R := CapsGrow) (fun _ _ => closed_of_kept fun _ _ => capsGrow_of_kept)
    (fun _ => ⟨le_rfl, le_rfl⟩) (fun _ _ _ _ h => h) capsGrow_trans hrun hf

/-! ### The host's answers along a run -/

/-- The answers left in the second state are the last of those in the first; none is gone after EOF. -/
def AnswersTaken (s t : State) : Prop :=
  t.answers <:+ s.answers ∧ (s.eof = true → t.eof = true ∧ t.answers = s.answers)

theorem answersTaken_of_eq {s t : State} (ha : t.answers = s.answers) (he : t.eof = s.eof) : AnswersTaken s t :=
  ⟨ha ▸ List.suffix_rfl, fun h => ⟨he.trans h, ha⟩⟩

theorem answersTaken_trans {s t u : State} (h : AnswersTaken s t) (h' : AnswersTaken t u) : AnswersTaken s u :=
  ⟨h'.1.trans h.1, fun he =>
    have ⟨he', ha⟩ := h.2 he
    have ⟨he'', ha'⟩ := h'.2 he'
    ⟨he'', ha'.trans ha⟩⟩

theorem stackOnly_answers {s t : State} (h : StackOnly s t) : t.answers = s.answers := by rw [stackOnly_eq h]

theorem stackOnly_eof {s t : State} (h : StackOnly s t) : t.eof = s.eof := by rw [stackOnly_eq h]

/-- No operation of an instruction but IN takes an answer. -/
theorem answers_closed {i : Instr} (hi : i ≠ .inp) (as : List HostAnswer) (e : Bool) :
    Closed i fun t => t.answers = as ∧ t.eof = e :=
  closed_of_storesUnread
    (fun _ _ h hst => ⟨(stackOnly_answers hst).trans h.1, (stackOnly_eof hst).trans h.2⟩)
    (fun _ _ h => h)
    (fun _ _ _ h => h)
    (fun _ _ _ _ h => h)
    (fun _ _ _ h => h)
    (fun hin => absurd hin hi)

/-- No error takes an answer (log 1). -/
theorem finish_answers {r : Res Unit} {t u : State} (hr : r.All fun v => v.answers = u.answers ∧ v.eof = u.eof)
    (h : finish r = .next t) : t.answers = u.answers ∧ t.eof = u.eof :=
  finish_all hr (fun _ hv => hv) (fun e v hv => ⟨(raise_answers e v).trans hv.1, (raise_eof e v).trans hv.2⟩) h

/-- The end of an instruction but IN has what the operations keep, an error or not. -/
theorem exec_answers {i : Instr} (hi : i ≠ .inp) {s t : State} (h : exec i s = .next t) :
    t.answers = s.answers ∧ t.eof = s.eof := by
  obtain ⟨r, hr, hall⟩ := exec_closed (answers_closed hi s.answers s.eof) (s := s) ⟨rfl, rfl⟩
  exact finish_answers hall (hr.symm.trans h)

/-- An IN takes the next answer, or none after EOF (R75, R365). -/
theorem inByte_taken {s u : State} {v : Word} (h : inByte s = .value v u) : AnswersTaken s u := by
  cases he : s.eof with
  | true =>
    rw [inByte_eof he] at h
    cases h
    exact answersTaken_of_eq rfl rfl
  | false =>
    cases ha : s.answers with
    | nil => rw [inByte_noAnswer he ha] at h; cases h
    | cons a as =>
      obtain ⟨w, e, hin⟩ := inByte_answer he ha
      rw [hin] at h
      cases h
      exact ⟨ha ▸ List.suffix_cons a as, fun h => absurd h (by simp [he])⟩

theorem inp_taken {s t : State} (h : exec .inp s = .next t) : AnswersTaken s t := by
  cases hin : inByte s with
  | hold =>
    rw [exec_inp_hold hin] at h
    cases h
    exact answersTaken_of_eq rfl rfl
  | value v u =>
    rw [exec_inp_of hin] at h
    have hrest := answers_closed (i := .nop) nofun u.answers u.eof
    obtain ⟨ha, he⟩ := finish_answers
      (all_andThen (hrest.push v u ⟨rfl, rfl⟩) fun _ _ hu => closed_advance hrest 1 hu) h
    exact answersTaken_trans (inByte_taken hin) (answersTaken_of_eq ha he)

theorem exec_taken {i : Instr} {s t : State} (h : exec i s = .next t) : AnswersTaken s t := by
  by_cases hi : i = .inp
  · subst hi
    exact inp_taken h
  · obtain ⟨ha, he⟩ := exec_answers hi h
    exact answersTaken_of_eq ha he

theorem settle_taken (s : State) : AnswersTaken s (settle s) := by
  unfold settle
  split
  · exact answersTaken_of_eq rfl rfl
  · exact answersTaken_of_eq rfl rfl

theorem step_taken {s t : State} (h : step s = .next t) : AnswersTaken s t := by
  by_cases hs : s.status = .run
  · rcases fetch_running hs with ⟨e, he⟩ | he | ⟨i, hi⟩
    · rw [step_of_ends he] at h
      cases h
      exact answersTaken_of_eq (raise_answers e s) (raise_eof e s)
    · rw [step_of_ends he] at h
      cases h
      exact settle_taken s
    · rw [step_of_runs hi] at h
      cases hx : exec i s with
      | next u =>
        rw [hx] at h
        cases h
        exact answersTaken_trans (exec_taken hx) (settle_taken u)
      | fault r => rw [hx] at h; cases h
      | refused r => rw [hx] at h; cases h
  · rw [step_of_not_running hs] at h
    cases h
    exact answersTaken_of_eq rfl rfl

/-- Settles O60, by induction on the run: a step takes the next answers, and none after EOF. -/
theorem onlyInConsumesTheHostsAnswers : Obligations.OnlyInConsumesTheHostsAnswers := by
  refine ⟨fun i s t h hi => exec_answers hi h, fun s t hrun => ?_⟩
  induction hrun with
  | refl => exact answersTaken_of_eq rfl rfl
  | tail _ hstep ih => exact answersTaken_trans ih (step_taken hstep)

end Sys2Proof.Machine
end

section
/-! SUPPORT. The INSPECT queries (spec/20_memory.md R80). -/

namespace Sys2Proof.Machine

section
variable {s : State}

/-- While the core runs, or after it is done, every query is answered. -/
theorem inspect_valid (h : s.status = .run ∨ s.status = .done) (q : Query) : inspect q s = some (answerOf q s) := by
  have hf : s.status.faulted = false := by rcases h with h | h <;> rw [h] <;> rfl
  simp [inspect, hf]

/-- `status` and `cause` are answered after every error too. -/
theorem inspect_always {q : Query} (h : q.always = true) : inspect q s = some (answerOf q s) := by
  simp [inspect, h]

theorem always_eq_false {q : Query} (hstatus : q ≠ .status) (hcause : q ≠ .cause) : q.always = false := by
  cases q with
  | status => exact absurd rfl hstatus
  | cause => exact absurd rfl hcause
  | getPc | tos | finished | localVar _ | constant _ | text | textSize | callDepth | isFreed _ => rfl

/-- After a fatal or an undefined error no other query is answered. -/
theorem inspect_faulted (h : s.status = .fatal ∨ s.status = .undef) {q : Query} (hq : q.always = false) :
    inspect q s = none := by
  have hf : s.status.faulted = true := by rcases h with h | h <;> rw [h] <;> rfl
  simp [inspect, hf, hq]

theorem answerOf_tos_empty (h : s.sp = 0) : answerOf .tos s = .absent := by simp [answerOf, h, cellAnswer]

theorem answerOf_tos {v : Word} (h : s.endsIn [v]) : answerOf .tos s = .word v := by
  obtain ⟨n, hn, hr⟩ := endsIn_one.1 h
  simp [answerOf, hn, hr, cellAnswer]

theorem answerOf_finished : answerOf .finished s = .bool (decide (s.status ≠ .run)) := by
  cases h : s.status <;> simp [answerOf, h]

theorem answerOf_localVar (i : Int) : answerOf (.localVar i) s = cellAnswer (s.cell (s.lv.toInt + i)) := rfl

theorem answerOf_constant {i : Nat} {w : Word} (h : s.cp[i]? = some w) : answerOf (.constant i) s = .word w := by
  simp [answerOf, h]

theorem answerOf_constant_outside {i : Int} (h : i < 0 ∨ (s.cp.length : Int) ≤ i) :
    answerOf (.constant i) s = .word 0 := by
  by_cases h0 : 0 ≤ i
  · have hlen : s.cp.length ≤ i.toNat := by omega
    simp [answerOf, h0, List.getElem?_eq_none hlen]
  · simp [answerOf, h0]

end

/-- Settles O15: a query that is not refused is answered from the state. -/
theorem inspectAnswersFromTheState : Obligations.InspectAnswersFromTheState := by
  intro s
  refine ⟨fun hvalid => ?_, fun q hq hs => ?_, fun q hq hs => ?_, fun hfaulted q hstatus hcause => ?_⟩
  · simp only [inspect_valid hvalid, Option.some_inj]
    exact ⟨rfl, answerOf_tos_empty, fun _ => answerOf_tos, answerOf_finished,
      fun i v h => by rw [answerOf_localVar, h]; rfl, fun i h => by rw [answerOf_localVar, h]; rfl,
      fun _ _ => answerOf_constant, fun _ => answerOf_constant_outside, rfl, rfl, rfl, fun _ => rfl⟩
  · have hcode : s.status.code = q.2 := by rw [hs]; clear hs; revert q; decide
    rw [inspect_always rfl, answerOf, hcode]
  · have hcode : s.cause.code = q.2 := by rw [hs]; clear hs; revert q; decide
    rw [inspect_always rfl, answerOf, hcode]
  · exact inspect_faulted hfaulted (always_eq_false hstatus hcause)

end Sys2Proof.Machine
end

section
/-! SUPPORT. Decoding and encoding are inverse to each other, and which bytes are opcodes
(spec/30_encoding.md R92 to R101). -/

namespace Sys2Proof

/-! ### Operands by format: the bytes an instruction is read from -/

theorem decodeB_eq_instr {k : Byte → Instr} {bs rest : List Byte} {i : Instr} :
    decodeB k bs = .instr i rest ↔ ∃ b, i = k b ∧ bs = b :: rest := by
  rcases bs with _ | ⟨b, bs⟩
  · simp [decodeB]
  · simp [decodeB, eq_comm]

theorem decodeBB_eq_instr {k : Byte → Byte → Instr} {bs rest : List Byte} {i : Instr} :
    decodeBB k bs = .instr i rest ↔ ∃ a b, i = k a b ∧ bs = a :: b :: rest := by
  rcases bs with _ | ⟨a, _ | ⟨b, bs⟩⟩
  · simp [decodeBB]
  · simp [decodeBB]
  · simp [decodeBB, eq_comm]

theorem decodeH_eq_instr {k : Half → Instr} {bs rest : List Byte} {i : Instr} :
    decodeH k bs = .instr i rest ↔ ∃ h, i = k h ∧ bs = hiByte h :: loByte h :: rest := by
  constructor
  · intro hd
    rcases bs with _ | ⟨h, _ | ⟨l, bs⟩⟩ <;> cases hd
    exact ⟨be16 h l, rfl, by simp⟩
  · rintro ⟨h, rfl, rfl⟩
    simp [decodeH]

theorem decodeHB_eq_instr {k : Half → Byte → Instr} {bs rest : List Byte} {i : Instr} :
    decodeHB k bs = .instr i rest ↔ ∃ h d, i = k h d ∧ bs = hiByte h :: loByte h :: d :: rest := by
  constructor
  · intro hd
    rcases bs with _ | ⟨h, _ | ⟨l, _ | ⟨d, bs⟩⟩⟩ <;> cases hd
    exact ⟨be16 h l, d, rfl, by simp⟩
  · rintro ⟨h, d, rfl, rfl⟩
    simp [decodeHB]

/-! ### Decoding an encoding -/

/-- The byte after WIDE of the row WIDE selects no form of its own (R207). -/
theorem decodeWide_other {m : OpcodeMap} {b : Byte} (hb : (Instr.wide b).wf m = true) (bs : List Byte) :
    decodeWide m (b :: bs) = .instr (.wide b) bs := by
  simp only [Instr.wf, Bool.and_eq_true, bne_iff_ne] at hb
  obtain ⟨⟨hload, hstore⟩, hinc⟩ := hb
  rw [decodeWide, if_neg hload, if_neg hstore, if_neg hinc]

/-- The opcode byte of a mnemonic leaves the rest to the decoding of its operands. -/
theorem decode_byte {m : OpcodeMap} (hm : m.Distinct) (k : Opcode) {bs : List Byte} {d : Decoded}
    (hops : decodeOperands m bs k = d) : decode m (m.byte k :: bs) = d := by
  rw [decode, lookup_byte hm]
  exact hops

/-- Settles O1: the opcode byte is looked up as its mnemonic, whose operands, by their format, read back. -/
theorem decodeOfEncodeReturnsInstruction : Obligations.DecodeOfEncodeReturnsInstruction := by
  intro m i rest hm hwf
  cases i with
  | nop => exact decode_byte hm .nop rfl
  | err => exact decode_byte hm .err rfl
  | halt => exact decode_byte hm .halt rfl
  | dup => exact decode_byte hm .dup rfl
  | pop => exact decode_byte hm .pop rfl
  | swap => exact decode_byte hm .swap rfl
  | iadd => exact decode_byte hm .iadd rfl
  | isub => exact decode_byte hm .isub rfl
  | iand => exact decode_byte hm .iand rfl
  | ior => exact decode_byte hm .ior rfl
  | inp => exact decode_byte hm .inp rfl
  | out => exact decode_byte hm .out rfl
  | newarray => exact decode_byte hm .newarray rfl
  | iaload => exact decode_byte hm .iaload rfl
  | iastore => exact decode_byte hm .iastore rfl
  | ireturn => exact decode_byte hm .ireturn rfl
  | bipush b => exact decode_byte hm .bipush rfl
  | iload i => exact decode_byte hm .iload rfl
  | istore i => exact decode_byte hm .istore rfl
  | iinc i d => exact decode_byte hm .iinc rfl
  | goto off => exact decode_byte hm .goto (decodeH_eq_instr.2 ⟨off, rfl, rfl⟩)
  | ifeq off => exact decode_byte hm .ifeq (decodeH_eq_instr.2 ⟨off, rfl, rfl⟩)
  | iflt off => exact decode_byte hm .iflt (decodeH_eq_instr.2 ⟨off, rfl, rfl⟩)
  | ifIcmpeq off => exact decode_byte hm .ifIcmpeq (decodeH_eq_instr.2 ⟨off, rfl, rfl⟩)
  | ldcW i => exact decode_byte hm .ldcW (decodeH_eq_instr.2 ⟨i, rfl, rfl⟩)
  | invokevirtual i => exact decode_byte hm .invokevirtual (decodeH_eq_instr.2 ⟨i, rfl, rfl⟩)
  | tailcall i => exact decode_byte hm .tailcall (decodeH_eq_instr.2 ⟨i, rfl, rfl⟩)
  | wide b => exact decode_byte hm .wide (decodeWide_other hwf rest)
  | wideIload i =>
    exact decode_byte hm .wide ((decodeWide_iload m _).trans (decodeH_eq_instr.2 ⟨i, rfl, rfl⟩))
  | wideIstore i =>
    exact decode_byte hm .wide ((decodeWide_istore hm _).trans (decodeH_eq_instr.2 ⟨i, rfl, rfl⟩))
  | wideIinc i d =>
    exact decode_byte hm .wide ((decodeWide_iinc hm _).trans (decodeHB_eq_instr.2 ⟨i, d, rfl, rfl⟩))

/-! ### Encoding what was decoded -/

/-- The instruction is well formed, and these bytes are its encoding followed by `rest`. -/
def EncodedBy (m : OpcodeMap) (bytes rest : List Byte) (i : Instr) : Prop :=
  i.wf m = true ∧ bytes = encode m i ++ rest

/-- What is read after WIDE is one of its three forms or the row WIDE. -/
theorem encodedBy_of_decodeWide {m : OpcodeMap} {bs rest : List Byte} {i : Instr}
    (h : decodeWide m bs = .instr i rest) : EncodedBy m (m.wide :: bs) rest i := by
  rcases bs with _ | ⟨b, bs⟩
  · cases h
  · rw [decodeWide] at h
    split_ifs at h with hload hstore hinc
    · obtain ⟨i, rfl, rfl⟩ := decodeH_eq_instr.1 h
      exact ⟨rfl, by rw [hload]; rfl⟩
    · obtain ⟨i, rfl, rfl⟩ := decodeH_eq_instr.1 h
      exact ⟨rfl, by rw [hstore]; rfl⟩
    · obtain ⟨i, d, rfl, rfl⟩ := decodeHB_eq_instr.1 h
      exact ⟨rfl, by rw [hinc]; rfl⟩
    · cases h
      exact ⟨by simp [Instr.wf, hload, hstore, hinc], rfl⟩

/-- The operands read for a mnemonic are, after its byte, the encoding of the instruction. -/
theorem encodedBy_of_decodeOperands {m : OpcodeMap} (k : Opcode) {bs rest : List Byte} {i : Instr}
    (h : decodeOperands m bs k = .instr i rest) : EncodedBy m (m.byte k :: bs) rest i := by
  cases k with
  | nop | err | halt | dup | pop | swap | iadd | isub | iand | ior | inp | out | newarray | iaload | iastore
  | ireturn => cases h; exact ⟨rfl, rfl⟩
  | bipush | iload | istore =>
    obtain ⟨b, rfl, rfl⟩ := decodeB_eq_instr.1 h
    exact ⟨rfl, rfl⟩
  | iinc =>
    obtain ⟨a, d, rfl, rfl⟩ := decodeBB_eq_instr.1 h
    exact ⟨rfl, rfl⟩
  | goto | ifeq | iflt | ifIcmpeq | ldcW | invokevirtual | tailcall =>
    obtain ⟨a, rfl, rfl⟩ := decodeH_eq_instr.1 h
    exact ⟨rfl, rfl⟩
  | wide => exact encodedBy_of_decodeWide h

/-- Settles O2: the first byte is that of the mnemonic looked up, and the operands are read after it. -/
theorem encodeOfDecodeReturnsBytes : Obligations.EncodeOfDecodeReturnsBytes := by
  intro m bytes rest i h
  rcases bytes with _ | ⟨op, bs⟩
  · cases h
  · cases hk : m.lookup op with
    | none => simp [decode, hk] at h
    | some k =>
      simp only [decode, hk] at h
      rw [← byte_of_lookup hk]
      exact encodedBy_of_decodeOperands k h

/-! ### Unknown opcodes -/

theorem decodeB_ne_unknownOpcode (k : Byte → Instr) (op : Byte) : ∀ bs, decodeB k bs ≠ .unknownOpcode op
  | [] => nofun
  | _ :: _ => nofun

theorem decodeBB_ne_unknownOpcode (k : Byte → Byte → Instr) (op : Byte) :
    ∀ bs, decodeBB k bs ≠ .unknownOpcode op
  | [] => nofun
  | [_] => nofun
  | _ :: _ :: _ => nofun

theorem decodeH_ne_unknownOpcode (k : Half → Instr) (op : Byte) : ∀ bs, decodeH k bs ≠ .unknownOpcode op
  | [] => nofun
  | [_] => nofun
  | _ :: _ :: _ => nofun

theorem decodeHB_ne_unknownOpcode (k : Half → Byte → Instr) (op : Byte) :
    ∀ bs, decodeHB k bs ≠ .unknownOpcode op
  | [] => nofun
  | [_] => nofun
  | [_, _] => nofun
  | _ :: _ :: _ :: _ => nofun

theorem decodeWide_ne_unknownOpcode (m : OpcodeMap) (op : Byte) : ∀ bs, decodeWide m bs ≠ .unknownOpcode op
  | [] => nofun
  | b :: bs => by
    rw [decodeWide]
    split_ifs
    · exact decodeH_ne_unknownOpcode _ _ _
    · exact decodeH_ne_unknownOpcode _ _ _
    · exact decodeHB_ne_unknownOpcode _ _ _
    · nofun

/-- Once a mnemonic is found, no byte after it makes the opcode unknown (spec/40_machine_control.md R123). -/
theorem decodeOperands_ne_unknownOpcode (m : OpcodeMap) (bs : List Byte) (k : Opcode) (op : Byte) :
    decodeOperands m bs k ≠ .unknownOpcode op := by
  cases k with
  | nop | err | halt | dup | pop | swap | iadd | isub | iand | ior | inp | out | newarray | iaload | iastore
  | ireturn => nofun
  | bipush | iload | istore => exact decodeB_ne_unknownOpcode _ _ _
  | iinc => exact decodeBB_ne_unknownOpcode _ _ _
  | goto | ifeq | iflt | ifIcmpeq | ldcW | invokevirtual | tailcall => exact decodeH_ne_unknownOpcode _ _ _
  | wide => exact decodeWide_ne_unknownOpcode _ _ _

/-- A byte decodes as unknown exactly where no mnemonic has it (R101). -/
theorem decode_eq_unknownOpcode {m : OpcodeMap} {b : Byte} {rest : List Byte} :
    decode m (b :: rest) = .unknownOpcode b ↔ ∀ k : Opcode, m.byte k ≠ b := by
  rw [← lookup_eq_none]
  cases hk : m.lookup b with
  | none => simp [decode, hk]
  | some k => simp [decode, hk, decodeOperands_ne_unknownOpcode]

/-- Settles O5: the look-up alone decides whether an opcode is unknown, and the bytes are counted. -/
theorem unknownOpcodesAreTheBytesOutsideTheMap : Obligations.UnknownOpcodesAreTheBytesOutsideTheMap :=
  ⟨fun _ _ _ => decode_eq_unknownOpcode, by decide +kernel⟩

/-! ### Words written out -/

/-- Settles O3: each word is decoded. -/
theorem writtenOutWordsDecode : Obligations.WrittenOutWordsDecode := by
  unfold Obligations.WrittenOutWordsDecode
  decide

end Sys2Proof
end

section
/-! SUPPORT. What a step does, by what it fetches (spec/30_encoding.md R90, R91). -/

namespace Sys2Proof.Machine

/-- Every instruction answers a next state: its own, or that of the error it raised. -/
theorem exec_next (i : Instr) (s : State) : ∃ t, exec i s = .next t := by
  obtain ⟨r, hr, -⟩ := exec_closed (kept_closed i s) (kept_refl s)
  rcases finish_next r with ⟨t, -, ht⟩ | ⟨e, t, -, ht⟩
  · exact ⟨t, hr.trans ht⟩
  · exact ⟨raise e t, hr.trans ht⟩

/-- After its handler a step settles. -/
theorem step_of_exec {s t : State} {i : Instr} (hf : fetch s = .runs i) (ht : exec i s = .next t) :
    step s = .next (settle t) := by
  rw [step_of_runs hf, ht]
  rfl

/-- Settles O7: a step ends at its fetch, or settles the next state that its instruction answers. -/
theorem everyStepAnswersANextState : Obligations.EveryStepAnswersANextState := by
  refine ⟨exec_next, fun s => ?_⟩
  cases hf : fetch s with
  | ends t => exact ⟨t, step_of_ends hf⟩
  | runs i =>
    obtain ⟨t, ht⟩ := exec_next i s
    exact ⟨settle t, step_of_exec hf ht⟩

/-- Settling reads nothing but `status`, `pc` and `TEXT_LEN`, and writes nothing but `status`. -/
theorem settle_eq (s : State) :
    settle s = if s.status = .run ∧ (s.text.length : Int) ≤ s.pc.toInt then { s with status := .done } else s := by
  simp [settle, State.pastEnd, State.setStatus]

section
variable {s : State} (hs : s.status = .run)
include hs

theorem fetch_below (hpc : s.pc.toInt < 0) : fetch s = .ends (raise (.undef .pcRange) s) := by
  simp [fetch, hs, hpc]

theorem fetch_unknownOpcode {op : Byte} (hpc : 0 ≤ s.pc.toInt)
    (hd : decode s.cfg.opcodeMap (s.text.drop s.pc.toNat) = .unknownOpcode op) :
    fetch s = .ends (raise (.recoverable .unknownOpcode) s) := by
  simp [fetch, hs, hpc.not_gt, hd]

theorem fetch_truncated (hpc : 0 ≤ s.pc.toInt)
    (hd : decode s.cfg.opcodeMap (s.text.drop s.pc.toNat) = .truncated) :
    fetch s = .ends (raise (.undef .truncated) s) := by
  simp [fetch, hs, hpc.not_gt, hd]

end

/-- Settles O6: each clause is one thing that the fetch can find. -/
theorem stepRunsTheDecodedInstruction : Obligations.StepRunsTheDecodedInstruction := by
  intro s
  refine ⟨step_of_not_running, fun hs hpc => ?_, fun hs hpc op rest htext hop => ?_, fun hs hpc hd => ?_,
    fun hs hpc i rest hd => ?_⟩
  · exact ⟨_, step_of_ends (fetch_below hs hpc), rfl, rfl⟩
  · exact step_of_ends (fetch_unknownOpcode hs hpc (by rw [htext]; exact decode_eq_unknownOpcode.2 hop))
  · exact ⟨_, step_of_ends (fetch_truncated hs hpc hd), rfl, rfl⟩
  · obtain ⟨t, ht⟩ := exec_next i s
    exact ⟨t, ht, by rw [step_of_exec (fetch_instr hs hpc hd) ht, settle_eq]⟩

end Sys2Proof.Machine
end

section
/-! SUPPORT. Machine control: what NOP, ERR and HALT answer, and the step that runs HALT
(spec/40_machine_control.md R120 to R122). -/

namespace Sys2Proof.Machine

theorem exec_nop (s : State) : exec .nop s = .next (s.setPc (s.pc + 1)) := rfl

theorem exec_err (s : State) : exec .err s = .next (raise (.recoverable .errInstr) s) := rfl

theorem exec_halt (s : State) : exec .halt s = .next (s.setPc s.textEnd) := rfl

/-- A running core sent to the end of its text is done, unless the text is too long for its length to read
back as a Word that is not negative (spec/10_state.md R23). -/
theorem settle_setPc_textEnd {s : State} (hs : s.status = .run) (hlen : s.text.length < 2 ^ 31) :
    settle (s.setPc s.textEnd) = { s with pc := s.textEnd, status := .done } := by
  have hpc : s.textEnd.toInt = s.text.length := toInt_ofNat_lt hlen
  rw [settle_eq, if_pos ⟨hs, hpc.ge⟩]
  rfl

/-- Settles O21: NOP only sets `pc`. -/
theorem nopOnlyAdvances : Obligations.NopOnlyAdvances := exec_nop

/-- Settles O22: ERR raises a recoverable error, which keeps everything but `pc`, `status` and `cause`. -/
theorem errEndsTheRunRecoverably : Obligations.ErrEndsTheRunRecoverably := by
  intro s
  refine ⟨_, exec_err s, ?_, raise_recoverable .errInstr s⟩
  rw [raise_cause, Cause.code]

/-- Settles O23: HALT sends `pc` to the end of the text, where the step settles. -/
theorem haltEndsTheRunCleanly : Obligations.HaltEndsTheRunCleanly := by
  intro s
  refine ⟨exec_halt s, fun rest hs hpc hlen hd => ?_⟩
  rw [step_of_exec (fetch_instr hs hpc hd) (exec_halt s), settle_setPc_textEnd hs hlen]
  rfl

end Sys2Proof.Machine
end

section
/-! SUPPORT. Stack and integer arithmetic: an instruction that pushes one Word, and one that replaces the top
two (spec/41_stack_arith.md R140 to R149). -/

namespace Sys2Proof.Machine

/-! ### One Word pushed -/

/-- An instruction that pushes a Word it has at hand, and goes on behind its own bytes. -/
theorem exec_push_of {i : Instr} {s : State} {v : Word} {n : Nat} (h : Sound s) (hroom : s.hasRoom)
    (hi : exec i s = finish ((push v s).andThen fun _ t => advance n t)) :
    ∃ t, exec i s = .next t ∧
      t = { s with pc := s.pc + BitVec.ofNat 32 n, sp := s.sp + 1, cap := s.capAfterPush, stack := t.stack } ∧
      t.cell s.sp = some v ∧ CellsKept s t (· = (s.sp : Int)) := by
  rw [hi, push_hasRoom hroom, andThen_ok]
  exact ⟨_, rfl, rfl, pushed_kept h v⟩

theorem imm8_toInt (b : Byte) : (imm8 b).toInt = b.toInt :=
  BitVec.toInt_signExtend_of_le (by decide)

/-- Settles O25: the Word at hand is the operand. -/
theorem bipushPushesTheSignExtendedByte : Obligations.BipushPushesTheSignExtendedByte := by
  intro s b h hroom
  obtain ⟨t, hexec, hframe, hcells⟩ := exec_push_of (i := .bipush b) h hroom rfl
  exact ⟨t, imm8 b, hexec, imm8_toInt b, hframe, hcells⟩

/-- Settles O26: the Word at hand is the top. -/
theorem dupPushesTheTop : Obligations.DupPushesTheTop :=
  fun _ _ h hroom hv => exec_push_of h hroom (exec_dup_of hv)

/-! ### One Word dropped -/

/-- Settles O27: the pop lowers `sp` alone. -/
theorem popDropsTheTop : Obligations.PopDropsTheTop := by
  intro s v hv
  rw [exec, execPop, pop_endsIn hv, andThen_ok]
  rfl

/-! ### The top two replaced -/

theorem andThen_assoc {α β γ : Type} (r : Res α) (f : α → State → Res β) (g : β → State → Res γ) :
    (r.andThen f).andThen g = r.andThen fun a s => (f a s).andThen g := by
  cases r with
  | ok a s => rfl
  | raised e s => rfl

theorem cellsKept_mono {s t : State} {P Q : Int → Prop} (h : CellsKept s t P) (hPQ : ∀ i, P i → Q i) :
    CellsKept s t Q := fun i hi => h i (hi ∘ hPQ i)

theorem grown_within {old new size : Nat} (h : Grown old new size) (hfit : size ≤ old) : new = old := by
  obtain ⟨g, rfl, -, rfl | hlt⟩ := h
  · exact Nat.mul_one old
  · have hg : 2 ^ g < 2 ^ 1 := Nat.lt_of_mul_lt_mul_left (a := old) (by omega)
    rw [Nat.lt_one_iff.1 ((Nat.pow_lt_pow_iff_right (by decide)).1 hg), Nat.pow_zero, Nat.mul_one]

/-- Pushes into existing cells, with the top lowered to `n` before: these cells are written, nothing grows. -/
theorem pushAll_within {s : State} (h : Sound s) {n : Nat} {vs : List Word} (hfit : n + vs.length ≤ s.cap) :
    ∃ t, pushAll vs (s.setSp n) = .ok () t ∧ t = { s with sp := n + vs.length, stack := t.stack } ∧
      t.endsIn vs.reverse ∧ CellsKept s t fun i => (n : Int) ≤ i ∧ i < n + vs.length := by
  obtain ⟨t, hpush, -, honly, hsp, hgrown, hcells⟩ :=
    pushAll_of (sound_setSp h (n := n) (by omega)) vs (hfit.trans h.cap_le_max)
  have hcap : t.cap = s.cap := grown_within hgrown hfit
  rw [State.setSp_sp] at hsp hcells
  have hframe : t = { s with sp := n + vs.length, stack := t.stack } := by
    calc t = { s with sp := t.sp, cap := t.cap, stack := t.stack } := honly
      _ = { s with sp := n + vs.length, stack := t.stack } := by rw [hsp, hcap]
  refine ⟨t, hpush, hframe, ⟨by rw [List.length_reverse, hsp]; omega, fun k w hk => ?_⟩, fun i hi => ?_⟩
  · have hlt : k < vs.length := by simpa using (List.getElem?_eq_some_iff.1 hk).1
    have hcell : t.cell ((n + (vs.length - 1 - k) : Nat) : Int) = some w := by
      rw [hcells, if_pos (by omega), ← hk, List.getElem?_reverse hlt]
      congr
      omega
    rw [hsp, show n + vs.length - 1 - k = n + (vs.length - 1 - k) by omega]
    exact (cell_eq_some.1 hcell).2.2
  · rw [hcells, if_neg hi]
    rfl

section
variable {s : State} {a b : Word} (hab : s.endsIn [b, a])
include hab

/-- An instruction that begins with two pops has both Words, on a stack smaller by two. -/
theorem two_pops_of {α : Type} (f : Word → Word → State → Res α) :
    ((pop s).andThen fun b t => (pop t).andThen fun a u => f b a u) = f b a (s.setSp (s.sp - 2)) := by
  obtain ⟨n, hn, hb, ha⟩ := endsIn_two.1 hab
  rw [pop_of hn hb, andThen_ok, pop_of (s := s.setSp (n + 1)) rfl ha, andThen_ok, hn]
  rfl

/-- An instruction that pops two Words, pushes at most as many, and goes on behind its one byte. `m` is the
size it leaves. -/
theorem exec_replaceTopTwo_of {i : Instr} {vs : List Word} {m : Nat} (h : Sound s) (hvs : vs.length ≤ 2)
    (hm : m + 2 = s.sp + vs.length)
    (hi : exec i s = finish ((pushAll vs (s.setSp (s.sp - 2))).andThen fun _ t => advance 1 t)) :
    ∃ t, exec i s = .next t ∧ t = { s with pc := s.pc + 1, sp := m, stack := t.stack } ∧
      t.endsIn vs.reverse ∧ CellsKept s t fun i => (s.sp : Int) - 2 ≤ i ∧ i < m := by
  have htwo : 2 ≤ s.sp := hab.1
  have hsp := h.sp_le_cap
  obtain ⟨t, hpush, hframe, hends, hcells⟩ := pushAll_within h (n := s.sp - 2) (vs := vs) (by omega)
  refine ⟨t.setPc (t.pc + 1), by rw [hi, hpush]; rfl, ?_, hends, cellsKept_mono hcells fun i hi => by omega⟩
  rw [show m = s.sp - 2 + vs.length by omega, hframe]
  rfl

/-- SWAP with both Words popped (R143). -/
theorem exec_swap_of :
    exec .swap s = finish ((pushAll [b, a] (s.setSp (s.sp - 2))).andThen fun _ t => advance 1 t) := by
  rw [exec, execSwap, two_pops_of hab]
  simp only [pushAll, andThen_assoc, andThen_ok]

/-- A binary operation with both operands popped (R144). -/
theorem binary_of (op : Word → Word → Word) :
    binary op s = finish ((pushAll [op a b] (s.setSp (s.sp - 2))).andThen fun _ t => advance 1 t) := by
  rw [binary, two_pops_of hab]
  simp only [pushAll, andThen_assoc, andThen_ok]

/-- A binary operation leaves its result in the cell of the lower operand. -/
theorem exec_binary_of {i : Instr} {op : Word → Word → Word} (h : Sound s) (hi : exec i s = binary op s) :
    ∃ t, exec i s = .next t ∧ t = { s with pc := s.pc + 1, sp := s.sp - 1, stack := t.stack } ∧
      t.endsIn [op a b] ∧ CellsKept s t (· = (s.sp : Int) - 2) := by
  have htwo : 2 ≤ s.sp := hab.1
  obtain ⟨t, hexec, hframe, hends, hcells⟩ := exec_replaceTopTwo_of (vs := [op a b]) (m := s.sp - 1) hab h
    (by simp) (by simp only [List.length_singleton]; omega) (hi.trans (binary_of hab op))
  exact ⟨t, hexec, hframe, hends, cellsKept_mono hcells fun i hi => by omega⟩

end

/-- Settles O28: the two Words are pushed back, the former top first. -/
theorem swapExchangesTheTopTwo : Obligations.SwapExchangesTheTopTwo := by
  intro s a b h hab
  obtain ⟨t, hexec, hframe, hends, hcells⟩ :=
    exec_replaceTopTwo_of (vs := [b, a]) (m := s.sp) hab h le_rfl rfl (exec_swap_of hab)
  exact ⟨t, hexec, hframe, hends, cellsKept_mono hcells fun i hi => by omega⟩

/-- Settles O29: the four share all but the operation, which is the rule's on the Words' values or bits. -/
theorem binaryOperationsReplaceTheTopTwo : Obligations.BinaryOperationsReplaceTheTopTwo := by
  intro s a b h hab i hi
  simp only [List.mem_cons, List.not_mem_nil, or_false] at hi
  rcases hi with rfl | rfl | rfl | rfl
  · obtain ⟨t, hexec, hframe, hends, hcells⟩ := exec_binary_of (i := .iadd) hab h rfl
    exact ⟨t, a + b, hexec, hframe, hends, hcells, fun _ => BitVec.toInt_add a b, nofun, nofun, nofun⟩
  · obtain ⟨t, hexec, hframe, hends, hcells⟩ := exec_binary_of (i := .isub) hab h rfl
    exact ⟨t, a - b, hexec, hframe, hends, hcells, nofun, fun _ => BitVec.toInt_sub, nofun, nofun⟩
  · obtain ⟨t, hexec, hframe, hends, hcells⟩ := exec_binary_of (i := .iand) hab h rfl
    exact ⟨t, a &&& b, hexec, hframe, hends, hcells, nofun, nofun, fun _ _ => BitVec.getLsbD_and, nofun⟩
  · obtain ⟨t, hexec, hframe, hends, hcells⟩ := exec_binary_of (i := .ior) hab h rfl
    exact ⟨t, a ||| b, hexec, hframe, hends, hcells, nofun, nofun, nofun, fun _ _ => BitVec.getLsbD_or⟩

end Sys2Proof.Machine
end

section
/-! SUPPORT. Byte input and output: the transaction of each answer, the step of a block whose IN holds, and the
byte OUT emits (spec/42_io.md R170, R171). -/

namespace Sys2Proof.Machine

/-! ### The host's answers -/

section
variable {s : State} {v : Word} {as : List HostAnswer}

theorem inByte_byte {b : Byte} (he : s.eof = false) (ha : s.answers = .byte b :: as) (hv : v.toNat = b.toNat) :
    inByte s = .value v (s.setHost as false) := by
  have hb : b.setWidth 32 = v :=
    BitVec.eq_of_toNat_eq ((BitVec.toNat_setWidth_of_le (by decide)).trans hv.symm)
  simp [inByte, he, ha, hb]

theorem inByte_endOfInput (he : s.eof = false) (ha : s.answers = .eof :: as) :
    inByte s = .value 0 (s.setHost as true) := by
  simp [inByte, he, ha]

/-- After EOF nothing is consumed: the transaction leaves what it found (R365). -/
theorem inByte_afterEof (he : s.eof = true) : inByte s = .value 0 (s.setHost s.answers true) := by
  rw [inByte_eof he, ← he]
  rfl

/-- An IN whose transaction brings `v` pushes it; the host's input is as the transaction leaves it. -/
theorem exec_inp_pushes {e : Bool} (h : Sound s) (hroom : s.hasRoom)
    (hin : inByte s = .value v (s.setHost as e)) :
    ∃ t, exec .inp s = .next t ∧
      t = { s with pc := s.pc + 1, sp := s.sp + 1, cap := s.capAfterPush, stack := t.stack,
                   answers := as, eof := e } ∧
      t.cell s.sp = some v ∧ CellsKept s t (· = (s.sp : Int)) := by
  have hsound : Sound (s.setHost as e) := sound_regs h ..
  rw [exec_inp_of hin, push_hasRoom (s := s.setHost as e) hroom, andThen_ok]
  exact ⟨_, rfl, rfl, pushed_kept hsound v⟩

end

/-! ### The block's step -/

section
variable {b : Block} {s : State}

/-- A core that finds an instruction to run has not reached the end of its text. -/
theorem settle_of_runs {i : Instr} (hf : fetch s = .runs i) : settle s = s := by
  rw [settle_eq, if_neg]
  rintro ⟨hs, hend⟩
  have hpc : 0 ≤ s.pc.toInt := by omega
  have hpc' := toInt_eq_toNat hpc
  have hnil : s.text.drop s.pc.toNat = [] := List.drop_eq_nil_of_le (by omega)
  simp [fetch, hs, hpc.not_gt, hnil, decode] at hf

theorem block_step_holds (hb : b.machine = some s) (hf : fetch s = .runs .inp)
    (he : s.eof = false) (ha : s.answers = []) : b.step = (b, .holds) := by
  have hstep : step s = .next s := by
    rw [step_of_exec hf (exec_inp_hold (inByte_noAnswer he ha)), settle_of_runs hf]
  rw [block_step_of hb hstep, stepReply_of hf, if_pos ⟨rfl, withheld_iff.2 ⟨he, ha⟩⟩, ← hb]

theorem block_step_requests (hb : b.machine = some s) (hf : fetch s = .runs .inp)
    (h : s.eof = true ∨ s.answers ≠ []) : b.step.2 = .stepped (some .request) := by
  obtain ⟨t, ht⟩ := everyStepAnswersANextState.2 s
  have hw : ¬ s.withheld = true := by simpa [withheld_iff, or_iff_not_imp_left] using h
  rw [block_step_of hb ht, stepReply_of hf, if_neg fun hi => hw hi.2, sends, if_pos rfl]

end

/-- Settles O30: each of the three answers is a transaction whose value is pushed; without one IN holds. -/
theorem inPushesTheHostsAnswer : Obligations.InPushesTheHostsAnswer := by
  refine ⟨fun s v as e h hroom hcase => ?_, fun s he ha => exec_inp_hold (inByte_noAnswer he ha),
    fun b s rest hb hs hpc hd => ?_⟩
  · rcases hcase with ⟨he, rfl, rfl, rfl⟩ | ⟨he, ⟨b, ha, hv⟩, rfl⟩ | ⟨he, ha, rfl, rfl⟩
    · exact exec_inp_pushes h hroom (inByte_afterEof he)
    · exact exec_inp_pushes h hroom (inByte_byte he ha hv)
    · exact exec_inp_pushes h hroom (inByte_endOfInput he ha)
  · have hf := fetch_instr hs hpc hd
    exact ⟨block_step_holds hb hf, block_step_requests hb hf⟩

/-! ### Output -/

theorem lowByte_eq_mod (v : Word) : v.extractLsb' 0 8 = BitVec.ofNat 8 (v.toNat % 256) :=
  BitVec.eq_of_toNat_eq (by simp)

/-- Settles O31: the pop leaves the Word's low byte for the channel. -/
theorem outEmitsTheLowByte : Obligations.OutEmitsTheLowByte := by
  intro s v hv
  rw [exec, execOut, pop_endsIn hv, andThen_ok, lowByte_eq_mod]
  rfl

end Sys2Proof.Machine
end

section
/-! SUPPORT. Branches: the target as a signed sum, the tests as propositions, and where a branch leads with its
operands popped (spec/43_branches.md R180 to R184). -/

namespace Sys2Proof.Machine

/-! ### The target -/

/-- The displacement is signed, and the sum wraps to 32 bits (R97). -/
theorem branchTarget_toInt (opc : Word) (off : Half) :
    (branchTarget opc off).toInt = (opc.toInt + off.toInt).bmod (2 ^ 32) := by
  rw [branchTarget, BitVec.toInt_add, off16, BitVec.toInt_signExtend_of_le (by decide)]

/-! ### The tests -/

@[simp] theorem isZero_iff {v : Word} : isZero v = true ↔ v = 0 := beq_iff_eq

@[simp] theorem isNegative_iff {v : Word} : isNegative v = true ↔ v.toInt < 0 := decide_eq_true_iff

@[simp] theorem isEqual_iff {a b : Word} : isEqual a b = true ↔ a = b := beq_iff_eq

/-! ### The branches -/

/-- Taken or not, a branch completes and sets `pc` alone. -/
theorem branch_eq (taken : Bool) (off : Half) (s : State) :
    branch taken off s = .ok () (s.setPc (if taken then branchTarget s.pc off else s.pc + 3)) := by
  cases taken with
  | false => rfl
  | true => rfl

theorem exec_goto (off : Half) (s : State) :
    exec (.goto off) s = .next (s.setPc (branchTarget s.pc off)) := rfl

section
variable {s : State} {v a b : Word} (off : Half)

theorem exec_ifeq_of (hv : s.endsIn [v]) :
    exec (.ifeq off) s =
      .next ((s.setSp (s.sp - 1)).setPc (if v = 0 then branchTarget s.pc off else s.pc + 3)) := by
  rw [exec, execIfeq, pop_endsIn hv, andThen_ok, branch_eq]
  simp only [isZero_iff]
  rfl

theorem exec_iflt_of (hv : s.endsIn [v]) :
    exec (.iflt off) s =
      .next ((s.setSp (s.sp - 1)).setPc (if v.toInt < 0 then branchTarget s.pc off else s.pc + 3)) := by
  rw [exec, execIflt, pop_endsIn hv, andThen_ok, branch_eq]
  simp only [isNegative_iff]
  rfl

theorem exec_ifIcmpeq_of (hab : s.endsIn [b, a]) :
    exec (.ifIcmpeq off) s =
      .next ((s.setSp (s.sp - 2)).setPc (if a = b then branchTarget s.pc off else s.pc + 3)) := by
  rw [exec, execIfIcmpeq, two_pops_of hab, branch_eq]
  simp only [isEqual_iff]
  rfl

end

/-- Settles O32: GOTO sets `pc` alone, to the branch target. -/
theorem gotoJumpsFromItsOwnAddress : Obligations.GotoJumpsFromItsOwnAddress :=
  fun s off => ⟨_, exec_goto off s, rfl, branchTarget_toInt s.pc off⟩

/-- Settles O33: the Word is popped before the test, so `sp` is lowered on both ways. -/
theorem ifeqAndIfltTestThePoppedWord : Obligations.IfeqAndIfltTestThePoppedWord :=
  fun _ off _ hv => ⟨exec_ifeq_of off hv, exec_iflt_of off hv⟩

/-- Settles O34: both Words are popped before the test, so `sp` is lowered on both ways. -/
theorem ifIcmpeqComparesTheTopTwo : Obligations.IfIcmpeqComparesTheTopTwo :=
  fun _ off _ _ hab => exec_ifIcmpeq_of off hab

end Sys2Proof.Machine
end

section
/-! SUPPORT. Constants and local variables: an instruction that writes one cell, and where stores and
increments lead with their Words read (spec/44_constants_locals.md R200 to R207). -/

namespace Sys2Proof.Machine

/-! ### A Word pushed -/

/-- Settles O35: with the constant read, LDC_W is a push; the read of an index past the pool fails. -/
theorem ldcWPushesTheConstant : Obligations.LdcWPushesTheConstant :=
  fun _ _ => ⟨fun _ h hroom hw => exec_push_of h hroom (exec_ldcW_of hw),
    fun hi => reportsUndef_first rfl (constant_outside hi)⟩

/-- Settles O36: with the variable read, both loads are pushes. -/
theorem loadsPushTheLocal : Obligations.LoadsPushTheLocal :=
  fun _ _ h hroom => ⟨fun _ hv => exec_push_of h hroom (exec_iload_of hv),
    fun _ hv => exec_push_of h hroom (exec_wideIload_of hv)⟩

/-! ### One cell written -/

/-- An instruction that writes a cell of the stack, with the logical size at `m`, and goes on behind its own
bytes. -/
theorem exec_write_of {i : Instr} {s : State} {j : Int} {v : Word} {m n : Nat} (h0 : 0 ≤ j) (hcap : j < s.cap)
    (hi : exec i s = finish ((stackWrite j v (s.setSp m)).andThen fun _ t => advance n t)) :
    ∃ t, exec i s = .next t ∧ t = { s with pc := s.pc + BitVec.ofNat 32 n, sp := m, stack := t.stack } ∧
      t.cell j = some v ∧ CellsKept s t (· = j) := by
  rw [hi, stackWrite_of (s := s.setSp m) (inStack_iff.2 ⟨h0, hcap⟩), andThen_ok]
  exact ⟨_, rfl, rfl, setCell_kept h0 hcap v⟩

section
variable {s : State} {v : Word}

/-! A store, with its Word popped. -/

theorem storeLocal_of (k : Nat) (h : s.endsIn [v]) :
    storeLocal k s = stackWrite (s.localIndex k) v (s.setSp (s.sp - 1)) := by
  rw [storeLocal, pop_endsIn h, andThen_ok]
  rfl

theorem exec_istore_of (k : Byte) (h : s.endsIn [v]) :
    exec (.istore k) s = finish ((stackWrite (s.lv.toInt + k.toNat) v (s.setSp (s.sp - 1))).andThen
      fun _ t => advance 2 t) := by
  rw [exec, execIstore, idx8, storeLocal_of _ h, State.localIndex]

theorem exec_wideIstore_of (k : Half) (h : s.endsIn [v]) :
    exec (.wideIstore k) s = finish ((stackWrite (s.lv.toInt + k.toNat) v (s.setSp (s.sp - 1))).andThen
      fun _ t => advance 4 t) := by
  rw [exec, execWideIstore, idx16, storeLocal_of _ h, State.localIndex]

/-! An increment, with its variable read. -/

theorem incLocal_of {k : Nat} (d : Word) (h : s.cell (s.localIndex k) = some v) :
    incLocal k d s = stackWrite (s.localIndex k) (v + d) s := by
  rw [incLocal, stackRead_of h, andThen_ok]

theorem exec_iinc_of {k : Byte} (d : Byte) (h : s.cell (s.lv.toInt + k.toNat) = some v) :
    exec (.iinc k d) s = finish ((stackWrite (s.lv.toInt + k.toNat) (v + delta8 d) s).andThen
      fun _ t => advance 3 t) := by
  rw [exec, execIinc, idx8, incLocal_of _ h, State.localIndex]

theorem exec_wideIinc_of {k : Half} (d : Byte) (h : s.cell (s.lv.toInt + k.toNat) = some v) :
    exec (.wideIinc k d) s = finish ((stackWrite (s.lv.toInt + k.toNat) (v + delta8 d) s).andThen
      fun _ t => advance 5 t) := by
  rw [exec, execWideIinc, idx16, incLocal_of _ h, State.localIndex]

/-- The delta is signed, and the sum wraps to 32 bits (R203). -/
theorem add_delta8_toInt (v : Word) (d : Byte) :
    (v + delta8 d).toInt = (v.toInt + d.toInt).bmod (2 ^ 32) := by
  rw [BitVec.toInt_add, delta8, BitVec.toInt_signExtend_of_le (by decide)]

/-- An increment writes the sum to the cell it has read, which therefore exists, and `sp` stays. -/
theorem exec_increment_of {i : Instr} {j : Int} {n : Nat} (d : Byte) (h : s.cell j = some v)
    (hi : exec i s = finish ((stackWrite j (v + delta8 d) s).andThen fun _ t => advance n t)) :
    ∃ t r, exec i s = .next t ∧ t = { s with pc := s.pc + BitVec.ofNat 32 n, stack := t.stack } ∧
      r.toInt = (v.toInt + d.toInt).bmod (2 ^ 32) ∧ t.cell j = some r ∧ CellsKept s t (· = j) := by
  obtain ⟨h0, hcap, -⟩ := cell_eq_some.1 h
  obtain ⟨t, hexec, hframe, hcells⟩ := exec_write_of (m := s.sp) h0 hcap hi
  exact ⟨t, v + delta8 d, hexec, hframe, add_delta8_toInt v d, hcells⟩

end

/-- Settles O37: the Word popped is written to the variable's cell, wherever in the stack that lies. -/
theorem storesWriteTheLocal : Obligations.StoresWriteTheLocal :=
  fun _ _ hv => ⟨fun k h0 hcap => exec_write_of h0 hcap (exec_istore_of k hv),
    fun k h0 hcap => exec_write_of h0 hcap (exec_wideIstore_of k hv)⟩

/-- Settles O38: both forms increment the cell `lv + i`. -/
theorem incrementsAddTheSignedDelta : Obligations.IncrementsAddTheSignedDelta :=
  fun _ _ d => ⟨fun _ hv => exec_increment_of d hv (exec_iinc_of d hv),
    fun _ hv => exec_increment_of d hv (exec_wideIinc_of d hv)⟩

/-! ### WIDE with another byte -/

/-- Settles O24: this form does nothing but raise its error. -/
theorem wideWithAnotherByteIsUndefined : Obligations.WideWithAnotherByteIsUndefined :=
  fun _ _ => reportsUndef_of rfl

end Sys2Proof.Machine
end

section
/-! SUPPORT. Arrays: an allocation without storage, the one element a store changes, and a push into the cell
just popped (spec/45_arrays.md R230 to R232, spec/20_memory.md R65 to R67). -/

namespace Sys2Proof.Machine

/-! ### Allocation -/

section
variable {s : State} {count : Word}

theorem tableFull_iff :
    s.tableFull = true ↔ s.heap.length = s.hcap ∧ s.cfg.heapTableMax < 2 * s.hcap := by
  simp [State.tableFull]

theorem tableFull_eq_false :
    s.tableFull = false ↔ (s.heap.length = s.hcap → 2 * s.hcap ≤ s.cfg.heapTableMax) := by
  simp [State.tableFull]

theorem allocate_badCount (h : count.toInt ≤ 0) :
    allocate count s = .raised (.recoverable .badArraySize) s := if_pos h

theorem allocate_noStorage (hpos : 0 < count.toInt)
    (h : s.tableFull = true ∨ s.cfg.heapWordsMax < s.heapWords + count.toNat) :
    allocate count s = .raised (.fatal .heapAlloc) s := by
  rw [allocate, if_neg hpos.not_ge]
  rcases h with htable | hwords
  · rw [if_pos htable]
  · rw [if_pos hwords, ite_self]

/-- An allocation does not look at the stack: with the count popped it extends the same table (R65). -/
theorem allocate_after_pop {n : Nat} (hpos : 0 < count.toInt)
    (htable : s.heap.length = s.hcap → 2 * s.hcap ≤ s.cfg.heapTableMax)
    (hwords : s.heapWords + count.toNat ≤ s.cfg.heapWordsMax) :
    allocate count (s.setSp n) = .ok (BitVec.ofNat 32 s.heap.length)
      ((s.setHeap (s.heap ++ [List.replicate count.toNat 0]) s.nextHcap).setSp n) :=
  allocate_of (s := s.setSp n) hpos (tableFull_eq_false.2 htable) hwords

/-- NEWARRAY with its count popped (R230). -/
theorem exec_newarray_of (h : s.endsIn [count]) :
    exec .newarray s = finish ((allocate count (s.setSp (s.sp - 1))).andThen fun r t =>
      (push r t).andThen fun _ t => advance 1 t) := by
  rw [exec, execNewarray, pop_endsIn h, andThen_ok]

end

/-- Settles O41: the count is popped, then its sign is checked, then the storage. -/
theorem newarrayErrors : Obligations.NewarrayErrors := by
  intro s count h
  refine ⟨fun hcount => ?_, fun hpos hstorage => ?_⟩
  · rw [exec_newarray_of h, allocate_badCount hcount]
    rfl
  · exact reportsFatal_first (exec_newarray_of h)
      (allocate_noStorage (s := s.setSp (s.sp - 1)) hpos (hstorage.imp_left tableFull_iff.2))

/-! ### A Word in place of the top -/

section
variable {s : State} {n : Nat} (hn : s.sp = n + 1)
include hn

theorem setCell_top_endsIn (v : Word) : (s.setCell n v).endsIn [v] :=
  endsIn_one.2 ⟨n, hn, memory_read_write_self s.stack n v⟩

variable (hcap : n < s.cap) (v : Word)
include hcap

theorem setCell_top_kept : CellsKept s (s.setCell n v) (· = (s.sp : Int) - 1) := fun j hj => by
  rw [setCell_cell hcap, if_neg (by omega)]

/-- A push after a pop needs no growth and writes the popped cell. -/
theorem push_after_pop : push v (s.setSp n) = .ok () (s.setCell n v) := by
  have hlt : (s.setSp n).sp < (s.setSp n).cap := hcap
  rw [push_hasRoom (hasRoom_of_lt hlt), pushed_ne hlt.ne]
  show Res.ok () ((s.setCell n v).setSp (n + 1)) = _
  rw [← hn]
  rfl

end

/-- NEWARRAY with storage: the table is extended, and the reference stands in the count's cell. -/
theorem exec_newarray_appends {s : State} {count : Word} {n : Nat} (hc : s.endsIn [count]) (hn : s.sp = n + 1)
    (hcap : n < s.cap) (hpos : 0 < count.toInt)
    (htable : s.heap.length = s.hcap → 2 * s.hcap ≤ s.cfg.heapTableMax)
    (hwords : s.heapWords + count.toNat ≤ s.cfg.heapWordsMax) :
    exec .newarray s = .next (((s.setHeap (s.heap ++ [List.replicate count.toNat 0]) s.nextHcap).setCell n
      (BitVec.ofNat 32 s.heap.length)).setPc (s.pc + 1)) := by
  rw [exec_newarray_of hc, hn, Nat.add_sub_cancel, allocate_after_pop hpos htable hwords, andThen_ok, push_after_pop]
  · rfl
  · exact hn
  · exact hcap

/-- Settles O40: one cell is written, the count's; the table is the one the allocation leaves. -/
theorem newarrayAppendsAZeroedArray : Obligations.NewarrayAppendsAZeroedArray := by
  intro s count h hc hpos htable hwords
  obtain ⟨n, hn, -⟩ := endsIn_one.1 hc
  have hcap : n < s.cap := by
    have hsp := h.sp_le_cap
    omega
  exact ⟨_, exec_newarray_appends hc hn hcap hpos htable hwords, rfl, setCell_top_endsIn hn _,
    setCell_top_kept hn hcap _⟩

/-! ### Elements -/

/-- A load of an element that is there answers it and leaves the state as it is (R66). -/
theorem arrayLoad_element {s : State} {ref index v : Word} {a : List Word} (href : 0 ≤ ref.toInt)
    (ha : s.heap[ref.toNat]? = some a) (hindex : 0 ≤ index.toInt) (hv : a[index.toNat]? = some v) :
    arrayLoad ref index s = .ok v s := by
  obtain ⟨hlt, -⟩ := List.getElem?_eq_some_iff.1 hv
  have hin : inArray index a.length = true :=
    inArray_iff.2 ⟨hindex, (toInt_eq_toNat hindex).trans_lt (Int.ofNat_lt.2 hlt)⟩
  rw [arrayLoad_of (array_eq_some.2 ⟨href, ha⟩) hin, List.getD_eq_getElem?_getD, hv, Option.getD_some]

/-- Settles O42: with the element read, IALOAD pushes it in place of its two operands. -/
theorem ialoadReadsTheElement : Obligations.IaloadReadsTheElement := by
  intro s ref index v a h hops href ha hindex hv
  have htwo : 2 ≤ s.sp := hops.1
  have hload := arrayLoad_element (s := s.setSp (s.sp - 2)) href ha hindex hv
  have hpush : exec .iaload s = finish ((pushAll [v] (s.setSp (s.sp - 2))).andThen fun _ t => advance 1 t) := by
    rw [exec_iaload_of hops, hload]
    simp only [pushAll, andThen_assoc, andThen_ok]
  obtain ⟨t, hexec, hframe, hends, hcells⟩ := exec_replaceTopTwo_of (m := s.sp - 1) hops h (by simp)
    (by simp only [List.length_singleton]; omega) hpush
  exact ⟨t, hexec, hframe, hends, cellsKept_mono hcells fun i hi => by omega⟩

/-- The elements of a table in which one element of one array has been replaced. -/
theorem element_set {heap : List (List Word)} {ref index : Nat} {a : List Word} (ha : heap[ref]? = some a)
    (hindex : index < a.length) (v : Word) (r k : Nat) :
    (heap.set ref (a.set index v))[r]?.bind (·[k]?) =
      if r = ref ∧ k = index then some v else heap[r]?.bind (·[k]?) := by
  obtain ⟨href, -⟩ := List.getElem?_eq_some_iff.1 ha
  by_cases hr : r = ref
  · subst hr
    rw [List.getElem?_set_self href, ha, Option.bind_some, Option.bind_some]
    by_cases hk : k = index
    · subst hk
      rw [List.getElem?_set_self hindex, if_pos ⟨rfl, rfl⟩]
    · rw [List.getElem?_set_ne (Ne.symm hk), if_neg fun h => hk h.2]
  · rw [List.getElem?_set_ne (Ne.symm hr), if_neg fun h => hr h.1]

/-- Settles O43: the store replaces the one element, after three pops that leave the cells as they are. -/
theorem iastoreWritesTheElement : Obligations.IastoreWritesTheElement := by
  intro s ref index v a hops href ha hindex hlt
  have hstore := arrayStore_of (s := s.setSp (s.sp - 3)) (v := v) (array_eq_some.2 ⟨href, ha⟩)
    (inArray_iff.2 ⟨hindex, hlt⟩)
  have hlengths := arrayStore_lengths ref index v (s.setSp (s.sp - 3))
  rw [hstore] at hlengths
  rw [toInt_eq_toNat hindex] at hlt
  have hexec := exec_iastore_of hops
  rw [hstore] at hexec
  exact ⟨_, hexec, rfl, hlengths, element_set ha (by omega) v⟩

end Sys2Proof.Machine
end

section
/-! SUPPORT. Call frames: what calls and returns do once their callee and the saved frame are known, what raises
their errors, and a return that undoes its call (spec/46_frames.md R250 to R264). -/

namespace Sys2Proof.Machine

/-! ### The callee -/

section
variable {s : State} {e : Word}

/-- An entry whose header is not inside the text (R250, R98). -/
theorem header_truncated (h : e.toInt < 0 ∨ (s.text.length : Int) ≤ e.toInt + 3) :
    header e s = .raised (.undef .truncated) s := by
  unfold header
  split
  · rename_i ha hl
    have hfirst := u16_inside (Option.ne_none_iff_exists'.2 ⟨_, ha⟩)
    have hsecond := u16_inside (Option.ne_none_iff_exists'.2 ⟨_, hl⟩)
    omega
  · rfl

/-- A header field with bit 15, which is bit 7 of its first byte, set (R250). -/
theorem header_outOfRange {a1 a0 l1 l0 : Byte} (he : 0 ≤ e.toInt)
    (ht : (s.text.drop e.toNat).take 4 = [a1, a0, l1, l0]) (hbit : 0x80 ≤ a1.toNat ∨ 0x80 ≤ l1.toNat) :
    header e s = .raised (.undef .headerRange) s := by
  obtain ⟨ha, hl⟩ := u16_of_bytes he ht
  have hrange : 0x8000 ≤ (be16 a1 a0).toNat ∨ 0x8000 ≤ (be16 l1 l0).toNat := by
    rw [be16_toNat, be16_toNat]
    omega
  simp only [header, ha, hl, if_pos hrange]

theorem resolve_outside {k : Half} (h : s.cp.length ≤ k.toNat) :
    resolve k s = .raised (.undef .cpRange) s := by
  rw [resolve, constant_outside h, andThen_raised]

theorem resolve_of_constant {k : Half} (h : s.cp[k.toNat]? = some e) : resolve k s = header e s := by
  rw [resolve, constant_of h, andThen_ok]

/-- A call begins by resolving its callee, and ends in the error that raises. -/
theorem call_undef_of_resolve {k : Half} {i : Instr} {c : UndefCause} (hi : i ∈ [Instr.invokevirtual k, .tailcall k])
    (h : resolve k s = .raised (.undef c) s) : ∃ t, exec i s = .next t ∧ t.reportsUndef c := by
  simp only [List.mem_cons, List.not_mem_nil, or_false] at hi
  rcases hi with rfl | rfl
  · exact reportsUndef_first rfl h
  · exact reportsUndef_first rfl h

end

/-- Settles O49: each of these callees fails in the resolution that both calls begin with. -/
theorem callsOfBadCalleesAreUndefined : Obligations.CallsOfBadCalleesAreUndefined := by
  intro s k i hi
  refine ⟨fun h => call_undef_of_resolve hi (resolve_outside h), fun e hc => ⟨fun h => ?_, ?_⟩⟩
  · exact call_undef_of_resolve hi ((resolve_of_constant hc).trans (header_truncated h))
  · intro a1 a0 l1 l0 he ht hbit
    exact call_undef_of_resolve hi ((resolve_of_constant hc).trans (header_outOfRange he ht hbit))

/-! ### The saved frame -/

/-- The frame base is an existing cell: the one that holds the link. -/
theorem frame_base {s : State} {link spc slv : Word} (h : s.frame link spc slv) :
    s.lv.toInt = s.lv.toNat ∧ s.lv.toNat < s.cap := by
  obtain ⟨hlink, -, -⟩ := h
  obtain ⟨h0, hlt, -⟩ := cell_eq_some.1 hlink
  have hnat := toInt_eq_toNat h0
  exact ⟨hnat, by omega⟩

theorem savedFrame_of_frame {s : State} {link spc slv : Word} (h : s.frame link spc slv) :
    savedFrame s = .ok (s.lv.toInt, spc, slv) s := by
  obtain ⟨hlink, hspc, hslv⟩ := h
  exact savedFrame_of hlink hspc hslv

/-- The saved frame does not depend on where the top is. -/
theorem frame_setSp {s : State} {link spc slv : Word} (h : s.frame link spc slv) (n : Nat) :
    (s.setSp n).frame link spc slv := h

/-- The first of the three reads of the saved frame that raises an error is where the reading ends. -/
theorem savedFrame_raised {s : State} {j : Int} {err : RunError}
    (hj : j = s.lv.toInt ∨ ∃ link, s.cell s.lv.toInt = some link ∧
      (j = link.toInt ∨ s.cell link.toInt ≠ none ∧ j = link.toInt + 1))
    (hread : stackRead j s = .raised err s) : savedFrame s = .raised err s := by
  rcases hj with rfl | ⟨link, hlink, rfl | ⟨hspc, rfl⟩⟩
  · rw [savedFrame, hread, andThen_raised]
  · rw [savedFrame, stackRead_of hlink, andThen_ok, hread, andThen_raised]
  · obtain ⟨spc, hspc⟩ := Option.ne_none_iff_exists'.1 hspc
    rw [savedFrame, stackRead_of hlink, andThen_ok, stackRead_of hspc, andThen_ok, hread, andThen_raised]

theorem stackRead_cell_none {s : State} {j : Int} (hin : s.inStack j = true) (h : s.cell j = none) :
    stackRead j s = .raised (.undef .unwrittenRead) s := by
  rw [State.cell, if_pos hin] at h
  exact stackRead_unwritten hin h

/-- A return and a tail call that come to read the saved frame; a return has popped its result by then. -/
theorem exec_begins_savedFrame {s : State} {i : Instr} (hdepth : s.depth ≠ 0)
    (hi : (i = .ireturn ∧ ∃ r, s.endsIn [r]) ∨ ∃ k e A L, i = .tailcall k ∧ s.callee k e A L) :
    ∃ n f, exec i s = finish ((savedFrame (s.setSp n)).andThen f) := by
  rcases hi with ⟨rfl, r, hr⟩ | ⟨k, e, A, L, rfl, hcallee⟩
  · rw [exec, execIreturn, if_neg hdepth, pop_endsIn hr, andThen_ok]
    exact ⟨s.sp - 1, _, rfl⟩
  · rw [exec, execTailcall, resolve_of hcallee, andThen_ok, if_neg hdepth]
    exact ⟨s.sp, _, rfl⟩

/-- Settles O51: the frame's cells are the same with the result popped, and the first that cannot be read
ends the reading. -/
theorem framesThatCannotBeReadEndTheRun : Obligations.FramesThatCannotBeReadEndTheRun := by
  intro s i j hdepth hi hj
  obtain ⟨n, f, hexec⟩ := exec_begins_savedFrame hdepth hi
  refine ⟨fun hout => ?_, fun h0 hlt hnone => ?_⟩
  · exact reportsFatal_first hexec (savedFrame_raised (s := s.setSp n) hj
      (stackRead_outside (s := s.setSp n) (inStack_eq_false.2 hout)))
  · exact reportsUndef_first hexec (savedFrame_raised (s := s.setSp n) hj
      (stackRead_cell_none (s := s.setSp n) (inStack_iff.2 ⟨h0, hlt⟩) hnone))

/-! ### INVOKEVIRTUAL and IRETURN -/

section
variable {s : State} {i : Half} {e : Word} {A L : Nat} (hcallee : s.callee i e A L)
include hcallee

theorem exec_invokevirtual_fewWords (h : s.sp < A) :
    exec (.invokevirtual i) s = finish (.raised (.fatal .stackIndex) s) := by
  rw [exec, execInvokevirtual, resolve_of hcallee, andThen_ok, if_pos h]

/-- A call with its words on the stack builds the frame there, and enters it (R251). -/
theorem exec_invokevirtual_of (h : A ≤ s.sp) :
    exec (.invokevirtual i) s = finish ((buildFrame (s.sp - A) ⟨e, A, L⟩ (s.pc + 3) s.lv s).andThen fun _ t =>
      jump (e + 4) ((t.setLv (BitVec.ofNat 32 (s.sp - A))).setDepth (t.depth + 1))) := by
  rw [exec, execInvokevirtual, resolve_of hcallee, andThen_ok, if_neg (Nat.not_lt.2 h)]
  rfl

end

/-- Settles O45: the frame stands on the words already there, so its base is `A` below the top. -/
theorem invokevirtualBuildsTheFrame : Obligations.InvokevirtualBuildsTheFrame := by
  intro s i e A L h hcallee hA hfit
  obtain ⟨t, hbuild, -, honly, hsp, hgrown, hcells⟩ :=
    buildFrame_of h (base := s.sp - A) (A := A) (e := e) (s.pc + 3) s.lv (Nat.sub_add_cancel hA).symm hfit
  refine ⟨((t.setLv (BitVec.ofNat 32 (s.sp - A))).setDepth (t.depth + 1)).setPc (e + 4),
    by rw [exec_invokevirtual_of hcallee hA, hbuild]; rfl, ?_, hgrown, hcells⟩
  rw [← hsp, stackOnly_eq honly]
  rfl

/-- A return pops its result and reads the saved frame (R256). -/
theorem exec_ireturn_of {s : State} {r link npc nlv : Word} (hdepth : s.depth ≠ 0) (hr : s.endsIn [r])
    (hframe : s.frame link npc nlv) :
    exec .ireturn s = finish (
      if ((s.sp - 1 : Nat) : Int) < s.lv.toInt then .raised (.undef .unwindBelowBase) (s.setSp (s.sp - 1))
      else (push r (s.setSp s.lv.toNat)).andThen fun _ t => jump npc ((t.setLv nlv).setDepth (t.depth - 1))) := by
  obtain ⟨hlv, -⟩ := frame_base hframe
  rw [exec, execIreturn, if_neg hdepth, pop_endsIn hr, andThen_ok, savedFrame_of_frame (frame_setSp hframe _),
    andThen_ok]
  simp only [State.setSp_lv, hlv, Int.toNat_natCast]
  rfl

/-- Settles O46: below the capacity the push at the frame's base writes that one cell. -/
theorem ireturnUnwindsTheFrame : Obligations.IreturnUnwindsTheFrame := by
  intro s r link npc nlv hcap hdepth hr hframe hlt
  obtain ⟨hlv, hbase⟩ := frame_base hframe
  have hpush : push r (s.setSp s.lv.toNat) = .ok () ((s.setCell s.lv.toNat r).setSp (s.lv.toNat + 1)) := by
    rw [push_hasRoom (s := s.setSp s.lv.toNat) (hasRoom_of_lt hbase), pushed_ne (s := s.setSp s.lv.toNat) hbase.ne]
    rfl
  have hkept := setCell_kept (s := s) (j := s.lv.toInt) (by omega) (by omega) r
  rw [show s.lv.toInt.toNat = s.lv.toNat by omega] at hkept
  exact ⟨(((s.setCell s.lv.toNat r).setSp (s.lv.toNat + 1)).setLv nlv |>.setDepth (s.depth - 1)).setPc npc,
    by rw [exec_ireturn_of hdepth hr hframe, if_neg (by omega), hpush]; rfl, rfl, hkept⟩

/-- The Word in the one cell below the top. -/
theorem endsIn_of_cell {s : State} {n : Nat} {r : Word} (hsp : s.sp = n + 1) (h : s.cell n = some r) :
    s.endsIn [r] :=
  endsIn_one.2 ⟨n, hsp, (cell_eq_some.1 h).2.2⟩

/-- Settles O48: the frame that the call built (O45) is the one the return unwinds (O46). -/
theorem returnRestoresTheCaller : Obligations.ReturnRestoresTheCaller := by
  intro s t u i e r A L h hcallee h1 hA hfit hsmall hcall hlv hdepth hdepth0 hcap hsp hr hown hbelow
  obtain ⟨t', hcall', ht, -, hcells⟩ := invokevirtualBuildsTheFrame s i e A L h hcallee hA hfit
  cases hcall.symm.trans hcall'
  have htlv : t.lv = BitVec.ofNat 32 (s.sp - A) := by rw [ht]
  have htsp : t.sp = s.sp + L + 2 := by rw [ht]
  have htdepth : t.depth = s.depth + 1 := by rw [ht]
  have hbase : t.lv.toInt = (s.sp - A : Nat) := by rw [htlv, toInt_ofNat_lt (by omega)]
  have hlink : (BitVec.ofNat 32 (s.sp + L)).toInt = (s.sp : Int) + L := by
    rw [toInt_ofNat_lt (by omega), Int.natCast_add]
  have hframe : u.frame (BitVec.ofNat 32 (s.sp + L)) (s.pc + 3) s.lv := by
    refine ⟨?_, ?_, ?_⟩
    · rw [hlv, hown _ (.inl rfl), hcells, if_pos hbase]
    · rw [hlink, hown _ (.inr (.inl rfl)), hcells, if_neg (by omega), if_neg (by omega), if_neg (by omega),
        if_pos rfl]
    · rw [hlink, hown _ (.inr (.inr rfl)), hcells, if_neg (by omega), if_neg (by omega), if_neg (by omega),
        if_neg (by omega), if_pos rfl]
  obtain ⟨hnat, -⟩ := frame_base hframe
  rw [← hlv] at hbase
  obtain ⟨v, hreturn, hv, htop, hkept⟩ := ireturnUnwindsTheFrame u r _ _ _ hcap hdepth0 hr hframe (by omega)
  have hvsp : v.sp = u.lv.toNat + 1 := by rw [hv]
  have hvdepth : v.depth = u.depth - 1 := by rw [hv]
  refine ⟨v, hreturn, by rw [hv], by rw [hv], by omega, ?_,
    endsIn_of_cell hvsp (hnat ▸ htop), fun j hj => ?_⟩
  · rw [hvdepth, hdepth, htdepth, BitVec.add_sub_cancel]
  · rw [hkept j (by omega), hbelow j hj, hcells, if_neg (by omega), if_pos (by omega)]

/-! ### TAILCALL -/

/-- The Words that a stack ends in are the ones read from where they begin. -/
theorem stackReads_topWords {s : State} {args : List Word} (hle : args.length ≤ s.sp) (hsp : s.sp ≤ s.cap)
    (h : ∀ (k : Nat) (w : Word), args[k]? = some w → s.stack.read s.cfg (s.sp - args.length + k) = some w) :
    stackReads ((s.sp : Int) - args.length) args.length s = .ok args s := by
  refine stackReads_of args fun k w hk => ?_
  have hlt := (List.getElem?_eq_some_iff.1 hk).1
  rw [show (s.sp : Int) - args.length + k = (s.sp - args.length + k : Nat) by omega, cell_nat, if_pos (by omega)]
  exact h k w hk

section
variable {s : State} {i : Half} {e link spc slv : Word} {A L : Nat}

theorem exec_tailcall_noFrame (hcallee : s.callee i e A L) (hdepth : s.depth = 0) :
    exec (.tailcall i) s = finish (.raised (.undef .frameUnderflow) s) := by
  rw [exec, execTailcall, resolve_of hcallee, andThen_ok, if_pos hdepth]

variable (hcallee : s.callee i e A L) (hdepth : s.depth ≠ 0) (hframe : s.frame link spc slv)
include hcallee hdepth hframe

theorem exec_tailcall_fewWords (h : s.sp < A) :
    exec (.tailcall i) s = finish (.raised (.fatal .stackIndex) s) := by
  rw [exec, execTailcall, resolve_of hcallee, andThen_ok, if_neg hdepth, savedFrame_of_frame hframe, andThen_ok]
  simp only [if_pos h]

/-- A tail call with its words read writes them from the frame's base on, and builds the frame there (R262). -/
theorem exec_tailcall_of {args : List Word} (hA : A ≤ s.sp)
    (hargs : stackReads ((s.sp : Int) - A) A s = .ok args s) :
    exec (.tailcall i) s = finish ((stackWrites s.lv.toInt args s).andThen fun _ t =>
      (buildFrame s.lv.toNat ⟨e, A, L⟩ spc slv (t.setSp (s.lv.toNat + A))).andThen fun _ u => jump (e + 4) u) := by
  obtain ⟨hlv, -⟩ := frame_base hframe
  rw [exec, execTailcall, resolve_of hcallee, andThen_ok, if_neg hdepth, savedFrame_of_frame hframe, andThen_ok]
  simp only [if_neg (Nat.not_lt.2 hA), hargs, andThen_ok, hlv, Int.toNat_natCast, Method.first]

/-- Where the words fit at the frame's base, only the frame is left to build, in a state that is sound and has them
there. -/
theorem exec_tailcall_writes {args : List Word} (h : Sound s) (hA : A ≤ s.sp) (hlen : args.length = A)
    (hargs : stackReads ((s.sp : Int) - A) A s = .ok args s) (hfit : s.lv.toInt + A ≤ s.cap) :
    ∃ t, exec (.tailcall i) s =
        finish ((buildFrame s.lv.toNat ⟨e, A, L⟩ spc slv t).andThen fun _ u => jump (e + 4) u) ∧
      Sound t ∧ t = { s with sp := s.lv.toNat + A, stack := t.stack } ∧
      ∀ j : Int, t.cell j =
        if s.lv.toInt ≤ j ∧ j < s.lv.toInt + A then args[(j - s.lv.toInt).toNat]? else s.cell j := by
  obtain ⟨hlv, -⟩ := frame_base hframe
  obtain ⟨t, hwrites, hsound, ht, hcells⟩ := stackWrites_of h args (i := s.lv.toInt) (by omega) (by omega)
  have hcap : t.cap = s.cap := by rw [ht]
  rw [hlen] at hcells
  refine ⟨t.setSp (s.lv.toNat + A), ?_, sound_setSp hsound (by omega), ?_, hcells⟩
  · rw [exec_tailcall_of hcallee hdepth hframe hA hargs, hwrites, andThen_ok]
  · rw [ht]
    rfl

end

/-- Settles O47: the words are read in full, then written at the current base, where the frame is built on them. -/
theorem tailcallReusesTheFrame : Obligations.TailcallReusesTheFrame := by
  intro s i e link spc slv A L args h hcallee hdepth hframe hA hlen hargs hcap hfit
  subst hlen
  obtain ⟨hlv, -⟩ := frame_base hframe
  obtain ⟨t, hexec, hsound, ht, hwritten⟩ :=
    exec_tailcall_writes hcallee hdepth hframe h hA rfl (stackReads_topWords hA h.sp_le_cap hargs) hcap
  have htsp : t.sp = s.lv.toNat + args.length := by rw [ht]
  have htcap : t.cap = s.cap := by rw [ht]
  have htcfg : t.cfg = s.cfg := by rw [ht]
  obtain ⟨u, hbuild, -, honly, husp, hgrown, hcells⟩ :=
    buildFrame_of hsound (L := L) (e := e) spc slv htsp (by rw [htsp, htcfg]; omega)
  rw [htsp] at husp hgrown hcells
  rw [htcap] at hgrown
  rw [htcfg] at hcells
  refine ⟨u.setPc (e + 4), by rw [hexec, hbuild]; rfl, ?_, hgrown, fun j => ?_⟩
  · rw [← husp, stackOnly_eq honly, ht]
    rfl
  · refine (hcells j).trans ?_
    rw [hlv] at hwritten ⊢
    rw [Int.natCast_add]
    by_cases hbelow : j < s.lv.toNat
    · rw [if_neg (by omega), if_pos (by omega), if_pos hbelow, hwritten, if_neg (by omega)]
    · rw [if_neg hbelow]
      by_cases hbase : j = s.lv.toNat
      · rw [if_pos hbase, if_pos hbase]
      · rw [if_neg hbase, if_neg hbase]
        by_cases harg : j < s.lv.toNat + args.length
        · rw [if_pos harg, if_pos harg, hwritten, if_pos ⟨not_lt.1 hbelow, harg⟩]
        · have hkept : t.cell j = s.cell j := by rw [hwritten, if_neg fun hin => harg hin.2]
          rw [if_neg harg, if_neg harg, hkept]

/-! ### Errors -/

/-- Settles O50: the words are counted first, then read, then written at the base; a return counts its cells
after its pop. -/
theorem frameErrorsEndTheRun : Obligations.FrameErrorsEndTheRun := by
  intro s
  refine ⟨?_, ?_, ?_, ?_, ?_, ?_⟩
  · intro i e A L hcallee hfew
    exact reportsFatal_of (exec_invokevirtual_fewWords hcallee hfew)
  · intro i e A L link spc slv hcallee hfew hdepth hframe
    exact reportsFatal_of (exec_tailcall_fewWords hcallee hdepth hframe hfew)
  · intro i e A L link spc slv hcallee hA hsp hdepth hframe hwritten hbig
    obtain ⟨hlv, hbase⟩ := frame_base hframe
    obtain ⟨args, hlen, hreads⟩ := stackReads_top hA hsp hwritten
    obtain ⟨t, hwrites⟩ := stackWrites_outside (s := s) args (i := s.lv.toInt) (by omega) (by omega)
    exact reportsFatal_first (exec_tailcall_of hcallee hdepth hframe hA hreads) hwrites
  · intro hdepth
    exact reportsUndef_of (congrArg finish (if_pos hdepth))
  · intro i e A L hcallee hdepth
    exact reportsUndef_of (exec_tailcall_noFrame hcallee hdepth)
  · intro r link npc nlv hdepth hr hframe hlow
    have hone : 1 ≤ s.sp := hr.1
    exact reportsUndef_of (by rw [exec_ireturn_of hdepth hr hframe, if_pos (by omega)])

/-- Settles O54: both calls come to build the frame in a sound state without room for it. -/
theorem callsWithoutRoomAreFatal : Obligations.CallsWithoutRoomAreFatal := by
  intro s i e A L h hcallee hA
  refine ⟨fun hbig => ?_, fun link spc slv hdepth hframe hwritten hcap hbig => ?_⟩
  · obtain ⟨t, hbuild⟩ := buildFrame_noRoom h (base := s.sp - A) (A := A) (e := e) (s.pc + 3) s.lv hbig
    exact reportsFatal_first (exec_invokevirtual_of hcallee hA) hbuild
  · obtain ⟨args, hlen, hreads⟩ := stackReads_top hA h.sp_le_cap hwritten
    obtain ⟨t, hexec, hsound, ht, -⟩ := exec_tailcall_writes hcallee hdepth hframe h hA hlen hreads hcap
    obtain ⟨u, hbuild⟩ := buildFrame_noRoom hsound (base := s.lv.toNat) (A := A) (L := L) (e := e) spc slv
      (by rw [ht]; exact hbig)
    exact reportsFatal_first hexec hbuild

end Sys2Proof.Machine
end

section
/-! SUPPORT. The block without a machine, and LOAD as its host sees it (spec/70_reset_and_hazards.md R343). -/

namespace Sys2Proof.Machine

/-- STEP needs a machine. -/
theorem block_step_none {b : Block} (h : b.machine = none) : b.step = (b, .refused) := by
  simp [Block.step, h]

/-- INSPECT needs a machine, also for the queries that a faulted one answers. -/
theorem block_inspect_none {b : Block} (h : b.machine = none) (q : Query) : b.inspect q = (b, .refused) := by
  simp [Block.inspect, h]

/-- Settles O14: LOAD looks at no machine, and a failed one leaves none to step or to inspect. -/
theorem loadReplacesTheMachineOrLeavesNone : Obligations.LoadReplacesTheMachineOrLeavesNone := by
  intro b image storage rest
  refine ⟨fun r hload q => ?_, fun s hload => ⟨{ s with draws := b.drawn }, block_load_ok hload, rfl⟩⟩
  have hfailed := block_load_error hload
  have hnone : (b.load image storage).1.machine = none := by rw [hfailed]
  exact ⟨by rw [hfailed], hnone, block_step_none hnone, block_inspect_none hnone q⟩

end Sys2Proof.Machine
end
